-- ==== Sys2Proof/Word.lean ====
section
/-! DEFINITION. The word types of HUFF (00_scope.md R7, R8): every value the spec shifts, masks or shows to the
host as bits is a bit vector of the width the spec gives it. -/

namespace Sys2Proof

/-- A host bus data word, a command word, a FREQ count (BUS_DW = CNT_W = 32, R7). -/
abbrev Word := BitVec 32

/-- A symbol, or one byte of IN, PAY or OUT (SYM_W = 8, R7). -/
abbrev Byte := BitVec 8

/-- A node weight (WGT_W = 40, R7). -/
abbrev Weight := BitVec 40

/-- A NODE index, and the registers NSYM, ROOT and NODE_COUNT (IDX_W = 9, R7, R28 to R30). -/
abbrev NodeIdx := BitVec 9

/-- A host bus byte address (BUS_AW = 20, R7, R45). -/
abbrev BusAddr := BitVec 20

/-- A bit-string: a code or a bitstream, its first bit at the head (R9). -/
abbrev Bits := List Bool

end Sys2Proof
end

