-- ==== Sys2Proof/Config.lean ====
section
/-! DEFINITION. What an implementation of HUFF fixes (00_scope.md R7), and the free values the spec calls `any`
(R10, 93_implementation_defined.md S1 to S4). -/

namespace Sys2Proof

/-- The three OPEN parameters (R7, decision D10): the depths in bytes of IN, PAY and OUT. -/
structure Params where
  inDepth  : Nat
  payDepth : Nat
  outDepth : Nat
deriving DecidableEq, Repr

namespace Config

/-- The reference values of the three depths (R7). -/
def reference : Params := ⟨65536, 65536, 65536⟩

/-- The bounds each depth obeys: "a multiple of 4 with 4 ≤ DEPTH ≤ 65536" (R7). -/
def minDepth : Nat := 4
def maxDepth : Nat := 65536

/-- NSYMS: the size of the alphabet (R7). -/
def nsyms : Nat := 256

/-- MAX_NODES: the NODE slots (R7). -/
def maxNodes : Nat := 511

/-- MAX_LEN: the longest code in bits (R7). -/
def maxLen : Nat := 255

/-- The constant of the register ID (R16). -/
def idValue : Word := 0x48554646#32

/-- The constant of the register VERSION (R17). -/
def versionValue : Word := 0x00000001#32

/-! The `any` values (R10). Each is a constant without a body: nothing can be proved of its values, so a claim
holds for every draw (log 4). The first argument is the draw, the second the index inside the memory. -/

/-- Byte of IN that nothing has written since the draw (R142). -/
opaque freeIn : Nat → Nat → Byte

/-- Byte of PAY that nothing has written since the draw (R142, R110). -/
opaque freePay : Nat → Nat → Byte

/-- Byte of OUT that nothing has written since the draw (R142, R120). -/
opaque freeOut : Nat → Nat → Byte

/-- The five fields of a NODE entry that is not valid (R38, R57). -/
opaque freeNodeIsLeaf : Nat → Nat → Bool
opaque freeNodeSym    : Nat → Nat → Byte
opaque freeNodeWeight : Nat → Nat → Weight
opaque freeNodeLeft   : Nat → Nat → NodeIdx
opaque freeNodeRight  : Nat → Nat → NodeIdx

end Config
end Sys2Proof
end

