-- ==== Sys2Proof/Syntax.lean ====
section
/-! DEFINITION. The instructions of HUFF: its command words (30_encoding.md R67 to R69). -/

namespace Sys2Proof

/-- One constructor per row of the opcode map (R69). No command has an operand field (R67, R68). -/
inductive Instr
  /-- R84 -/
  | nop
  /-- R87 -/
  | count
  /-- R95 -/
  | build
  /-- R101 -/
  | gencodes
  /-- R108 -/
  | encode
  /-- R115 -/
  | validate
  /-- R119 -/
  | decode
deriving DecidableEq, Repr

/-- The OPCODE field of each command (R69). -/
def Instr.opcode : Instr → Byte
  | .nop      => 0x00#8
  | .count    => 0x01#8
  | .build    => 0x02#8
  | .gencodes => 0x03#8
  | .encode   => 0x04#8
  | .validate => 0x05#8
  | .decode   => 0x06#8

end Sys2Proof
end

