-- ==== Sys2Proof/WellFormed.lean ====
section
/-! DEFINITION. What the spec requires of an instruction and of the depth parameters (00_scope.md R7). The checks
on a command WORD are the decoder's (Decode.lean). -/

namespace Sys2Proof

/-- An instruction is well formed when its opcode is in the map. An instruction has no operand, so this is all
there is to check, and every constructor passes. -/
def Instr.wf (i : Instr) : Bool := i.opcode ≤ 0x06#8

/-- One depth: "a multiple of 4 with 4 ≤ DEPTH ≤ 65536" (R7). -/
def Params.depthOk (d : Nat) : Bool := d % 4 == 0 && Config.minDepth ≤ d && d ≤ Config.maxDepth

/-- Legal parameters (R7). -/
def Params.wf (p : Params) : Bool :=
  Params.depthOk p.inDepth && Params.depthOk p.payDepth && Params.depthOk p.outDepth

end Sys2Proof
end

