-- ==== Sys2Proof/Decode.lean ====
section
/-! DEFINITION. The decoder of command words (30_encoding.md R70), total on every 32-bit word and rejecting by
name, and after it the encoder (R69). -/

namespace Sys2Proof

/-- The OPCODE field of a command word (R67). -/
def commandOpcode (w : Word) : Byte := w.extractLsb' 0 8

/-- The RSVD field of a command word (R67). -/
def commandRsvd (w : Word) : BitVec 24 := w.extractLsb' 8 24

/-- Why a word is no command (R70, R71). -/
inductive DecodeError
  /-- RSVD is not 0 (R70, first line). -/
  | reservedBits
  /-- OPCODE is in the reserved range 0x07 to 0xFF (R70, last line). -/
  | reservedOpcode
deriving DecidableEq, Repr

/-- The row of the opcode map with this OPCODE (R69). -/
def opcodeRow (op : Byte) : Option Instr :=
  if op = 0x00#8 then some .nop
  else if op = 0x01#8 then some .count
  else if op = 0x02#8 then some .build
  else if op = 0x03#8 then some .gencodes
  else if op = 0x04#8 then some .encode
  else if op = 0x05#8 then some .validate
  else if op = 0x06#8 then some .decode
  else none

/-- Decoding a command word, in the order of R70. -/
def decodeWord (w : Word) : Except DecodeError Instr :=
  if commandRsvd w ≠ 0#24 then .error .reservedBits
  else match opcodeRow (commandOpcode w) with
    | some i => .ok i
    | none   => .error .reservedOpcode

/-- The command word of an instruction: RSVD = 0, then OPCODE (R67, R69). -/
def encode (i : Instr) : Word := 0#24 ++ i.opcode

/-- The host's question: the instruction the decoder reads from a word of `nbits` bits numbered as the opcode
table numbers them. A command is ONE 32-bit word (R72), so bits above `nbits` are 0 and a number that does not
fit in 32 bits is no command word. -/
def decodeTableWord (nbits w : Nat) : Option Instr :=
  let v := w % 2 ^ nbits
  if v < 2 ^ 32 then
    match decodeWord (BitVec.ofNat 32 v) with
    | .ok i    => some i
    | .error _ => none
  else none

end Sys2Proof
end

