-- ==== Sys2Proof/Machine/State.lean ====
section
/-! DEFINITION. The state of HUFF: everything 10_state.md gives the machine, and the moves the host and the engine
are to make (00_scope.md R6, R13). -/

namespace Sys2Proof.Machine

/-- One NODE entry (R37). -/
structure Node where
  isLeaf : Bool
  sym    : Byte
  weight : Weight
  left   : NodeIdx
  right  : NodeIdx
deriving DecidableEq, Repr

/-- One CTAB entry (R39). CODE[0], the first bit of the code, is the MOST significant bit of `code`, so
CODE[i] is `code.getMsbD i`. -/
structure CodeEntry where
  len  : BitVec 8
  code : BitVec 255
deriving DecidableEq, Repr

/-- The FREQ memory (R36). -/
abbrev FreqTable := Vector Word 256

/-- The CTAB memory (R39). -/
abbrev CodeTable := Vector CodeEntry 256

/-- One byte buffer (R40 to R42): the bytes written since its last draw, by index, and the number of that draw.
Canonical form: indices strictly rising (Ops.lean, `Memory.wf`). An index not listed holds no byte of its own: it
reads as the free value of the draw, which is no listed byte (log 5). -/
structure Memory where
  cells : List Host.Cell
  draw  : Nat
deriving DecidableEq, Repr

/-- The engine phase (R43). BUSY holds the pending command word. -/
inductive Phase
  | init
  | idle
  | busy (pending : Word)
deriving DecidableEq, Repr

/-- A host bus transaction (R47). There is no other width and no other kind. -/
inductive Txn
  | read  (addr : BusAddr)
  | write (addr : BusAddr) (v : Word)
deriving DecidableEq, Repr

/-- A move: of the host (one transaction, R47), of the engine (one atomic event, R62), or the reset pin (R143). -/
inductive Event
  | bus (t : Txn)
  | engine
  | reset
deriving DecidableEq, Repr

/-- The two responses (R47). -/
inductive RespCode
  | ok
  | err
deriving DecidableEq, Repr

/-- What a transaction gives back: a read carries a data word (0 with ERR, R49), a write only the code. -/
inductive Resp
  | read  (code : RespCode) (data : Word)
  | write (code : RespCode)
deriving DecidableEq, Repr

/-- The command errors (R125); their codes stand in Flags.lean. -/
inductive CmdError
  | emptyInput
  | missingCode
  | corruptArtifact
  | invalidCodeTable
  | decodeFailure
  | capacityExceeded
  | illegalCommand
  | sequenceError
deriving DecidableEq, Repr

/-- `raise <Error>(info)` (R10): the error and the value ERR_INFO gets. -/
structure Raised where
  error : CmdError
  info  : Word
deriving DecidableEq, Repr

/-- The whole state (R13). -/
structure State where
  /-- the depths the block was built with: parameters, changed by no step (R7, R32) -/
  params    : Params
  /-- R43 -/
  phase     : Phase
  /-- STATUS.DONE (R19) -/
  done      : Bool
  /-- STATUS.ERRCODE (R19) -/
  errCode   : BitVec 4
  /-- STATUS.LAST_OP (R19, R23) -/
  lastOp    : Byte
  /-- R24 -/
  inLen     : Word
  /-- R25 -/
  bitLen    : Word
  /-- R26 -/
  payBytes  : Word
  /-- R27 -/
  outLen    : Word
  /-- R28 -/
  nsym      : NodeIdx
  /-- R29 -/
  root      : NodeIdx
  /-- R30 -/
  nodeCount : NodeIdx
  /-- R31 -/
  errInfo   : Word
  /-- INT_EN.DONE_IE (R33) -/
  doneIe    : Bool
  /-- INT_STAT.DONE_IP (R34) -/
  doneIp    : Bool
  /-- R36 -/
  freq      : FreqTable
  /-- R37: the entries written so far, entry n at position n (log 8) -/
  node      : List Node
  /-- R39 -/
  ctab      : CodeTable
  /-- IN (R40) -/
  inBuf     : Memory
  /-- PAY (R41) -/
  payBuf    : Memory
  /-- OUT (R42) -/
  outBuf    : Memory
  /-- the MODEL's counter of `any` draws (R10, R13; log 4) -/
  draws     : Nat
  /-- the MODEL's list of coming moves, the next first (R6, R62; log 1) -/
  events    : List Event
  /-- the response of the last transaction, on the bus port (R47; log 12) -/
  resp      : Option Resp
deriving DecidableEq, Repr

/-- Why the machine stops. Nothing in the spec stops HUFF; the one reason is the model's own. -/
inductive Fault
  /-- Raised by GENCODES when a path of the tree in NODE is longer than 255 edges, so that the walk of R101 would
  leave its bound |p| ≤ 255. SAFE: no run reaches such a state, since only BUILD writes NODE and its tree is well
  formed (R97 (f), R101); log 7. -/
  | malformedTree
deriving DecidableEq, Repr

/-- Why a step has no meaning. -/
inductive Refusal
  /-- An instruction without a meaning, rejected by name in Dispatch.lean. No arm of this model answers it. SAFE. -/
  | notModelled (mnemonic : String)
deriving DecidableEq, Repr

/-- The machine built with the depths `p`, right after reset: R140, with phase INIT running. FREQ and CTAB hold 0
here and no access can see them before INIT sets them (log 6); IN, PAY, OUT and NODE are `any` (R142). -/
def State.powerOn (p : Params) : State where
  params    := p
  phase     := .init
  done      := false
  errCode   := 0#4
  lastOp    := 0#8
  inLen     := 0#32
  bitLen    := 0#32
  payBytes  := 0#32
  outLen    := 0#32
  nsym      := 0#9
  root      := 0#9
  nodeCount := 0#9
  errInfo   := 0#32
  doneIe    := false
  doneIp    := false
  freq      := Vector.replicate 256 0#32
  node      := []
  ctab      := Vector.replicate 256 ⟨0#8, 0#255⟩
  inBuf     := ⟨[], 0⟩
  payBuf    := ⟨[], 0⟩
  outBuf    := ⟨[], 0⟩
  draws     := 1
  events    := []
  resp      := none

/-- The machine right after reset, with the reference depths of R7 (log 3). -/
def State.reset : State := State.powerOn Config.reference

end Sys2Proof.Machine
end

