-- ==== Sys2Proof/Machine/Flags.lean ====
section
/-! DEFINITION. The status flags, the error codes and the interrupt line: everything computed from the state that
the host sees as bits of STATUS, INT_EN and INT_STAT (10_state.md R19, 60_exceptions.md R125, R127, R132). -/

namespace Sys2Proof.Machine

/-- The ERRCODE of each error (R125). -/
def CmdError.code : CmdError → BitVec 4
  | .emptyInput       => 1#4
  | .missingCode      => 2#4
  | .corruptArtifact  => 3#4
  | .invalidCodeTable => 4#4
  | .decodeFailure    => 5#4
  | .capacityExceeded => 6#4
  | .illegalCommand   => 7#4
  | .sequenceError    => 8#4

/-- "(e = none) ? 0 : code(e)" (R80). -/
def errCodeOf (e : Option Raised) : BitVec 4 :=
  match e with
  | none   => 0#4
  | some r => r.error.code

/-- "(e = none) ? 0 : info(e)" (R80). -/
def errInfoOf (e : Option Raised) : Word :=
  match e with
  | none   => 0#32
  | some r => r.info

/-- STATUS.BUSY: "1 while the engine is in phase INIT or BUSY, 0 in phase IDLE" (R19). -/
def Phase.isBusy : Phase → Bool
  | .init   => true
  | .idle   => false
  | .busy _ => true

/-- STATUS.BUSY of a state (R19). -/
def State.busyBit (s : State) : Bool := s.phase.isBusy

/-- STATUS.ERR: "1 exactly when ERRCODE ≠ 0" (R19). -/
def State.errBit (s : State) : Bool := s.errCode != 0#4

/-- The whole STATUS word: [23:16] LAST_OP, [11:8] ERRCODE, [2] ERR, [1] DONE, [0] BUSY, the rest 0 (R15, R19). -/
def State.statusWord (s : State) : Word :=
  0#8 ++ s.lastOp ++ 0#4 ++ s.errCode ++ 0#5 ++ BitVec.ofBool s.errBit ++ BitVec.ofBool s.done
    ++ BitVec.ofBool s.busyBit

/-- The whole INT_EN word: [0] DONE_IE, the rest 0 (R15, R33). -/
def State.intEnWord (s : State) : Word := 0#31 ++ BitVec.ofBool s.doneIe

/-- The whole INT_STAT word: [0] DONE_IP, the rest 0 (R15, R34). -/
def State.intStatWord (s : State) : Word := 0#31 ++ BitVec.ofBool s.doneIp

/-- The output pin: "irq = INT_EN.DONE_IE AND INT_STAT.DONE_IP" (R132). -/
def State.irq (s : State) : Bool := s.doneIe && s.doneIp

/-- ERR_INFO of an error at a symbol: [15:0] the input index, [23:16] the symbol (R109, R127). -/
def symbolInfo (sym : Byte) (i : Nat) : Word := (sym.setWidth 32 <<< 16) ||| BitVec.ofNat 32 i

/-- ERR_INFO of InvalidCodeTable: [7:0] s, [15:8] t of the first pair (R115, R127). -/
def pairInfo (s t : Byte) : Word := 0#16 ++ t ++ s

end Sys2Proof.Machine
end

