-- ==== Sys2Proof/Machine/Ops.lean ====
section
/-! DEFINITION. The shared operations over the memories and the command lifecycle: byte buffers, tables of 256
entries, the bits of a code, acceptance (R78), completion with or without an error (R80 to R82), the end of INIT
(R141) and reset (R140 to R143). Taking an error IS completion here: "HUFF takes no traps" (R134). -/

namespace Sys2Proof.Machine

/-! ## Bits -/

/-- The bit vector of width `n` whose bit `i`, counted from the MOST significant, is `f i`. -/
def msbFirst : (n : Nat) → (Nat → Bool) → BitVec n
  | 0, _     => 0#0
  | n + 1, f => BitVec.concat (msbFirst n f) (f n)

/-- ceil(a/b) of R8, for the one divisor the spec uses. -/
def ceilDiv8 (n : Nat) : Nat := (n + 7) / 8

/-! ## Byte buffers -/

/-- The byte listed at an index. -/
def cellsGet : List Host.Cell → Nat → Option Byte
  | [], _ => none
  | (k, v) :: rest, a => if k = a then some v else cellsGet rest a

/-- Store a byte, keeping the indices strictly rising. -/
def cellsSet : List Host.Cell → Nat → Byte → List Host.Cell
  | [], a, v => [(a, v)]
  | (k, w) :: rest, a, v =>
    if a < k then (a, v) :: (k, w) :: rest
    else if a = k then (a, v) :: rest
    else (k, w) :: cellsSet rest a v

/-- Every index is at least `lo`, and the indices rise strictly. -/
def cellsRiseFrom : Nat → List Host.Cell → Bool
  | _, [] => true
  | lo, (k, _) :: rest => lo ≤ k && cellsRiseFrom (k + 1) rest

/-- The canonical form (log 5): indices strictly rising. An index not listed has no byte of its own, so no entry
can equal what it holds, and two buffers in this form that list the same bytes are the same data. -/
def Memory.wf (m : Memory) : Bool := cellsRiseFrom 0 m.cells

/-- Every listed index is inside a buffer of this depth. -/
def Memory.within (m : Memory) (depth : Nat) : Bool := m.cells.all fun c => c.1 < depth

/-- The byte written at an index since the draw, if any. -/
def Memory.get? (m : Memory) (i : Nat) : Option Byte := cellsGet m.cells i

/-- One byte stored. -/
def Memory.write (m : Memory) (i : Nat) (v : Byte) : Memory := { m with cells := cellsSet m.cells i v }

/-- Consecutive bytes stored from an index on. -/
def Memory.writeBytes (m : Memory) (i : Nat) : List Byte → Memory
  | []      => m
  | b :: bs => Memory.writeBytes (m.write i b) (i + 1) bs

/-- Every byte becomes `any` (R10): nothing is listed and a new draw begins. -/
def Memory.drawn (draw : Nat) : Memory := ⟨[], draw⟩

/-! ## Tables of 256 entries, indexed by a symbol -/

/-- The 256 symbols in ascending order ("for s in 0..255 ascending", R95). -/
def allSymbols : List Byte := (List.range 256).map (BitVec.ofNat 8)

/-- The entry of a symbol. -/
def tableGet {α : Type} (t : Vector α 256) (s : Byte) : α := t[s.toNat]'s.isLt

/-- The table with one entry replaced. -/
def tableSet {α : Type} (t : Vector α 256) (s : Byte) (a : α) : Vector α 256 := t.set s.toNat a s.isLt

/-- The table whose every entry is the same. -/
def tableOf {α : Type} (a : α) : Vector α 256 := Vector.replicate 256 a

/-- The entries with their symbols, in ascending order. -/
def tableRows {α : Type} (t : Vector α 256) : List (Byte × α) := allSymbols.zip t.toList

/-! ## Codes -/

/-- CODE[i] (R39): bit i counted from the first, most significant. There is no bit 255 or above. -/
def CodeEntry.bit (e : CodeEntry) (i : Nat) : Bool := e.code.getMsbD i

/-- The code: CODE[0] to CODE[LEN-1] (R39). -/
def CodeEntry.bits (e : CodeEntry) : Bits := (List.range e.len.toNat).map e.bit

/-- The entry {LEN = 0, CODE = all zero} (R101, R141). -/
def CodeEntry.absent : CodeEntry := ⟨0#8, 0#255⟩

/-- The entry {LEN = |p|, CODE[i] = p[i] for i < |p|, CODE[i] = 0 for i ≥ |p|} (R101). -/
def CodeEntry.ofBits (p : Bits) : CodeEntry :=
  ⟨BitVec.ofNat 8 p.length, msbFirst 255 fun i => p.getD i false⟩

/-! ## The command lifecycle -/

/-- One state-changing event has passed: the next `any` value is a new draw (log 4). -/
def State.nextDraw (s : State) : State := { s with draws := s.draws + 1 }

/-- Acceptance of the command word `w` (R78). BUSY and ERR follow from the phase and ERRCODE (R19). -/
def State.accept (s : State) (w : Word) : State :=
  { s with phase := .busy w, done := false, errCode := 0#4, draws := s.draws + 1 }

/-- Completion (R80) of the command whose OPCODE field is `op`, after its writes have been applied to `s`, without
an error (R81) or with one (R82, R126). -/
def State.complete (s : State) (op : Byte) (e : Option Raised) : State :=
  { s with
    phase   := .idle
    done    := true
    errCode := errCodeOf e
    lastOp  := op
    errInfo := errInfoOf e
    doneIp  := true
    draws   := s.draws + 1 }

/-- The end of INIT (R141): FREQ and CTAB are cleared, the phase is IDLE; DONE stays 0 and DONE_IP is not set. -/
def State.finishInit (s : State) : State :=
  { s with
    freq  := tableOf 0#32
    ctab  := tableOf CodeEntry.absent
    phase := .idle
    draws := s.draws + 1 }

/-- Reset takes effect (R140, R142, R143): the registers get their reset values, a command in progress is
abandoned, and IN, PAY, OUT become `any`; NODE is `any` because NODE_COUNT = 0. FREQ and CTAB wait for INIT. -/
def State.applyReset (s : State) : State :=
  { s with
    phase     := .init
    done      := false
    errCode   := 0#4
    lastOp    := 0#8
    inLen     := 0#32
    bitLen    := 0#32
    payBytes  := 0#32
    outLen    := 0#32
    nsym      := 0#9
    root      := 0#9
    nodeCount := 0#9
    errInfo   := 0#32
    doneIe    := false
    doneIp    := false
    node      := []
    inBuf     := Memory.drawn s.draws
    payBuf    := Memory.drawn s.draws
    outBuf    := Memory.drawn s.draws
    draws     := s.draws + 1
    resp      := none }

end Sys2Proof.Machine
end

