-- ==== Sys2Proof/Machine/Operands.lean ====
section
/-! DEFINITION. The operands of the commands (30_encoding.md R68): every command takes them from fixed registers
and memories, by index (20_memory.md R45). An index that holds no value of its own reads as a free value (R10). -/

namespace Sys2Proof.Machine

/-- IN[i] (R40). -/
def State.inByte (s : State) (i : Nat) : Byte := (s.inBuf.get? i).getD (Config.freeIn s.inBuf.draw i)

/-- PAY[i] (R41). -/
def State.payByte (s : State) (i : Nat) : Byte := (s.payBuf.get? i).getD (Config.freePay s.payBuf.draw i)

/-- OUT[i] (R42). -/
def State.outByte (s : State) (i : Nat) : Byte := (s.outBuf.get? i).getD (Config.freeOut s.outBuf.draw i)

/-- The symbols COUNT and ENCODE read: IN[0 .. IN_LEN-1] (R24, R87, R108). -/
def State.inSymbols (s : State) : List Byte := (List.range s.inLen.toNat).map s.inByte

/-- FREQ[x] (R36). -/
def State.freqOf (s : State) (x : Byte) : Word := tableGet s.freq x

/-- CTAB[x] (R39). -/
def State.codeOf (s : State) (x : Byte) : CodeEntry := tableGet s.ctab x

/-- The free value an invalid entry reads as: `any` in every field (R38, R57, log 4). -/
def freeNode (draw n : Nat) : Node :=
  ⟨Config.freeNodeIsLeaf draw n, Config.freeNodeSym draw n, Config.freeNodeWeight draw n,
   Config.freeNodeLeft draw n, Config.freeNodeRight draw n⟩

/-- NODE[n] (R37, R38): the stored entry when n < NODE_COUNT, else `any`. -/
def State.nodeAt (s : State) (n : Nat) : Node :=
  if n < s.nodeCount.toNat then (s.node[n]?).getD (freeNode s.draws n) else freeNode s.draws n

/-- Bit p of the payload stream: PAY[p div 8] bit (7 - (p mod 8)) (R117). -/
def State.payBit (s : State) (p : Nat) : Bool := (s.payByte (p / 8)).getMsbD (p % 8)

/-- The payload stream that DECODE reads: its first BITLEN bits (R117). -/
def State.payBits (s : State) : Bits := (List.range s.bitLen.toNat).map s.payBit

end Sys2Proof.Machine
end

