-- ==== Sys2Proof/Machine/Bus.lean ====
section
/-! DEFINITION. The host bus (20_memory.md R45 to R61): the address map, the access rights, the busy-phase
restrictions, the layouts of the windows, and one transaction. -/

namespace Sys2Proof.Machine

/-- The 17 registers (R15). -/
inductive RegName
  | id | version | cmd | status | inLen | bitLen | payBytes | outLen | nsym | root | nodeCount | errInfo
  | intEn | intStat | inDepth | payDepth | outDepth
deriving DecidableEq, Repr

/-- The register offsets (R15). An offset that is no row is unmapped (R50). -/
def regMap : List (Nat × RegName) :=
  [(0x000, .id), (0x004, .version), (0x008, .cmd), (0x00C, .status), (0x010, .inLen), (0x014, .bitLen),
   (0x018, .payBytes), (0x01C, .outLen), (0x020, .nsym), (0x024, .root), (0x028, .nodeCount), (0x02C, .errInfo),
   (0x030, .intEn), (0x034, .intStat), (0x040, .inDepth), (0x044, .payDepth), (0x048, .outDepth)]

/-- The register at an offset of REGS. -/
def regAt (off : Nat) : Option RegName := (regMap.find? fun r => r.1 == off).map (·.2)

/-- What a mapped address names (R46, R55 to R58). `w` is the word of an entry, `o` a window offset. -/
inductive Loc
  | reg  (r : RegName)
  | freq (s : Byte)
  | node (n : Nat) (w : Nat)
  | ctab (s : Byte) (w : Nat)
  | inWord  (o : Nat)
  | payWord (o : Nat)
  | outWord (o : Nat)
deriving DecidableEq, Repr

/-- The causes of an ERR response (R130). -/
inductive BusCause
  | misaligned
  | unmapped
  | readOnly
  | busy
deriving DecidableEq, Repr

/-- A word of a byte buffer is mapped when o + 3 < DEPTH (R55). -/
def bufferLoc (o depth : Nat) (l : Nat → Loc) : Except BusCause Loc :=
  if o + 3 < depth then .ok (l o) else .error .unmapped

/-- The address map (R46) with the alignment rule (R48) and the unmapped addresses (R50). -/
def locate (p : Params) (addr : BusAddr) : Except BusCause Loc :=
  let a := addr.toNat
  if a % 4 ≠ 0 then .error .misaligned
  else if a < 0x01000 then
    match regAt a with
    | some r => .ok (.reg r)
    | none   => .error .unmapped
  else if a < 0x01400 then .ok (.freq (BitVec.ofNat 8 ((a - 0x01000) / 4)))
  else if a < 0x04000 then .error .unmapped
  else if a < 0x05FF0 then .ok (.node ((a - 0x04000) / 16) ((a - 0x04000) % 16 / 4))
  else if a < 0x08000 then .error .unmapped
  else if a < 0x0C000 then
    let w := (a - 0x08000) % 64 / 4
    if w ≤ 8 then .ok (.ctab (BitVec.ofNat 8 ((a - 0x08000) / 64)) w) else .error .unmapped
  else if a < 0x10000 then .error .unmapped
  else if a < 0x20000 then bufferLoc (a - 0x10000) p.inDepth .inWord
  else if a < 0x30000 then bufferLoc (a - 0x20000) p.payDepth .payWord
  else if a < 0x40000 then bufferLoc (a - 0x30000) p.outDepth .outWord
  else .error .unmapped

/-! ## The layouts -/

/-- The word of four bytes, byte [o] in bits 7:0 (R54). -/
def wordOfBytes (b₀ b₁ b₂ b₃ : Byte) : Word := b₃ ++ b₂ ++ b₁ ++ b₀

/-- Byte `k` of a word in the order of R54. -/
def byteOfWord (v : Word) (k : Nat) : Byte := v.extractLsb' (8 * k) 8

/-- Word `w` of a NODE entry (R57). -/
def Node.word (d : Node) (w : Nat) : Word :=
  if w = 0 then d.weight.extractLsb' 0 32
  else if w = 1 then 0#24 ++ d.weight.extractLsb' 32 8
  else if w = 2 then BitVec.ofBool d.isLeaf ++ 0#23 ++ d.sym
  else 0#7 ++ d.right ++ 0#7 ++ d.left

/-- Word `w` of a CTAB entry (R58): LEN, or CODE[32(w-1) + m] in bit (31 - m). -/
def CodeEntry.word (e : CodeEntry) (w : Nat) : Word :=
  if w = 0 then 0#24 ++ e.len else msbFirst 32 fun m => e.bit (32 * (w - 1) + m)

/-- A CTAB entry with word `w` written (R58); reserved bits are ignored (R53). -/
def CodeEntry.setWord (e : CodeEntry) (w : Nat) (v : Word) : CodeEntry :=
  if w = 0 then { e with len := v.extractLsb' 0 8 }
  else { e with code := msbFirst 255 fun i => if i / 32 = w - 1 then v.getMsbD (i % 32) else e.bit i }

/-! ## Reads -/

/-- The value a register reads as (R15 to R34; CMD reads 0, R51). -/
def State.readReg (s : State) : RegName → Word
  | .id        => Config.idValue
  | .version   => Config.versionValue
  | .cmd       => 0#32
  | .status    => s.statusWord
  | .inLen     => s.inLen
  | .bitLen    => s.bitLen
  | .payBytes  => s.payBytes
  | .outLen    => s.outLen
  | .nsym      => s.nsym.setWidth 32
  | .root      => s.root.setWidth 32
  | .nodeCount => s.nodeCount.setWidth 32
  | .errInfo   => s.errInfo
  | .intEn     => s.intEnWord
  | .intStat   => s.intStatWord
  | .inDepth   => BitVec.ofNat 32 s.params.inDepth
  | .payDepth  => BitVec.ofNat 32 s.params.payDepth
  | .outDepth  => BitVec.ofNat 32 s.params.outDepth

/-- A window access needs phase IDLE (R52). -/
def State.whenIdle {α : Type} (s : State) (a : Except BusCause α) : Except BusCause α :=
  if s.busyBit then .error .busy else a

/-- The word at a location: registers in every phase, windows only while IDLE (R52). -/
def State.readLoc (s : State) : Loc → Except BusCause Word
  | .reg r     => .ok (s.readReg r)
  | .freq x    => s.whenIdle (.ok (s.freqOf x))
  | .node n w  => s.whenIdle (.ok ((s.nodeAt n).word w))
  | .ctab x w  => s.whenIdle (.ok ((s.codeOf x).word w))
  | .inWord o  => s.whenIdle (.ok (wordOfBytes (s.inByte o) (s.inByte (o + 1)) (s.inByte (o + 2)) (s.inByte (o + 3))))
  | .payWord o => s.whenIdle (.ok (wordOfBytes (s.payByte o) (s.payByte (o + 1)) (s.payByte (o + 2)) (s.payByte (o + 3))))
  | .outWord o => s.whenIdle (.ok (wordOfBytes (s.outByte o) (s.outByte (o + 1)) (s.outByte (o + 2)) (s.outByte (o + 3))))

/-! ## Writes -/

/-- Four bytes stored in the order of R54. -/
def Memory.writeWord (m : Memory) (o : Nat) (v : Word) : Memory :=
  m.writeBytes o [byteOfWord v 0, byteOfWord v 1, byteOfWord v 2, byteOfWord v 3]

/-- A write to INT_STAT: "bit 0 = 1 clears it, bit 0 = 0 leaves it unchanged" (R34). -/
def State.clearDoneIp (s : State) (v : Word) : State :=
  if v.getLsbD 0 then { s with doneIp := false } else s

/-- A register write (R15, R51, R52): CMD starts a command (R78); the RW registers store their defined bits. -/
def State.writeReg (s : State) (v : Word) : RegName → Except BusCause State
  | .cmd      => s.whenIdle (.ok (s.accept v))
  | .inLen    => s.whenIdle (.ok { s with inLen := v }.nextDraw)
  | .bitLen   => s.whenIdle (.ok { s with bitLen := v }.nextDraw)
  | .payBytes => s.whenIdle (.ok { s with payBytes := v }.nextDraw)
  | .intEn    => .ok { s with doneIe := v.getLsbD 0 }.nextDraw
  | .intStat  => .ok (s.clearDoneIp v).nextDraw
  | .id        => .error .readOnly
  | .version   => .error .readOnly
  | .status    => .error .readOnly
  | .outLen    => .error .readOnly
  | .nsym      => .error .readOnly
  | .root      => .error .readOnly
  | .nodeCount => .error .readOnly
  | .errInfo   => .error .readOnly
  | .inDepth   => .error .readOnly
  | .payDepth  => .error .readOnly
  | .outDepth  => .error .readOnly

/-- A write to a location (R51 to R59). -/
def State.writeLoc (s : State) (v : Word) : Loc → Except BusCause State
  | .reg r     => s.writeReg v r
  | .freq x    => s.whenIdle (.ok { s with freq := tableSet s.freq x v }.nextDraw)
  | .node _ _  => .error .readOnly
  | .ctab x w  => s.whenIdle (.ok { s with ctab := tableSet s.ctab x ((s.codeOf x).setWord w v) }.nextDraw)
  | .inWord o  => s.whenIdle (.ok { s with inBuf := s.inBuf.writeWord o v }.nextDraw)
  | .payWord o => s.whenIdle (.ok { s with payBuf := s.payBuf.writeWord o v }.nextDraw)
  | .outWord _ => .error .readOnly

/-! ## One transaction -/

/-- MemRead(addr, 4) (R47): the word, or the cause of the ERR response. -/
def State.busRead (s : State) (addr : BusAddr) : Except BusCause Word :=
  match locate s.params addr with
  | .error c => .error c
  | .ok l    => s.readLoc l

/-- MemWrite(addr, 4, v) (R47): the new state, or the cause of the ERR response. -/
def State.busWrite (s : State) (addr : BusAddr) (v : Word) : Except BusCause State :=
  match locate s.params addr with
  | .error c => .error c
  | .ok l    => s.writeLoc v l

/-- One transaction: its response, and the state after it. An ERR response changes nothing, and a read with ERR
gives the data word 0 (R49). -/
def State.transact (s : State) : Txn → Resp × State
  | .read addr =>
    match s.busRead addr with
    | .ok d    => (.read .ok d, s)
    | .error _ => (.read .err 0#32, s)
  | .write addr v =>
    match s.busWrite addr v with
    | .ok s'   => (.write .ok, s')
    | .error _ => (.write .err, s)

/-- The transaction as a step of the host: the response stands on the bus port. -/
def State.busStep (s : State) (t : Txn) : State :=
  let r := s.transact t
  { r.2 with resp := some r.1 }

end Sys2Proof.Machine
end

