-- ==== Sys2Proof/Machine/CodeTable.lean ====
section
/-! DEFINITION. GENCODES, the code-table generator (43_code_table.md R101 to R104, R106). -/

namespace Sys2Proof.Machine

/-- The walk of R101 from entry `n` with the path `p` from the root. The first argument is how many entries a path
may still hold; it ends (`none`) only on a tree with a path of more than 255 edges, which no run reaches (log 7). -/
def walkTree (s : State) : Nat → Nat → Bits → CodeTable → Option CodeTable
  | 0, _, _, _ => none
  | fuel + 1, n, p, ct =>
    let d := s.nodeAt n
    if d.isLeaf then some (tableSet ct d.sym (CodeEntry.ofBits p))
    else
      match walkTree s fuel d.left.toNat (p ++ [false]) ct with
      | none => none
      | some ct₁ => walkTree s fuel d.right.toNat (p ++ [true]) ct₁

/-- The code of a single-leaf tree: "the code "0"", LEN = 1 (R103). -/
def singleLeafCode : CodeEntry := CodeEntry.ofBits [false]

/-- The fresh table GENCODES writes (R101, R103, R104). -/
def generatedTable (s : State) : Option CodeTable :=
  let fresh : CodeTable := tableOf CodeEntry.absent
  let r := s.nodeAt s.root.toNat
  if r.isLeaf then some (tableSet fresh r.sym singleLeafCode)
  else walkTree s (Config.maxLen + 1) s.root.toNat [] fresh

/-- GENCODES (R101): SequenceError with the opcode as ERR_INFO when there is no tree (R106). -/
def execGencodes (s : State) : Host.Outcome State Fault Refusal :=
  if s.nodeCount = 0#9 then
    .next (s.complete Instr.gencodes.opcode (some ⟨.sequenceError, 0x00000003#32⟩))
  else
    match generatedTable s with
    | some ct => .next ({ s with ctab := ct }.complete Instr.gencodes.opcode none)
    | none    => .fault .malformedTree

end Sys2Proof.Machine
end

