-- ==== Sys2Proof/Machine/Control.lean ====
section
/-! DEFINITION. NOP (40_command_control.md R84) and the completion of an illegal word (R85). -/

namespace Sys2Proof.Machine

/-- NOP: "writes <- none; e <- none" (R84). -/
def execNop (s : State) : Host.Outcome State Fault Refusal :=
  .next (s.complete Instr.nop.opcode none)

/-- An illegal word: IllegalCommand with ERR_INFO = the word, LAST_OP = w[7:0], nothing else (R71, R85). -/
def illegalCompletion (w : Word) (s : State) : State :=
  s.complete (commandOpcode w) (some ⟨.illegalCommand, w⟩)

end Sys2Proof.Machine
end

