-- ==== Sys2Proof/Machine/Decoder.lean ====
section
/-! DEFINITION. VALIDATE and DECODE: the prefix-free check and the bitstream decoder (45_decoder.md R114 to R122). -/

namespace Sys2Proof.Machine

/-- The part of `conflict` (R114) that reads the two entries: both have a code, and the codes agree on their common
length. -/
def CodeEntry.clash (e f : CodeEntry) : Bool :=
  e.len != 0#8 && f.len != 0#8 &&
    (List.range (min e.len.toNat f.len.toNat)).all fun i => e.bit i == f.bit i

/-- The first conflicting pair (s, t), s before t in the rows, s first and then t least (R114). -/
def firstPairOf : List (Byte × CodeEntry) → Option (Byte × Byte)
  | [] => none
  | (s, e) :: rest =>
    match rest.find? fun r => e.clash r.2 with
    | some (t, _) => some (s, t)
    | none        => firstPairOf rest

/-- first_pair of CTAB, or none when the table is prefix-free (R114). -/
def firstPair (ct : CodeTable) : Option (Byte × Byte) := firstPairOf (tableRows ct)

/-- InvalidCodeTable for a pair: ERR_INFO = (t << 8) | s (R115). -/
def invalidTable (p : Byte × Byte) : Raised := ⟨.invalidCodeTable, pairInfo p.1 p.2⟩

/-- VALIDATE (R115). It writes nothing but the completion fields (R116). -/
def execValidate (s : State) : Host.Outcome State Fault Refusal :=
  .next (s.complete Instr.validate.opcode ((firstPair s.ctab).map invalidTable))

/-- "CTAB[s].LEN = |acc| and CTAB[s].CODE[i] = acc[i] for all i < |acc|" (R119). -/
def CodeEntry.matches (e : CodeEntry) (acc : Bits) : Bool :=
  e.len.toNat == acc.length && e.bits == acc

/-- The symbol whose code is the accumulator (R119). The accumulator is never empty when it is asked. -/
def symbolOf (ct : CodeTable) (acc : Bits) : Option Byte :=
  ((tableRows ct).find? fun r => r.2.matches acc).map (·.1)

/-- The loop of R119 over the remaining bits, from stream position `p`: the accumulator is matched after every bit
and the symbol emitted at once; CapacityExceeded when OUT is full (R122), DecodeFailure when the bits end inside a
code (R121). -/
def decodeLoop (ct : CodeTable) (depth : Nat) :
    Nat → Nat → Bits → List Byte → Bits → Except Raised (List Byte)
  | _, start, acc, out, [] =>
    if acc.isEmpty then .ok out else .error ⟨.decodeFailure, BitVec.ofNat 32 start⟩
  | p, start, acc, out, b :: rest =>
    match symbolOf ct (acc ++ [b]) with
    | some x =>
      if out.length = depth then .error ⟨.capacityExceeded, BitVec.ofNat 32 start⟩
      else decodeLoop ct depth (p + 1) (p + 1) [] (out ++ [x]) rest
    | none => decodeLoop ct depth (p + 1) start (acc ++ [b]) out rest

/-- The write of every DECODE error: OUT_LEN becomes 0 (R120). -/
def State.clearOutput (s : State) : State := { s with outLen := 0#32 }

/-- DECODE (R119): the length checks of R118, the prefix-free check of R114, then the loop, with the writes of
R120: after an error in or after the loop every byte of OUT is `any`. -/
def execDecode (s : State) : Host.Outcome State Fault Refusal :=
  if s.payBytes.toNat > s.params.payDepth then
    .next (s.clearOutput.complete Instr.decode.opcode (some ⟨.capacityExceeded, s.payBytes⟩))
  else if s.bitLen.toNat > 8 * s.payBytes.toNat ∨ s.payBytes.toNat ≠ ceilDiv8 s.bitLen.toNat then
    .next (s.clearOutput.complete Instr.decode.opcode (some ⟨.corruptArtifact, s.bitLen⟩))
  else
    match firstPair s.ctab with
    | some pair => .next (s.clearOutput.complete Instr.decode.opcode (some (invalidTable pair)))
    | none =>
      match decodeLoop s.ctab s.params.outDepth 0 0 [] [] s.payBits with
      | .error r =>
        .next ({ s.clearOutput with outBuf := Memory.drawn s.draws }.complete Instr.decode.opcode (some r))
      | .ok out =>
        .next ({ s with
          outBuf := s.outBuf.writeBytes 0 out
          outLen := BitVec.ofNat 32 out.length }.complete Instr.decode.opcode none)

end Sys2Proof.Machine
end

