-- ==== Sys2Proof/Machine/Encoder.lean ====
section
/-! DEFINITION. ENCODE, the bitstream encoder and bit-packer (44_encoder.md R107 to R112). -/

namespace Sys2Proof.Machine

/-- PAY[j] of the packed stream: bit (7 - m) is b[8j + m], or 0 past the end (R107). -/
def packByte (bits : Bits) (j : Nat) : Byte := msbFirst 8 fun m => bits.getD (8 * j + m) false

/-- The packed stream: ceil(nb/8) bytes (R107). -/
def packBits (bits : Bits) : List Byte := (List.range (ceilDiv8 bits.length)).map (packByte bits)

/-- The loop of R108 over the symbols from input index `i` on, with `bits` appended so far and room for `cap` bits:
MissingCode before CapacityExceeded at each symbol (R109, R111, R128). -/
def encodeLoop (ctab : CodeTable) (cap : Nat) : Nat → List Byte → Bits → Except Raised Bits
  | _, [], bits => .ok bits
  | i, x :: rest, bits =>
    let e := tableGet ctab x
    if e.len = 0#8 then .error ⟨.missingCode, symbolInfo x i⟩
    else if bits.length + e.len.toNat > cap then .error ⟨.capacityExceeded, symbolInfo x i⟩
    else encodeLoop ctab cap (i + 1) rest (bits ++ e.bits)

/-- The writes of every ENCODE error: BITLEN and PAY_BYTES become 0 (R110). -/
def State.clearPayload (s : State) : State := { s with bitLen := 0#32, payBytes := 0#32 }

/-- ENCODE (R108), with the writes of R110: after an error inside the loop every byte of PAY is `any`. -/
def execEncode (s : State) : Host.Outcome State Fault Refusal :=
  if s.inLen.toNat > s.params.inDepth then
    .next (s.clearPayload.complete Instr.encode.opcode (some ⟨.capacityExceeded, s.inLen⟩))
  else if s.inLen = 0#32 then
    .next (s.clearPayload.complete Instr.encode.opcode (some ⟨.emptyInput, 0#32⟩))
  else
    match encodeLoop s.ctab (8 * s.params.payDepth) 0 s.inSymbols [] with
    | .error r =>
      .next ({ s.clearPayload with payBuf := Memory.drawn s.draws }.complete Instr.encode.opcode (some r))
    | .ok bits =>
      .next ({ s with
        payBuf   := s.payBuf.writeBytes 0 (packBits bits)
        bitLen   := BitVec.ofNat 32 bits.length
        payBytes := BitVec.ofNat 32 (ceilDiv8 bits.length) }.complete Instr.encode.opcode none)

end Sys2Proof.Machine
end

