-- ==== Sys2Proof/Machine/Frequency.lean ====
section
/-! DEFINITION. COUNT, the frequency counter (41_frequency.md R87). -/

namespace Sys2Proof.Machine

/-- "f[s] <- f[s] + 1" (R87). -/
def countSymbol (f : FreqTable) (x : Byte) : FreqTable := tableSet f x (tableGet f x + 1#32)

/-- The histogram of an input, from a fresh mapping (R87). -/
def histogram (input : List Byte) : FreqTable := input.foldl countSymbol (tableOf 0#32)

/-- COUNT (R87). -/
def execCount (s : State) : Host.Outcome State Fault Refusal :=
  if s.inLen.toNat > s.params.inDepth then
    .next (s.complete Instr.count.opcode (some ⟨.capacityExceeded, s.inLen⟩))
  else
    .next ({ s with freq := histogram s.inSymbols }.complete Instr.count.opcode none)

end Sys2Proof.Machine
end

