-- ==== Sys2Proof/Machine/TreeBuilder.lean ====
section
/-! DEFINITION. The priority queue and BUILD, the tree builder (42_tree_builder.md R90 to R95, R98). -/

namespace Sys2Proof.Machine

/-- An element of the queue with its key (WEIGHT, index) (R90). The queue holds the key beside the index because
an entry's weight never changes once made. -/
structure QueueKey where
  weight : Weight
  index  : Nat
deriving DecidableEq, Repr

/-- Keys are ordered "weight first, then index" (R90, R94). -/
def QueueKey.before (a b : QueueKey) : Bool :=
  a.weight.toNat < b.weight.toNat || (a.weight.toNat == b.weight.toNat && a.index < b.index)

/-- The queue: a finite set of keys (R90). -/
abbrev Queue := List QueueKey

/-- push (R91). -/
def Queue.push (q : Queue) (k : QueueKey) : Queue := q ++ [k]

/-- The lesser of two keys. -/
def QueueKey.least (a b : QueueKey) : QueueKey := if QueueKey.before b a then b else a

/-- pop (R92): the least key and the queue without it; `none` only on the empty queue, which BUILD never pops. -/
def Queue.pop (q : Queue) : Option (QueueKey × Queue) :=
  match q with
  | []      => none
  | k :: ks => let m := ks.foldl QueueKey.least k
               some (m, (k :: ks).erase m)

/-- size (R93). -/
def Queue.size (q : Queue) : Nat := q.length

/-- "for s in 0..255 ascending: if FREQ[s] ≠ 0" one leaf (R95). -/
def leavesOf (f : FreqTable) : List Node :=
  ((tableRows f).filter fun r => r.2 != 0#32).map fun r =>
    { isLeaf := true, sym := r.1, weight := r.2.setWidth 40, left := 0#9, right := 0#9 }

/-- "for n in 0..k-1: push(n)" (R95). -/
def leafQueue (leaves : List Node) : Queue := leaves.mapIdx fun n d => ⟨d.weight, n⟩

/-- The merged node: "left = first popped, right = second popped", "weight is their sum" (R95). -/
def mergedNode (a b : QueueKey) : Node :=
  { isLeaf := false, sym := 0#8, weight := a.weight + b.weight,
    left := BitVec.ofNat 9 a.index, right := BitVec.ofNat 9 b.index }

/-- "while size() ≥ 2" (R95): pop two, append the merged node at index `next`, push it. The first argument bounds
the merges; k leaves need k - 1 (R97 (a)). -/
def mergeAll : Nat → List Node → Queue → List Node × Queue
  | 0, nodes, q => (nodes, q)
  | fuel + 1, nodes, q =>
    if Queue.size q ≥ 2 then
      match Queue.pop q with
      | none => (nodes, q)
      | some (a, q₁) =>
        match Queue.pop q₁ with
        | none => (nodes, q)
        | some (b, q₂) =>
          mergeAll fuel (nodes ++ [mergedNode a b])
            (Queue.push q₂ ⟨a.weight + b.weight, nodes.length⟩)
    else (nodes, q)

/-- BUILD's working copy of NODE and its last pop, the root (R95). -/
def buildTree (leaves : List Node) : List Node × Nat :=
  let (nodes, q) := mergeAll leaves.length leaves (leafQueue leaves)
  match Queue.pop q with
  | some (r, _) => (nodes, r.index)
  | none        => (nodes, 0)

/-- BUILD (R95): with no leaf the tree is invalidated and EmptyInput raised (R98). Entries at and above the new
tree are not written. -/
def execBuild (s : State) : Host.Outcome State Fault Refusal :=
  let leaves := leavesOf s.freq
  let k := leaves.length
  if k = 0 then
    .next ({ s with nodeCount := 0#9, root := 0#9, nsym := 0#9 }.complete Instr.build.opcode
      (some ⟨.emptyInput, 0#32⟩))
  else
    let t := buildTree leaves
    .next ({ s with
      node      := t.1 ++ s.node.drop t.1.length
      nsym      := BitVec.ofNat 9 k
      root      := BitVec.ofNat 9 t.2
      nodeCount := BitVec.ofNat 9 (2 * k - 1) }.complete Instr.build.opcode none)

end Sys2Proof.Machine
end

