-- ==== Sys2Proof/Machine/Engine.lean ====
section
/-! DEFINITION. The engine's one atomic event in each phase (20_memory.md R62, 40_command_control.md R80). -/

namespace Sys2Proof.Machine

/-- Completion of the pending word: the command it decodes to, or IllegalCommand (R70, R80, R85). -/
def completePending (w : Word) (s : State) : Host.Outcome State Fault Refusal :=
  match decodeWord w with
  | .ok i    => exec i s
  | .error _ => .next (illegalCompletion w s)

/-- The engine's event: INIT ends (R141), the command completes (R80), or nothing is in progress and "every register
keeps its value while idle" (R137). -/
def engineStep (s : State) : Host.Outcome State Fault Refusal :=
  match s.phase with
  | .init   => .next s.finishInit
  | .idle   => .next s
  | .busy w => completePending w s

end Sys2Proof.Machine
end

