-- ==== Sys2Proof/Machine/Step.lean ====
section
/-! DEFINITION. One step: the next listed move, or the engine's when none is listed (00_scope.md R6, 20_memory.md
R62; log 1, 2). -/

namespace Sys2Proof.Machine

/-- A host transaction, the engine's event, or reset: each is one atomic step, and the steps form one total order
(R62). -/
def step (s : State) : Host.Outcome State Fault Refusal :=
  match s.events with
  | []             => engineStep s
  | .bus t :: es   => .next ({ s with events := es }.busStep t)
  | .engine :: es  => engineStep { s with events := es }
  | .reset :: es   => .next { s with events := es }.applyReset

/-- HUFF fetches nothing (R66): the next instruction is the pending command word. INIT ended where it was running
(R141), the word accepted (R78), and the engine's event as the very next move, so that the next step completes the
word (log 11). -/
def State.withFetchWord (s : State) (nbits w : Nat) : State :=
  let ready := match s.phase with
    | .init   => s.finishInit
    | .idle   => s
    | .busy _ => s
  { ready.accept (BitVec.ofNat 32 (w % 2 ^ nbits)) with
    events := match s.events with
      | []      => []
      | e :: es => .engine :: e :: es }

end Sys2Proof.Machine
end

