-- ==== Sys2Proof/Machine/HostProgram.lean ====
section
/-! DEFINITION. The host program notation (30_encoding.md R73 to R77): lines, their transactions, and what the
pseudo-instructions expand to. A host program is not state (00_scope.md R13); its transactions enter the machine as
listed moves, with the engine's event placed where the command completes. -/

namespace Sys2Proof.Machine

/-- One line of a host program (R73): WR, WRE, RD, RDE. -/
inductive HostLine
  | wr  (addr : BusAddr) (v : Word)
  | wre (addr : BusAddr) (v : Word)
  | rd  (addr : BusAddr)
  | rde (addr : BusAddr)
deriving DecidableEq, Repr

/-- "The encoding of a host program is its list of transactions" (R73). -/
def HostLine.txn : HostLine → Txn
  | .wr a v  => .write a v
  | .wre a v => .write a v
  | .rd a    => .read a
  | .rde a   => .read a

/-- The response the line expects (R73). -/
def HostLine.expects : HostLine → RespCode
  | .wr _ _  => .ok
  | .wre _ _ => .err
  | .rd _    => .ok
  | .rde _   => .err

/-- The line as a move of the host. -/
def HostLine.event (l : HostLine) : Event := .bus l.txn

/-- The addresses of CMD and STATUS (R15, R74, R75). -/
def cmdAddr : BusAddr := 0x00008#20
def statusAddr : BusAddr := 0x0000C#20

/-- `CMD <mnemonic>` (R74). -/
def cmdLine (i : Instr) : HostLine := .wr cmdAddr (Sys2Proof.encode i)

/-- `WAIT` (R75) when the command completes after `polls` polls: those read BUSY = 1, the next reads 0. -/
def waitEvents (polls : Nat) : List Event :=
  List.replicate polls (.bus (.read statusAddr)) ++ [.engine, .bus (.read statusAddr)]

/-- `RUN <mnemonic>` (R76): CMD, WAIT, and the read of STATUS. -/
def runEvents (i : Instr) (polls : Nat) : List Event :=
  (cmdLine i).event :: (waitEvents polls ++ [.bus (.read statusAddr)])

/-- `LOADB <base>, b0, b1, ...` (R77): four bytes a word in the order of R54, the last word filled with 0x00. -/
def loadBytes (base : BusAddr) : List Byte → List HostLine
  | []                      => []
  | [a]                     => [.wr base (0#8 ++ 0#8 ++ 0#8 ++ a)]
  | [a, b]                  => [.wr base (0#8 ++ 0#8 ++ b ++ a)]
  | [a, b, c]               => [.wr base (0#8 ++ c ++ b ++ a)]
  | a :: b :: c :: d :: rest => .wr base (d ++ c ++ b ++ a) :: loadBytes (base + 4#20) rest

/-- The listed moves made one after another, from a state with nothing listed. -/
def playEvents (es : List Event) (s : State) : Host.Outcome State Fault Refusal :=
  Host.Core.run Sys2Proof.core es.length { s with events := es }

/-- RUNs in order, "stopping at the first RUN whose st[2] = 1" (R77), each completing after `polls` polls. -/
def runAll (polls : Nat) : List Instr → State → Host.Outcome State Fault Refusal
  | [], s => .next s
  | i :: is, s =>
    match playEvents (runEvents i polls) s with
    | .next t    => if t.errBit then .next t else runAll polls is t
    | .fault f   => .fault f
    | .refused r => .refused r

/-- `ENCODE_BUF` (R77): COUNT, BUILD, GENCODES, ENCODE. -/
def encodeBuf (polls : Nat) (s : State) : Host.Outcome State Fault Refusal :=
  runAll polls [.count, .build, .gencodes, .encode] s

/-- `DECODE_BUF` (R77): DECODE. -/
def decodeBuf (polls : Nat) (s : State) : Host.Outcome State Fault Refusal :=
  runAll polls [.decode] s

end Sys2Proof.Machine
end

