-- ==== Sys2Proof/Safety.lean ====
section
/-! DEFINITION. The terms claims use: what a completion is, what a command leaves alone, prefix-free tables, the
shape of a tree, and the invariant of the machine. -/

namespace Sys2Proof.Machine

/-! ## Completion (40_command_control.md R80) -/

/-- `t` is the state at a completion of the command with this OPCODE field: the seven fields R80 writes. -/
def Completed (op : Byte) (e : Option Raised) (t : State) : Prop :=
  t.phase = .idle ∧ t.done = true ∧ t.errCode = errCodeOf e ∧ t.errBit = e.isSome ∧ t.lastOp = op ∧
  t.errInfo = errInfoOf e ∧ t.doneIp = true

/-! ## Frames: what `t` holds as `s` does. Memories are compared by what reading one byte gives. -/

/-- What no command writes: the depths, IN_LEN, INT_EN, every byte of IN, and the host's side of the model. -/
def KeepsHostSide (s t : State) : Prop :=
  t.params = s.params ∧ t.inLen = s.inLen ∧ t.doneIe = s.doneIe ∧ (∀ i, t.inByte i = s.inByte i) ∧
  t.events = s.events ∧ t.resp = s.resp

def KeepsFreq (s t : State) : Prop := ∀ x, t.freqOf x = s.freqOf x

/-- The tree: NSYM, ROOT, NODE_COUNT, every stored entry, and so every valid entry. -/
def KeepsTree (s t : State) : Prop :=
  t.nsym = s.nsym ∧ t.root = s.root ∧ t.nodeCount = s.nodeCount ∧ (∀ n : Nat, t.node[n]? = s.node[n]?)

def KeepsCtab (s t : State) : Prop := ∀ x, t.codeOf x = s.codeOf x

def KeepsPayLengths (s t : State) : Prop := t.bitLen = s.bitLen ∧ t.payBytes = s.payBytes

def KeepsPay (s t : State) : Prop := ∀ i, t.payByte i = s.payByte i

def KeepsOut (s t : State) : Prop := ∀ i, t.outByte i = s.outByte i

/-- All results of all commands but FREQ, the tree, CTAB, the payload and the output as named. -/
def KeepsAll (s t : State) : Prop :=
  KeepsHostSide s t ∧ KeepsFreq s t ∧ KeepsTree s t ∧ KeepsCtab s t ∧ KeepsPayLengths s t ∧ KeepsPay s t ∧
  KeepsOut s t ∧ t.outLen = s.outLen

/-! ## Code tables (45_decoder.md R114) -/

/-- `conflict(s, t)` of R114. -/
def Conflict (ct : CodeTable) (x y : Byte) : Prop :=
  x ≠ y ∧ 1 ≤ (tableGet ct x).len.toNat ∧ 1 ≤ (tableGet ct y).len.toNat ∧
  ∀ i, i < min (tableGet ct x).len.toNat (tableGet ct y).len.toNat →
    (tableGet ct x).bit i = (tableGet ct y).bit i

/-- `prefix_free` of R114. -/
def PrefixFree (ct : CodeTable) : Prop := ∀ x y, ¬ Conflict ct x y

/-- `first_pair` of R114: the least conflicting pair, s first, then t. -/
def FirstPair (ct : CodeTable) (x y : Byte) : Prop :=
  x.toNat < y.toNat ∧ Conflict ct x y ∧
  ∀ x' y' : Byte, x'.toNat < y'.toNat → Conflict ct x' y' →
    x.toNat < x'.toNat ∨ (x = x' ∧ y.toNat ≤ y'.toNat)

/-- The concatenation of the codes of a sequence of symbols, in order. -/
def codeStream (ct : CodeTable) (xs : List Byte) : Bits := (xs.map fun x => (tableGet ct x).bits).flatten

/-- Every symbol has a code. -/
def AllCoded (ct : CodeTable) (xs : List Byte) : Prop := ∀ x ∈ xs, (tableGet ct x).len ≠ 0#8

/-! ## Trees (42_tree_builder.md R97) -/

/-- The entry a path leads to from `n`: 0 to the left, 1 to the right (R102). A leaf has no children. -/
def State.descend (s : State) : Nat → Bits → Option Nat
  | n, []     => some n
  | n, b :: p =>
    if (s.nodeAt n).isLeaf then none
    else s.descend (if b then (s.nodeAt n).right.toNat else (s.nodeAt n).left.toNat) p

/-- The laws (a) to (e) of R97 that speak of the tree alone; `k` is NSYM. -/
structure TreeShape (s : State) : Prop where
  nsym_pos  : 1 ≤ s.nsym.toNat
  nsym_le   : s.nsym.toNat ≤ 256
  count     : s.nodeCount.toNat = 2 * s.nsym.toNat - 1
  root      : s.root.toNat = 2 * s.nsym.toNat - 2
  stored    : s.nodeCount.toNat ≤ s.node.length
  leaf      : ∀ n, n < s.nsym.toNat →
    (s.nodeAt n).isLeaf = true ∧ (s.nodeAt n).left = 0#9 ∧ (s.nodeAt n).right = 0#9
  ascending : ∀ m n, m < n → n < s.nsym.toNat → (s.nodeAt m).sym.toNat < (s.nodeAt n).sym.toNat
  inner     : ∀ n, s.nsym.toNat ≤ n → n < s.nodeCount.toNat →
    (s.nodeAt n).isLeaf = false ∧ (s.nodeAt n).sym = 0#8 ∧ (s.nodeAt n).left.toNat < n ∧
    (s.nodeAt n).right.toNat < n ∧ (s.nodeAt n).left ≠ (s.nodeAt n).right
  parent    : ∀ c, c < s.root.toNat → ∃ n, (s.nsym.toNat ≤ n ∧ n < s.nodeCount.toNat ∧
    ((s.nodeAt n).left.toNat = c ∨ (s.nodeAt n).right.toNat = c)) ∧
    ∀ m, s.nsym.toNat ≤ m → m < s.nodeCount.toNat →
      ((s.nodeAt m).left.toNat = c ∨ (s.nodeAt m).right.toNat = c) → m = n
  weight    : ∀ n, s.nsym.toNat ≤ n → n < s.nodeCount.toNat →
    (s.nodeAt n).weight.toNat =
      (s.nodeAt (s.nodeAt n).left.toNat).weight.toNat + (s.nodeAt (s.nodeAt n).right.toNat).weight.toNat

/-- Entry `c` lies below `n` and is no child of an inner entry below `n`: the entries in BUILD's queue when it makes
entry `n` (R90, R95). -/
def State.Parentless (s : State) (n c : Nat) : Prop :=
  c < n ∧ ∀ m, s.nsym.toNat ≤ m → m < n → (s.nodeAt m).left.toNat ≠ c ∧ (s.nodeAt m).right.toNat ≠ c

/-- The key of entry `a` comes before that of entry `b`: weight first, then index (R90, R94). -/
def State.KeyBefore (s : State) (a b : Nat) : Prop :=
  (s.nodeAt a).weight.toNat < (s.nodeAt b).weight.toNat ∨
  ((s.nodeAt a).weight.toNat = (s.nodeAt b).weight.toNat ∧ a < b)

/-- The pop order of R92, R94 and R95: of the parentless entries below an inner entry, its LEFT has the least key and
its RIGHT the next least. -/
def GreedyMerges (s : State) : Prop :=
  ∀ n, s.nsym.toNat ≤ n → n < s.nodeCount.toNat →
    s.Parentless n (s.nodeAt n).left.toNat ∧ s.Parentless n (s.nodeAt n).right.toNat ∧
    ∀ c, s.Parentless n c → c ≠ (s.nodeAt n).left.toNat →
      s.KeyBefore (s.nodeAt n).left.toNat c ∧
      (c ≠ (s.nodeAt n).right.toNat → s.KeyBefore (s.nodeAt n).right.toNat c)

/-- No tree (R30). -/
def NoTree (s : State) : Prop := s.nodeCount = 0#9 ∧ s.nsym = 0#9 ∧ s.root = 0#9

/-- The symbols a BUILD gives a leaf, in ascending order. -/
def State.presentSymbols (s : State) : List Byte := allSymbols.filter fun x => s.freqOf x != 0#32

/-- The sum of a quantity over the 256 symbols. -/
def sumSymbols (f : Byte → Nat) : Nat := (allSymbols.map f).sum

/-! ## Reset (70_reset_and_hazards.md R140) -/

/-- The values R140 lists: the phase, STATUS = 0x00000001, the ten registers at 0, irq low. -/
def ResetValues (s : State) : Prop :=
  s.phase = .init ∧ s.statusWord = 0x00000001#32 ∧ s.inLen = 0#32 ∧ s.bitLen = 0#32 ∧ s.payBytes = 0#32 ∧
  s.outLen = 0#32 ∧ s.nsym = 0#9 ∧ s.root = 0#9 ∧ s.nodeCount = 0#9 ∧ s.errInfo = 0#32 ∧
  s.intEnWord = 0#32 ∧ s.intStatWord = 0#32 ∧ s.irq = false

/-! ## Addresses (20_memory.md R46, R50) -/

/-- The unmapped addresses as R50 lists them, for a block with the depths `p`. -/
def Unmapped (p : Params) (a : Nat) : Prop :=
  (a < 0x01000 ∧ a ∉ [0x000, 0x004, 0x008, 0x00C, 0x010, 0x014, 0x018, 0x01C, 0x020, 0x024, 0x028, 0x02C, 0x030,
    0x034, 0x040, 0x044, 0x048]) ∨
  (0x05FF0 ≤ a ∧ a < 0x06000) ∨
  (0x08000 ≤ a ∧ a < 0x0C000 ∧ 9 ≤ (a - 0x08000) % 64 / 4) ∨
  (0x10000 ≤ a ∧ a < 0x20000 ∧ p.inDepth ≤ a - 0x10000) ∨
  (0x20000 ≤ a ∧ a < 0x30000 ∧ p.payDepth ≤ a - 0x20000) ∨
  (0x30000 ≤ a ∧ a < 0x40000 ∧ p.outDepth ≤ a - 0x30000) ∨
  (0x01400 ≤ a ∧ a < 0x04000) ∨ (0x06000 ≤ a ∧ a < 0x08000) ∨ (0x0C000 ≤ a ∧ a < 0x10000) ∨ 0x40000 ≤ a

/-- An address inside one of the six windows of memory (R46). -/
def InWindow (a : Nat) : Prop :=
  (0x01000 ≤ a ∧ a < 0x01400) ∨ (0x04000 ≤ a ∧ a < 0x05FF0) ∨ (0x08000 ≤ a ∧ a < 0x0C000) ∨
  (0x10000 ≤ a ∧ a < 0x40000)

/-- The read-only registers (R15), as addresses. -/
def readOnlyRegs : List BusAddr :=
  [0x00000#20, 0x00004#20, 0x0000C#20, 0x0001C#20, 0x00020#20, 0x00024#20, 0x00028#20, 0x0002C#20, 0x00040#20,
   0x00044#20, 0x00048#20]

/-! ## The length check of DECODE (45_decoder.md R118) -/

/-- PAY_BYTES and BITLEN pass the two length checks of R118. -/
def LengthsOk (s : State) : Prop :=
  s.payBytes.toNat ≤ s.params.payDepth ∧ s.bitLen.toNat ≤ 8 * s.payBytes.toNat ∧
  s.payBytes.toNat = (s.bitLen.toNat + 7) / 8

/-! ## The invariant -/

/-- A byte buffer in canonical form, inside its depth, with a draw of the past. -/
def BufferOk (m : Memory) (depth draws : Nat) : Prop := m.wf = true ∧ m.within depth = true ∧ m.draw < draws

/-- The registers that stay at their reset value while INIT runs (R140, R141, R52). -/
def InitRegs (s : State) : Prop :=
  s.lastOp = 0#8 ∧ s.inLen = 0#32 ∧ s.bitLen = 0#32 ∧ s.payBytes = 0#32 ∧ s.outLen = 0#32 ∧ NoTree s ∧
  s.errInfo = 0#32 ∧ s.doneIp = false

/-- What holds at reset and is kept by every step. -/
structure Inv (s : State) : Prop where
  /-- R7 -/
  params    : s.params.wf = true
  /-- R20 -/
  busy      : s.busyBit = true → s.done = false ∧ s.errCode = 0#4
  /-- R19, R23: no error code stands without a completed command -/
  undone    : s.done = false → s.errCode = 0#4
  /-- 93_implementation_defined.md V2: ERRCODE 9..15 is never produced -/
  code      : s.errCode.toNat ≤ 8
  /-- R31: after a success ERR_INFO is 0 -/
  info      : s.done = true → s.errCode = 0#4 → s.errInfo = 0#32
  /-- R140 -/
  init      : s.phase = .init → InitRegs s
  /-- R30, R97 -/
  tree      : NoTree s ∨ TreeShape s
  /-- R37 -/
  nodes     : s.node.length ≤ 511
  /-- R27, R42, R122 -/
  out       : s.outLen.toNat ≤ s.params.outDepth
  /-- R40 to R42 -/
  inBuf     : BufferOk s.inBuf s.params.inDepth s.draws
  payBuf    : BufferOk s.payBuf s.params.payDepth s.draws
  outBuf    : BufferOk s.outBuf s.params.outDepth s.draws

end Sys2Proof.Machine
end

