-- ==== Sys2Proof/Certificates/Slice0/Obligations.lean ====
section
/-! DEFINITION. The statements for the provers. Each docstring names the rules of spec/ it formalises. -/

open Sys2Proof Sys2Proof.Machine

/-! ## Encoding -/

/-- R69: the seven words of the opcode map decode to their commands, and an OPCODE of 0x07 or more with RSVD = 0 is
reserved. -/
def Obligations.OpcodeMapWordsDecode : Prop :=
  decodeWord 0x00000000#32 = .ok .nop ∧ decodeWord 0x00000001#32 = .ok .count ∧
  decodeWord 0x00000002#32 = .ok .build ∧ decodeWord 0x00000003#32 = .ok .gencodes ∧
  decodeWord 0x00000004#32 = .ok .encode ∧ decodeWord 0x00000005#32 = .ok .validate ∧
  decodeWord 0x00000006#32 = .ok .decode ∧
  ∀ n : Nat, 7 ≤ n → n ≤ 255 → decodeWord (BitVec.ofNat 32 n) = .error .reservedOpcode

/-- R70: every 32-bit word decodes to exactly one of the seven commands or to "illegal", in the order of the rule, and
an illegal word is still accepted and completes with IllegalCommand. -/
def Obligations.CommandWordDecodesByRule : Prop :=
  ∀ w : Word,
    (w.toNat / 256 ≠ 0 → decodeWord w = .error .reservedBits) ∧
    (w.toNat / 256 = 0 → w.toNat % 256 ≤ 6 →
      ∃ i : Instr, decodeWord w = .ok i ∧ i.opcode.toNat = w.toNat % 256) ∧
    (w.toNat / 256 = 0 → 6 < w.toNat % 256 → decodeWord w = .error .reservedOpcode) ∧
    (∀ (s : State) (r : DecodeError), s.phase = .idle → decodeWord w = .error r →
      ∃ t u, s.transact (.write 0x00008#20 w) = (.write .ok, t) ∧ engineStep t = .next u ∧
        Completed (BitVec.ofNat 8 (w.toNat % 256)) (some ⟨.illegalCommand, w⟩) u)

/-- R69, R70: a word decodes to an instruction exactly when it is that instruction's encoding, every instruction is
well formed, and the host's table words decode alike. -/
def Obligations.DecodeInvertsEncode : Prop :=
  ∀ i : Instr, i.wf = true ∧ (∀ w : Word, decodeWord w = .ok i ↔ w = Sys2Proof.encode i) ∧
    ∀ w : Word, decodeTableWord 32 w.toNat = some i ↔ w = Sys2Proof.encode i

/-! ## Steps -/

/-- R70, R80: when the pending word decodes to an instruction, the engine's step is exec of it, when its move is listed
next (the list is the model's, log 1) and when nothing is listed. That the engine moves when nothing is listed is the
model's choice (log 2). -/
def Obligations.StepCompletesDecodedCommand : Prop :=
  ∀ (s : State) (w : Word) (i : Instr), s.phase = .busy w → decodeWord w = .ok i →
    (s.events = [] → step s = exec i s) ∧
    (∀ es, s.events = .engine :: es → step s = exec i { s with events := es })

/-- R85: an illegal word completes with IllegalCommand, ERR_INFO = the word and LAST_OP = w[7:0]; no register or
memory changes. -/
def Obligations.IllegalWordCompletes : Prop :=
  ∀ (s : State) (w : Word) (es : List Event), s.phase = .busy w →
    (w.toNat / 256 ≠ 0 ∨ 7 ≤ w.toNat % 256) → s.events = .engine :: es →
    ∃ t, step s = .next t ∧
      Completed (BitVec.ofNat 8 (w.toNat % 256)) (some ⟨.illegalCommand, w⟩) t ∧
      KeepsAll { s with events := es } t

/-- R47, R62: a listed bus transaction is one step, whose response stands on the port; the engine's event changes
nothing while IDLE (R137), also when no move is listed (the model's choice, log 2). -/
def Obligations.StepMakesListedMove : Prop :=
  (∀ (s : State) (t : Txn) (es : List Event), s.events = .bus t :: es →
    step s = .next { (State.transact { s with events := es } t).2 with
      resp := some (State.transact { s with events := es } t).1 }) ∧
  (∀ (s : State) (es : List Event), s.events = .engine :: es → s.phase = .idle →
    step s = .next { s with events := es }) ∧
  (∀ s : State, s.events = [] → s.phase = .idle → step s = .next s)

/-! ## Reset and INIT -/

/-- R140: the values reset leaves, after the reset pin in any state and in the state the machine starts from; ID,
VERSION and the depths are not affected (R142). Once INIT ends STATUS is 0 and the registers still hold the values of
R15. -/
def Obligations.ResetGivesResetValues : Prop :=
  ResetValues State.reset ∧
  ∀ (s : State) (es : List Event), s.events = .reset :: es →
    ∃ t, step s = .next t ∧ ResetValues t ∧ t.params = s.params ∧ t.events = es ∧
      t.readReg .id = 0x48554646#32 ∧ t.readReg .version = 0x00000001#32 ∧
      ∃ u, engineStep t = .next u ∧ u.statusWord = 0x00000000#32 ∧ u.params = s.params ∧
        u.readReg .id = 0x48554646#32 ∧ u.readReg .version = 0x00000001#32 ∧
        ∀ r ∈ [RegName.cmd, .inLen, .bitLen, .payBytes, .outLen, .nsym, .root, .nodeCount, .errInfo, .intEn, .intStat],
          u.readReg r = 0x00000000#32

/-- R141: the end of INIT is one event that clears FREQ and CTAB and leaves DONE and DONE_IP alone; while INIT runs,
register reads are OK and window accesses and CMD writes get ERR. -/
def Obligations.InitClearsTables : Prop :=
  ∀ s : State, s.phase = .init →
    (∃ t, engineStep s = .next t ∧ (∀ x, t.freqOf x = 0#32) ∧
      (∀ x, (t.codeOf x).len = 0#8 ∧ ∀ i, (t.codeOf x).bit i = false) ∧
      t.phase = .idle ∧ t.busyBit = false ∧ t.done = s.done ∧ t.doneIp = s.doneIp ∧ t.errCode = s.errCode ∧
      t.lastOp = s.lastOp ∧ t.errInfo = s.errInfo ∧ KeepsHostSide s t ∧ KeepsTree s t ∧ KeepsPayLengths s t ∧
      KeepsPay s t ∧ KeepsOut s t ∧ t.outLen = s.outLen) ∧
    (∀ r : Nat × RegName, r ∈ regMap →
      s.transact (.read (BitVec.ofNat 20 r.1)) = (.read .ok (s.readReg r.2), s)) ∧
    (∀ v, s.transact (.write 0x00008#20 v) = (.write .err, s)) ∧
    (∀ a : BusAddr, InWindow a.toNat →
      s.transact (.read a) = (.read .err 0#32, s) ∧ ∀ v, s.transact (.write a v) = (.write .err, s))

/-- R143: reset while BUSY abandons the command: no result is written, no completion takes place, DONE_IP is not
set, the state is that of R140, and INIT then runs. No host transaction cancels a command. That FREQ and CTAB hold what
they held until INIT ends is the model's choice (log 6): the spec gives them no value there. -/
def Obligations.ResetAbandonsCommand : Prop :=
  (∀ (s : State) (w : Word) (es : List Event), s.phase = .busy w → s.events = .reset :: .engine :: es →
    ∃ t u, step s = .next t ∧ ResetValues t ∧ t.doneIp = false ∧ t.done = false ∧ KeepsFreq s t ∧ KeepsCtab s t ∧
      step t = .next u ∧ u.phase = .idle ∧ u.doneIp = false ∧ u.done = false ∧
      (∀ x, u.freqOf x = 0#32) ∧ (∀ x, (u.codeOf x).len = 0#8)) ∧
  ∀ (s : State) (w : Word) (x : Txn), s.phase = .busy w → (s.transact x).2.phase = .busy w

/-! ## Acceptance -/

/-- R78: a write to CMD is accepted in phase IDLE, whatever the word, with the changes of the rule and no other; in
phase INIT or BUSY it gets ERR and changes nothing. -/
def Obligations.AcceptanceOfCommandWord : Prop :=
  ∀ (s : State) (w : Word),
    (s.phase = .idle → ∃ t, s.transact (.write 0x00008#20 w) = (.write .ok, t) ∧
      t.phase = .busy w ∧ t.busyBit = true ∧ t.done = false ∧ t.errBit = false ∧ t.errCode = 0#4 ∧
      t.lastOp = s.lastOp ∧ t.errInfo = s.errInfo ∧ t.doneIp = s.doneIp ∧ KeepsAll s t) ∧
    (s.phase ≠ .idle → s.transact (.write 0x00008#20 w) = (.write .err, s))

/-! ## The bus -/

/-- R48, R49: a misaligned transaction gets ERR, is not split and not rounded. -/
def Obligations.MisalignedAccessGetsErr : Prop :=
  ∀ (s : State) (a : BusAddr), a.toNat % 4 ≠ 0 →
    s.transact (.read a) = (.read .err 0#32, s) ∧ ∀ v, s.transact (.write a v) = (.write .err, s)

/-- R49: an ERR response has no effect on any state, and a read with ERR returns the word 0. -/
def Obligations.ErrResponseChangesNothing : Prop :=
  ∀ (s : State) (t : Txn),
    (∀ d, (s.transact t).1 = .read .err d → (s.transact t).2 = s ∧ d = 0#32) ∧
    ((s.transact t).1 = .write .err → (s.transact t).2 = s)

/-- R50: every unmapped address gets ERR, read or write. -/
def Obligations.UnmappedAddressGetsErr : Prop :=
  ∀ (s : State) (a : BusAddr), Unmapped s.params a.toNat →
    s.transact (.read a) = (.read .err 0#32, s) ∧ ∀ v, s.transact (.write a v) = (.write .err, s)

/-- R51: a write to a read-only register or to NODE or OUT gets ERR in every phase, a read of CMD gives 0, and every
other mapped access is allowed while IDLE (the rest of R52 is `BusyPhaseRestrictions`). -/
def Obligations.AccessRights : Prop :=
  ∀ s : State,
    (∀ a ∈ readOnlyRegs, ∀ v, s.transact (.write a v) = (.write .err, s)) ∧
    (∀ a : BusAddr, (0x04000 ≤ a.toNat ∧ a.toNat < 0x05FF0) ∨ (0x30000 ≤ a.toNat ∧ a.toNat < 0x40000) →
      ∀ v, s.transact (.write a v) = (.write .err, s)) ∧
    s.transact (.read 0x00008#20) = (.read .ok 0#32, s) ∧
    (s.phase = .idle → ∀ a : BusAddr, a.toNat % 4 = 0 → ¬ Unmapped s.params a.toNat → s.params.wf = true →
      (∃ d, s.transact (.read a) = (.read .ok d, s)) ∧
      (a ∉ readOnlyRegs → ¬ (0x04000 ≤ a.toNat ∧ a.toNat < 0x05FF0) → ¬ (0x30000 ≤ a.toNat) →
        ∀ v, (s.transact (.write a v)).1 = .write .ok))

/-- R52: what the phases INIT and BUSY forbid and what they allow. -/
def Obligations.BusyPhaseRestrictions : Prop :=
  ∀ s : State, s.phase ≠ .idle →
    (∀ a ∈ [0x00008#20, 0x00010#20, 0x00014#20, 0x00018#20], ∀ v,
      s.transact (.write a v) = (.write .err, s)) ∧
    (∀ a : BusAddr, InWindow a.toNat →
      s.transact (.read a) = (.read .err 0#32, s) ∧ ∀ v, s.transact (.write a v) = (.write .err, s)) ∧
    (∀ r : Nat × RegName, r ∈ regMap →
      s.transact (.read (BitVec.ofNat 20 r.1)) = (.read .ok (s.readReg r.2), s)) ∧
    (∀ v, ∃ t, s.transact (.write 0x00030#20 v) = (.write .ok, t) ∧ t.doneIe = v.getLsbD 0) ∧
    (∀ v, ∃ t, s.transact (.write 0x00034#20 v) = (.write .ok, t) ∧ t.doneIp = (s.doneIp && !v.getLsbD 0))

/-- R56: the FREQ window in phase IDLE: a read returns FREQ[s], a write sets FREQ[s] to the written word and nothing
else (`draws` is the model's own field, log 4). -/
def Obligations.FreqWindowReadsAndWrites : Prop :=
  ∀ (s : State) (x : Byte) (v : Word), s.phase = .idle →
    s.transact (.read (BitVec.ofNat 20 (0x01000 + 4 * x.toNat))) = (.read .ok (s.freqOf x), s) ∧
    ∃ t, s.transact (.write (BitVec.ofNat 20 (0x01000 + 4 * x.toNat)) v) = (.write .ok, t) ∧
      t.freqOf x = v ∧ (∀ y, y ≠ x → t.freqOf y = s.freqOf y) ∧ t = { s with freq := t.freq, draws := t.draws }

/-- R57: the four words of a NODE entry, field by field; reserved bits read 0 for valid and invalid entries alike, and
the window is read-only. -/
def Obligations.NodeWindowLayout : Prop :=
  ∀ (s : State) (n : Nat), s.phase = .idle → n ≤ 510 →
    ∃ d₀ d₁ d₂ d₃ : Word,
      s.transact (.read (BitVec.ofNat 20 (0x04000 + 16 * n))) = (.read .ok d₀, s) ∧
      s.transact (.read (BitVec.ofNat 20 (0x04000 + 16 * n + 4))) = (.read .ok d₁, s) ∧
      s.transact (.read (BitVec.ofNat 20 (0x04000 + 16 * n + 8))) = (.read .ok d₂, s) ∧
      s.transact (.read (BitVec.ofNat 20 (0x04000 + 16 * n + 12))) = (.read .ok d₃, s) ∧
      d₀.toNat = (s.nodeAt n).weight.toNat % 2 ^ 32 ∧ d₁.toNat = (s.nodeAt n).weight.toNat / 2 ^ 32 ∧
      d₂.toNat = 2 ^ 31 * (s.nodeAt n).isLeaf.toNat + (s.nodeAt n).sym.toNat ∧
      d₃.toNat = 2 ^ 16 * (s.nodeAt n).right.toNat + (s.nodeAt n).left.toNat ∧
      ∀ w, w < 4 → ∀ v, s.transact (.write (BitVec.ofNat 20 (0x04000 + 16 * n + 4 * w)) v) = (.write .err, s)

/-- R58: the nine words of a CTAB entry in phase IDLE: what a read returns and what a write sets, bit by bit; the
other words and entries stay, and bit 0 of word 8 reads 0. -/
def Obligations.CtabWindowReadsAndWrites : Prop :=
  ∀ (s : State) (x : Byte) (v : Word), s.phase = .idle →
    (∃ d, s.transact (.read (BitVec.ofNat 20 (0x08000 + 64 * x.toNat))) = (.read .ok d, s) ∧
      d.toNat = (s.codeOf x).len.toNat) ∧
    (∀ j, 1 ≤ j → j ≤ 8 →
      ∃ d, s.transact (.read (BitVec.ofNat 20 (0x08000 + 64 * x.toNat + 4 * j))) = (.read .ok d, s) ∧
        ∀ m, m < 32 → d.getLsbD (31 - m) = (s.codeOf x).bit (32 * (j - 1) + m)) ∧
    (∃ t, s.transact (.write (BitVec.ofNat 20 (0x08000 + 64 * x.toNat)) v) = (.write .ok, t) ∧
      (t.codeOf x).len.toNat = v.toNat % 256 ∧ (∀ i, (t.codeOf x).bit i = (s.codeOf x).bit i) ∧
      (∀ y, y ≠ x → t.codeOf y = s.codeOf y) ∧ t = { s with ctab := t.ctab, draws := t.draws }) ∧
    (∀ j, 1 ≤ j → j ≤ 8 →
      ∃ t, s.transact (.write (BitVec.ofNat 20 (0x08000 + 64 * x.toNat + 4 * j)) v) = (.write .ok, t) ∧
        (t.codeOf x).len = (s.codeOf x).len ∧
        (∀ m, m < 32 → 32 * (j - 1) + m < 255 → (t.codeOf x).bit (32 * (j - 1) + m) = v.getLsbD (31 - m)) ∧
        (∀ i, i < 32 * (j - 1) ∨ 32 * j ≤ i → (t.codeOf x).bit i = (s.codeOf x).bit i) ∧
        (t.codeOf x).bit 255 = false ∧
        (∀ y, y ≠ x → t.codeOf y = s.codeOf y) ∧ t = { s with ctab := t.ctab, draws := t.draws })

/-- R54: the lanes of the byte buffers: the word at offset o holds byte [o] in bits 7:0 up to byte [o+3] in bits
31:24, for reads of IN, PAY and OUT and for writes of IN and PAY; no other byte changes. -/
def Obligations.ByteBufferLanes : Prop :=
  ∀ (s : State) (o : Nat) (v : Word), s.phase = .idle → s.params.wf = true → o % 4 = 0 →
    (o < s.params.inDepth →
      (∃ d, s.transact (.read (BitVec.ofNat 20 (0x10000 + o))) = (.read .ok d, s) ∧
        d.toNat = (s.inByte o).toNat + 2 ^ 8 * (s.inByte (o + 1)).toNat + 2 ^ 16 * (s.inByte (o + 2)).toNat +
          2 ^ 24 * (s.inByte (o + 3)).toNat) ∧
      ∃ t, s.transact (.write (BitVec.ofNat 20 (0x10000 + o)) v) = (.write .ok, t) ∧
        (∀ k, k < 4 → (t.inByte (o + k)).toNat = v.toNat / 2 ^ (8 * k) % 256) ∧
        (∀ i, i < o ∨ o + 4 ≤ i → t.inByte i = s.inByte i) ∧ t = { s with inBuf := t.inBuf, draws := t.draws }) ∧
    (o < s.params.payDepth →
      (∃ d, s.transact (.read (BitVec.ofNat 20 (0x20000 + o))) = (.read .ok d, s) ∧
        d.toNat = (s.payByte o).toNat + 2 ^ 8 * (s.payByte (o + 1)).toNat + 2 ^ 16 * (s.payByte (o + 2)).toNat +
          2 ^ 24 * (s.payByte (o + 3)).toNat) ∧
      ∃ t, s.transact (.write (BitVec.ofNat 20 (0x20000 + o)) v) = (.write .ok, t) ∧
        (∀ k, k < 4 → (t.payByte (o + k)).toNat = v.toNat / 2 ^ (8 * k) % 256) ∧
        (∀ i, i < o ∨ o + 4 ≤ i → t.payByte i = s.payByte i) ∧
        t = { s with payBuf := t.payBuf, draws := t.draws }) ∧
    (o < s.params.outDepth →
      ∃ d, s.transact (.read (BitVec.ofNat 20 (0x30000 + o))) = (.read .ok d, s) ∧
        d.toNat = (s.outByte o).toNat + 2 ^ 8 * (s.outByte (o + 1)).toNat + 2 ^ 16 * (s.outByte (o + 2)).toNat +
          2 ^ 24 * (s.outByte (o + 3)).toNat)

/-- R60, R61: no read changes the state, so reading an address again returns the same word. -/
def Obligations.ReadsHaveNoSideEffect : Prop :=
  ∀ (s : State) (a b : BusAddr), (s.transact (.read a)).2 = s ∧
    ((s.transact (.read a)).2.transact (.read b)).1 = (s.transact (.read b)).1

/-- R15 to R19, R24 to R34: what each of the 17 registers reads, in every phase; reserved bits read 0. -/
def Obligations.RegisterReads : Prop :=
  ∀ s : State,
    s.transact (.read 0x00000#20) = (.read .ok 0x48554646#32, s) ∧
    s.transact (.read 0x00004#20) = (.read .ok 0x00000001#32, s) ∧
    s.transact (.read 0x00008#20) = (.read .ok 0#32, s) ∧
    (∃ d, s.transact (.read 0x0000C#20) = (.read .ok d, s) ∧
      d.toNat = s.busyBit.toNat + 2 * s.done.toNat + 4 * s.errBit.toNat + 2 ^ 8 * s.errCode.toNat +
        2 ^ 16 * s.lastOp.toNat ∧
      (s.busyBit = false ↔ s.phase = .idle) ∧ (s.errBit = false ↔ s.errCode = 0#4)) ∧
    s.transact (.read 0x00010#20) = (.read .ok s.inLen, s) ∧
    s.transact (.read 0x00014#20) = (.read .ok s.bitLen, s) ∧
    s.transact (.read 0x00018#20) = (.read .ok s.payBytes, s) ∧
    s.transact (.read 0x0001C#20) = (.read .ok s.outLen, s) ∧
    (∃ d, s.transact (.read 0x00020#20) = (.read .ok d, s) ∧ d.toNat = s.nsym.toNat) ∧
    (∃ d, s.transact (.read 0x00024#20) = (.read .ok d, s) ∧ d.toNat = s.root.toNat) ∧
    (∃ d, s.transact (.read 0x00028#20) = (.read .ok d, s) ∧ d.toNat = s.nodeCount.toNat) ∧
    s.transact (.read 0x0002C#20) = (.read .ok s.errInfo, s) ∧
    (∃ d, s.transact (.read 0x00030#20) = (.read .ok d, s) ∧ d.toNat = s.doneIe.toNat) ∧
    (∃ d, s.transact (.read 0x00034#20) = (.read .ok d, s) ∧ d.toNat = s.doneIp.toNat) ∧
    (s.params.wf = true →
      (∃ d, s.transact (.read 0x00040#20) = (.read .ok d, s) ∧ d.toNat = s.params.inDepth) ∧
      (∃ d, s.transact (.read 0x00044#20) = (.read .ok d, s) ∧ d.toNat = s.params.payDepth) ∧
      (∃ d, s.transact (.read 0x00048#20) = (.read .ok d, s) ∧ d.toNat = s.params.outDepth))

/-- R24 to R26, R33, R60: in phase IDLE the host may write any 32-bit value to IN_LEN, BITLEN and PAY_BYTES, and the
write stores it and changes nothing else; in every phase a write to INT_EN stores bit 0 in DONE_IE and changes nothing
else (`draws` is the model's own field, log 4). -/
def Obligations.LengthRegisterWrites : Prop :=
  (∀ (s : State) (v : Word), s.phase = .idle →
    (∃ t, s.transact (.write 0x00010#20 v) = (.write .ok, t) ∧ t = { s with inLen := v, draws := t.draws }) ∧
    (∃ t, s.transact (.write 0x00014#20 v) = (.write .ok, t) ∧ t = { s with bitLen := v, draws := t.draws }) ∧
    (∃ t, s.transact (.write 0x00018#20 v) = (.write .ok, t) ∧ t = { s with payBytes := v, draws := t.draws })) ∧
  ∀ (s : State) (v : Word),
    ∃ t, s.transact (.write 0x00030#20 v) = (.write .ok, t) ∧ t = { s with doneIe := v.getLsbD 0, draws := t.draws }

/-- R34: DONE_IP in every phase: a write with bit 0 = 1 clears it, one with bit 0 = 0 leaves it; every completion
sets it, also right after a clearing write (log 9); the end of INIT does not. -/
def Obligations.InterruptStatusRule : Prop :=
  ∀ s : State,
    (∀ v, ∃ t, s.transact (.write 0x00034#20 v) = (.write .ok, t) ∧
      t = { s with doneIp := t.doneIp, draws := t.draws } ∧
      (v.getLsbD 0 = true → t.doneIp = false) ∧ (v.getLsbD 0 = false → t.doneIp = s.doneIp)) ∧
    (∀ w t, s.phase = .busy w → engineStep s = .next t → t.doneIp = true) ∧
    (∀ w v t, s.phase = .busy w → engineStep (s.transact (.write 0x00034#20 v)).2 = .next t → t.doneIp = true) ∧
    (∀ t, s.phase = .init → engineStep s = .next t → t.doneIp = s.doneIp)

/-- R132: irq is DONE_IE and DONE_IP in every state; enabling with DONE_IP = 1 raises it at once, writing 1 to
INT_STAT bit 0 lowers it, a completion while DONE_IP = 1 leaves it at 1, and irq is low after reset. -/
def Obligations.IrqIsEnableAndPending : Prop :=
  (∀ s : State, (s.irq = true ↔ s.doneIe = true ∧ s.doneIp = true) ∧
    (∀ v, v.getLsbD 0 = true → s.doneIp = true → (s.transact (.write 0x00030#20 v)).2.irq = true) ∧
    (∀ v, v.getLsbD 0 = true → (s.transact (.write 0x00034#20 v)).2.irq = false) ∧
    (∀ w t, s.phase = .busy w → s.doneIp = true → engineStep s = .next t → t.doneIp = true) ∧
    s.applyReset.irq = false) ∧
  State.reset.irq = false

/-- R22: ERRCODE and ERR change only at completion and at acceptance: no host access changes them (nor DONE or
LAST_OP) but an accepted write to CMD, which clears them, and no engine event outside BUSY does. -/
def Obligations.HostAccessKeepsErrorCode : Prop :=
  (∀ (s : State) (t : Txn),
    (∃ w, t = .write 0x00008#20 w ∧ s.phase = .idle ∧ (s.transact t).2.errCode = 0#4 ∧
      (s.transact t).2.errBit = false ∧ (s.transact t).2.done = false ∧ (s.transact t).2.lastOp = s.lastOp) ∨
    ((s.transact t).2.errCode = s.errCode ∧ (s.transact t).2.errBit = s.errBit ∧
      (s.transact t).2.done = s.done ∧ (s.transact t).2.lastOp = s.lastOp)) ∧
  (∀ s : State, s.phase = .init ∨ s.phase = .idle →
    ∃ t, engineStep s = .next t ∧ t.errCode = s.errCode ∧ t.errBit = s.errBit)

/-! ## Frames over all commands -/

/-- R68 (its "writes" column), R14: each command, on every outcome, changes only its own results and the completion
fields. -/
def Obligations.CommandWritesOnlyItsResults : Prop :=
  ∀ (i : Instr) (s t : State), exec i s = .next t →
    KeepsHostSide s t ∧
    (i ≠ .count → KeepsFreq s t) ∧
    (i ≠ .build → KeepsTree s t) ∧
    (i ≠ .gencodes → KeepsCtab s t) ∧
    (i ≠ .encode → KeepsPay s t ∧ KeepsPayLengths s t) ∧
    (i ≠ .decode → KeepsOut s t ∧ t.outLen = s.outLen) ∧
    ∃ e, Completed i.opcode e t

/-- R28 to R30, R37: only BUILD and reset write the tree: no other engine event and no bus transaction does. -/
def Obligations.OnlyBuildWritesTree : Prop :=
  (∀ (s : State) (w : Word) (t : State), s.phase = .busy w → w ≠ 0x00000002#32 → engineStep s = .next t →
    KeepsTree s t) ∧
  (∀ s : State, s.phase = .init → ∃ t, engineStep s = .next t ∧ KeepsTree s t) ∧
  (∀ (s : State) (t : Txn), KeepsTree s (s.transact t).2)

/-! ## NOP and COUNT -/

/-- R84: NOP completes in every state without an error and changes nothing else. -/
def Obligations.NopCompletes : Prop :=
  decodeWord 0x00000000#32 = .ok .nop ∧
  ∀ s : State, ∃ t, exec .nop s = .next t ∧ Completed 0x00#8 none t ∧ KeepsAll s t

/-- R87: COUNT writes the number of occurrences of each symbol to all 256 entries of FREQ, or raises
CapacityExceeded with ERR_INFO = IN_LEN and leaves FREQ unchanged. -/
def Obligations.CountBuildsHistogram : Prop :=
  decodeWord 0x00000001#32 = .ok .count ∧
  ∀ s : State,
    (s.inLen.toNat ≤ s.params.inDepth →
      ∃ t, exec .count s = .next t ∧ (∀ x, t.freqOf x = BitVec.ofNat 32 (s.inSymbols.count x)) ∧
        Completed 0x01#8 none t ∧ KeepsHostSide s t ∧ KeepsTree s t ∧ KeepsCtab s t ∧ KeepsPayLengths s t ∧
        KeepsPay s t ∧ KeepsOut s t ∧ t.outLen = s.outLen) ∧
    (s.params.inDepth < s.inLen.toNat →
      ∃ t, exec .count s = .next t ∧ Completed 0x01#8 (some ⟨.capacityExceeded, s.inLen⟩) t ∧ KeepsAll s t)

/-- R89: after a successful COUNT the counts sum to IN_LEN, FREQ[s] ≥ 1 exactly when s occurs, and the result
depends only on the multiset of the input symbols. -/
def Obligations.CountLaws : Prop :=
  ∀ s : State, s.params.wf = true → s.inLen.toNat ≤ s.params.inDepth →
    ∃ t, exec .count s = .next t ∧
      sumSymbols (fun x => (t.freqOf x).toNat) = s.inLen.toNat ∧
      (∀ x, 1 ≤ (t.freqOf x).toNat ↔ x ∈ s.inSymbols) ∧
      (∀ s', s'.inLen.toNat ≤ s'.params.inDepth → s'.inSymbols.Perm s.inSymbols →
        ∃ t', exec .count s' = .next t' ∧ ∀ x, t'.freqOf x = t.freqOf x)

/-- R88: COUNT writes only FREQ, reads only IN_LEN and the bytes IN[0 .. IN_LEN-1] (beside the depth), and no count
overflows. -/
def Obligations.CountReadsOnlyItsInput : Prop :=
  ∀ s s' : State, s.params.wf = true → s.inLen.toNat ≤ s.params.inDepth → s'.params.inDepth = s.params.inDepth →
    s'.inLen = s.inLen → (∀ i, i < s.inLen.toNat → s'.inByte i = s.inByte i) →
    ∃ t t', exec .count s = .next t ∧ exec .count s' = .next t' ∧ (∀ x, t'.freqOf x = t.freqOf x) ∧
      (∀ x, (t.freqOf x).toNat = s.inSymbols.count x ∧ (t.freqOf x).toNat ≤ s.inLen.toNat) ∧
      KeepsHostSide s t ∧ KeepsTree s t ∧ KeepsCtab s t ∧ KeepsPayLengths s t ∧ KeepsPay s t ∧ KeepsOut s t ∧
      t.outLen = s.outLen

/-! ## BUILD -/

/-- R92, R94: on a non-empty queue pop returns the least key, by weight and then by index, and removes it and nothing
else. That pop gives nothing on the empty queue is the model's choice (log 14): R92 gives that case no behaviour. -/
def Obligations.QueuePopsLeastKey : Prop :=
  ∀ q : Queue, (Queue.pop q = none ↔ q = []) ∧
    ∀ m q', Queue.pop q = some (m, q') →
      q.Perm (m :: q') ∧ Queue.size q = Queue.size q' + 1 ∧
      ∀ k ∈ q, m.weight.toNat < k.weight.toNat ∨ (m.weight.toNat = k.weight.toNat ∧ m.index ≤ k.index)

/-- R98: BUILD with every count 0 invalidates the tree, leaves the NODE entries and raises EmptyInput; a later
GENCODES fails with SequenceError. -/
def Obligations.BuildOnEmptyInput : Prop :=
  ∀ s : State, (∀ x, s.freqOf x = 0#32) →
    ∃ t u, exec .build s = .next t ∧ NoTree t ∧ (∀ n : Nat, t.node[n]? = s.node[n]?) ∧
      Completed 0x02#8 (some ⟨.emptyInput, 0#32⟩) t ∧ KeepsHostSide s t ∧ KeepsFreq s t ∧ KeepsCtab s t ∧
      KeepsPayLengths s t ∧ KeepsPay s t ∧ KeepsOut s t ∧ t.outLen = s.outLen ∧
      exec .gencodes t = .next u ∧ Completed 0x03#8 (some ⟨.sequenceError, 0x00000003#32⟩) u

/-- R94, R95, R97: BUILD with k ≥ 1 distinct symbols completes and makes a tree with the laws (a) to (f); every inner
entry merges the two least keys (weight, then index) of the parentless entries below it, the first popped on the left;
entries at 2k - 1 and above are not written, and nothing but the tree changes. -/
def Obligations.BuildMakesHuffmanTree : Prop :=
  ∀ (s : State) (y : Byte), s.freqOf y ≠ 0#32 →
    ∃ t, exec .build s = .next t ∧ Completed 0x02#8 none t ∧ TreeShape t ∧ GreedyMerges t ∧
      t.nsym.toNat = s.presentSymbols.length ∧
      (∀ n, n < t.nsym.toNat → some (t.nodeAt n).sym = s.presentSymbols[n]? ∧
        (t.nodeAt n).weight.toNat = (s.freqOf (t.nodeAt n).sym).toNat) ∧
      (∀ p n, t.descend t.root.toNat p = some n → p.length ≤ t.nsym.toNat - 1) ∧
      (∀ n : Nat, t.nodeCount.toNat ≤ n → t.node[n]? = s.node[n]?) ∧
      KeepsHostSide s t ∧ KeepsFreq s t ∧ KeepsCtab s t ∧ KeepsPayLengths s t ∧ KeepsPay s t ∧ KeepsOut s t ∧
      t.outLen = s.outLen

/-- R96: no weight overflows: every weight is at most the sum of the counts, which is below 2^40, and the additions
of BUILD are exact. -/
def Obligations.BuildWeightsNeverOverflow : Prop :=
  ∀ (s : State) (y : Byte), s.freqOf y ≠ 0#32 →
    sumSymbols (fun x => (s.freqOf x).toNat) ≤ 256 * (2 ^ 32 - 1) ∧ 256 * (2 ^ 32 - 1) < 2 ^ 40 ∧
    ∃ t, exec .build s = .next t ∧
      (∀ n, n < t.nodeCount.toNat →
        (t.nodeAt n).weight.toNat ≤ sumSymbols (fun x => (s.freqOf x).toNat)) ∧
      (∀ n, n < t.nodeCount.toNat → (t.nodeAt n).isLeaf = false →
        (t.nodeAt n).weight.toNat = (t.nodeAt (t.nodeAt n).left.toNat).weight.toNat +
          (t.nodeAt (t.nodeAt n).right.toNat).weight.toNat)

/-- R99: for two or more symbols the depths of the leaves of the tree BUILD makes minimise the weighted path length over
all binary prefix codes for the symbols with a non-zero count. `path x` leads from the root to the leaf of `x`, so its
length is the depth of that leaf. -/
def Obligations.BuildIsOptimal : Prop :=
  ∀ (s : State) (y z : Byte), y ≠ z → s.freqOf y ≠ 0#32 → s.freqOf z ≠ 0#32 →
    ∃ t, exec .build s = .next t ∧ ∃ path : Byte → Bits,
      (∀ x, s.freqOf x ≠ 0#32 → ∃ n, t.descend t.root.toNat (path x) = some n ∧ (t.nodeAt n).isLeaf = true ∧
        (t.nodeAt n).sym = x) ∧
      ∀ code : Byte → Bits,
        (∀ a b : Byte, s.freqOf a ≠ 0#32 → s.freqOf b ≠ 0#32 → a ≠ b → ¬ code a <+: code b) →
        sumSymbols (fun x => (s.freqOf x).toNat * (path x).length) ≤
          sumSymbols (fun x => (s.freqOf x).toNat * (code x).length)

/-! ## GENCODES -/

/-- R106: GENCODES without a tree raises SequenceError with the opcode as ERR_INFO and writes nothing. -/
def Obligations.GencodesWithoutTree : Prop :=
  ∀ s : State, s.nodeCount = 0#9 →
    ∃ t, exec .gencodes s = .next t ∧ Completed 0x03#8 (some ⟨.sequenceError, 0x00000003#32⟩) t ∧ KeepsAll s t

/-- R101, R102: GENCODES on a tree of two or more symbols: the code of a symbol is the path from the root to its
leaf, 0 to the left and 1 to the right, and only CTAB changes. -/
def Obligations.GencodesCodesArePaths : Prop :=
  ∀ s : State, TreeShape s → 2 ≤ s.nsym.toNat →
    ∃ t, exec .gencodes s = .next t ∧ Completed 0x03#8 none t ∧
      (∀ (x : Byte) (p : Bits), p ≠ [] →
        ((t.codeOf x).bits = p ↔
          ∃ n, s.descend s.root.toNat p = some n ∧ (s.nodeAt n).isLeaf = true ∧ (s.nodeAt n).sym = x)) ∧
      KeepsHostSide s t ∧ KeepsFreq s t ∧ KeepsTree s t ∧ KeepsPayLengths s t ∧ KeepsPay s t ∧ KeepsOut s t ∧
      t.outLen = s.outLen

/-- R103: in a single-leaf tree the symbol gets LEN = 1 and CODE[0] = 0, and no other symbol has a code. -/
def Obligations.GencodesSingleLeaf : Prop :=
  ∀ s : State, TreeShape s → s.nsym.toNat = 1 →
    ∃ t, exec .gencodes s = .next t ∧ Completed 0x03#8 none t ∧
      (t.codeOf (s.nodeAt s.root.toNat).sym).len.toNat = 1 ∧
      (t.codeOf (s.nodeAt s.root.toNat).sym).bit 0 = false ∧
      (∀ x, x ≠ (s.nodeAt s.root.toNat).sym → (t.codeOf x).len = 0#8)

/-- R104: GENCODES writes all 256 entries: symbols not in the tree get LEN = 0, CODE bits at LEN and above are 0,
nothing of an earlier table survives (two states with the same tree give the same table), NODE does not change. -/
def Obligations.GencodesWritesFreshTable : Prop :=
  ∀ s : State, TreeShape s →
    ∃ t, exec .gencodes s = .next t ∧ KeepsTree s t ∧
      (∀ x, (∀ n, n < s.nsym.toNat → (s.nodeAt n).sym ≠ x) → (t.codeOf x).len = 0#8) ∧
      (∀ x i, (t.codeOf x).len.toNat ≤ i → (t.codeOf x).bit i = false) ∧
      (∀ s', s'.nodeCount = s.nodeCount → s'.root = s.root →
        (∀ n, n < s.nodeCount.toNat → s'.nodeAt n = s.nodeAt n) →
        ∃ t', exec .gencodes s' = .next t' ∧ ∀ x, t'.codeOf x = t.codeOf x)

/-- R105: the laws of the table GENCODES makes after BUILD: (a) complete, (b) LEN is the depth, (c) prefix-free, so
that VALIDATE succeeds, (d) the Kraft sum is 1, or 1/2 for one symbol (as multiples of 2^-255). -/
def Obligations.GeneratedTableLaws : Prop :=
  ∀ (s : State) (y : Byte), s.freqOf y ≠ 0#32 →
    ∃ t u v, exec .build s = .next t ∧ exec .gencodes t = .next u ∧ exec .validate u = .next v ∧
      Completed 0x03#8 none u ∧
      (∀ x, 1 ≤ (u.codeOf x).len.toNat ↔ s.freqOf x ≠ 0#32) ∧
      (2 ≤ t.nsym.toNat → ∀ x, s.freqOf x ≠ 0#32 →
        ∃ n, t.descend t.root.toNat (u.codeOf x).bits = some n ∧ (t.nodeAt n).isLeaf = true ∧
          (t.nodeAt n).sym = x) ∧
      PrefixFree u.ctab ∧ Completed 0x05#8 none v ∧
      sumSymbols (fun x => if (u.codeOf x).len = 0#8 then 0 else 2 ^ (255 - (u.codeOf x).len.toNat)) =
        (if 2 ≤ t.nsym.toNat then 2 ^ 255 else 2 ^ 254)

/-! ## ENCODE -/

/-- R107: the payload format: a stream of nb bits takes ceil(nb/8) bytes, bit (7 - m) of byte j is b[8j + m], and
padding bits are 0; and so PAY holds the concatenation of the codes after a successful ENCODE. -/
def Obligations.PayloadFormat : Prop :=
  (∀ bits : Bits, (packBits bits).length = (bits.length + 7) / 8 ∧
    ∀ j m, j < (bits.length + 7) / 8 → m < 8 →
      ((packBits bits).getD j 0#8).getLsbD (7 - m) = bits.getD (8 * j + m) false) ∧
  ∀ s t : State, s.params.wf = true → exec .encode s = .next t → t.errCode = 0#4 →
    t.payBytes.toNat = (t.bitLen.toNat + 7) / 8 ∧
    ∀ j m, j < t.payBytes.toNat → m < 8 →
      (t.payByte j).getLsbD (7 - m) = (codeStream s.ctab s.inSymbols).getD (8 * j + m) false

/-- R108: ENCODE of an input whose symbols all have codes and whose stream fits completes: PAY holds the packed
concatenation of the codes in input order, BITLEN and PAY_BYTES its lengths, and no other byte or register changes. -/
def Obligations.EncodePacksCodes : Prop :=
  ∀ s : State, s.params.wf = true → 1 ≤ s.inLen.toNat → s.inLen.toNat ≤ s.params.inDepth →
    AllCoded s.ctab s.inSymbols → (codeStream s.ctab s.inSymbols).length ≤ 8 * s.params.payDepth →
    ∃ t, exec .encode s = .next t ∧ Completed 0x04#8 none t ∧
      t.bitLen.toNat = (codeStream s.ctab s.inSymbols).length ∧
      t.payBytes.toNat = ((codeStream s.ctab s.inSymbols).length + 7) / 8 ∧
      (∀ j, j < t.payBytes.toNat → t.payByte j = (packBits (codeStream s.ctab s.inSymbols)).getD j 0#8) ∧
      (∀ j, t.payBytes.toNat ≤ j → t.payByte j = s.payByte j) ∧
      KeepsHostSide s t ∧ KeepsFreq s t ∧ KeepsTree s t ∧ KeepsCtab s t ∧ KeepsOut s t ∧ t.outLen = s.outLen

/-- R109 to R111, R128: at the first symbol that has no code, or whose code no longer fits, ENCODE raises MissingCode
or CapacityExceeded, MissingCode first, with ERR_INFO = (s << 16) | i, and zeroes BITLEN and PAY_BYTES. -/
def Obligations.EncodeStopsAtFirstBadSymbol : Prop :=
  ∀ (s : State) (i : Nat), s.params.wf = true → s.inLen.toNat ≤ s.params.inDepth → i < s.inLen.toNat →
    AllCoded s.ctab (s.inSymbols.take i) →
    (codeStream s.ctab (s.inSymbols.take i)).length ≤ 8 * s.params.payDepth →
    ((s.codeOf (s.inByte i)).len = 0#8 →
      ∃ t info, exec .encode s = .next t ∧ Completed 0x04#8 (some ⟨.missingCode, info⟩) t ∧
        info.toNat = 65536 * (s.inByte i).toNat + i ∧ t.bitLen = 0#32 ∧ t.payBytes = 0#32 ∧
        KeepsHostSide s t ∧ KeepsFreq s t ∧ KeepsTree s t ∧ KeepsCtab s t ∧ KeepsOut s t ∧ t.outLen = s.outLen) ∧
    ((s.codeOf (s.inByte i)).len ≠ 0#8 →
      8 * s.params.payDepth <
        (codeStream s.ctab (s.inSymbols.take i)).length + (s.codeOf (s.inByte i)).len.toNat →
      ∃ t info, exec .encode s = .next t ∧ Completed 0x04#8 (some ⟨.capacityExceeded, info⟩) t ∧
        info.toNat = 65536 * (s.inByte i).toNat + i ∧ t.bitLen = 0#32 ∧ t.payBytes = 0#32 ∧
        KeepsHostSide s t ∧ KeepsFreq s t ∧ KeepsTree s t ∧ KeepsCtab s t ∧ KeepsOut s t ∧ t.outLen = s.outLen)

/-- R112, and the pre-checks of R110 and R111: ENCODE with IN_LEN = 0 raises EmptyInput even when CTAB holds codes;
with IN_LEN > IN_DEPTH it raises CapacityExceeded; both zero the lengths and leave PAY unchanged. -/
def Obligations.EncodePreChecks : Prop :=
  ∀ s : State,
    (s.inLen = 0#32 →
      ∃ t, exec .encode s = .next t ∧ Completed 0x04#8 (some ⟨.emptyInput, 0#32⟩) t ∧ t.bitLen = 0#32 ∧
        t.payBytes = 0#32 ∧ KeepsPay s t ∧ KeepsHostSide s t ∧ KeepsFreq s t ∧ KeepsTree s t ∧ KeepsCtab s t ∧
        KeepsOut s t ∧ t.outLen = s.outLen) ∧
    (s.params.inDepth < s.inLen.toNat →
      ∃ t, exec .encode s = .next t ∧ Completed 0x04#8 (some ⟨.capacityExceeded, s.inLen⟩) t ∧ t.bitLen = 0#32 ∧
        t.payBytes = 0#32 ∧ KeepsPay s t ∧ KeepsHostSide s t ∧ KeepsFreq s t ∧ KeepsTree s t ∧ KeepsCtab s t ∧
        KeepsOut s t ∧ t.outLen = s.outLen)

/-- R113: after a successful ENCODE, (a) BITLEN is the sum of the code lengths over the input, (c) PAY_BYTES =
ceil(BITLEN/8), and (b) when CTAB came from COUNT, BUILD and GENCODES on the same input, BITLEN is the weighted path
length. -/
def Obligations.EncodeLengthLaws : Prop :=
  (∀ s t : State, s.params.wf = true → exec .encode s = .next t → t.errCode = 0#4 →
    t.bitLen.toNat = (s.inSymbols.map fun x => (s.codeOf x).len.toNat).sum ∧
    t.payBytes.toNat = (t.bitLen.toNat + 7) / 8) ∧
  (∀ s : State, s.params.wf = true → 1 ≤ s.inLen.toNat → s.inLen.toNat ≤ s.params.inDepth →
    ∃ a b c d, exec .count s = .next a ∧ exec .build a = .next b ∧ exec .gencodes b = .next c ∧
      exec .encode c = .next d ∧
      (d.errCode = 0#4 → d.bitLen.toNat =
        sumSymbols (fun x => (a.freqOf x).toNat * (c.codeOf x).len.toNat)))

/-! ## VALIDATE and DECODE -/

/-- R114, R115: VALIDATE succeeds exactly on a prefix-free table, and else raises InvalidCodeTable with ERR_INFO =
(t << 8) | s of the first pair; it changes nothing but the completion fields. -/
def Obligations.ValidateReportsFirstPair : Prop :=
  decodeWord 0x00000005#32 = .ok .validate ∧ ∀ s : State,
    (PrefixFree s.ctab → ∃ t, exec .validate s = .next t ∧ Completed 0x05#8 none t ∧ KeepsAll s t) ∧
    (∀ x y, FirstPair s.ctab x y →
      ∃ t info, exec .validate s = .next t ∧ Completed 0x05#8 (some ⟨.invalidCodeTable, info⟩) t ∧
        info.toNat = 256 * y.toNat + x.toNat ∧ KeepsAll s t) ∧
    (¬ PrefixFree s.ctab → ∃ x y, FirstPair s.ctab x y)

/-- R118: the payload length check of DECODE, made before any bit is read, with OUT_LEN zeroed and OUT unchanged
(R120). -/
def Obligations.DecodeLengthCheck : Prop :=
  ∀ s : State,
    (s.params.payDepth < s.payBytes.toNat →
      ∃ t, exec .decode s = .next t ∧ Completed 0x06#8 (some ⟨.capacityExceeded, s.payBytes⟩) t ∧
        t.outLen = 0#32 ∧ KeepsOut s t ∧ KeepsHostSide s t ∧ KeepsFreq s t ∧ KeepsTree s t ∧ KeepsCtab s t ∧
        KeepsPayLengths s t ∧ KeepsPay s t) ∧
    (s.payBytes.toNat ≤ s.params.payDepth →
      (8 * s.payBytes.toNat < s.bitLen.toNat ∨ s.payBytes.toNat ≠ (s.bitLen.toNat + 7) / 8) →
      ∃ t, exec .decode s = .next t ∧ Completed 0x06#8 (some ⟨.corruptArtifact, s.bitLen⟩) t ∧
        t.outLen = 0#32 ∧ KeepsOut s t ∧ KeepsHostSide s t ∧ KeepsFreq s t ∧ KeepsTree s t ∧ KeepsCtab s t ∧
        KeepsPayLengths s t ∧ KeepsPay s t)

/-- R119, R120: with consistent lengths, a table that is not prefix-free is rejected before any bit is read. -/
def Obligations.DecodeRejectsBadTable : Prop :=
  ∀ (s : State) (x y : Byte), LengthsOk s → FirstPair s.ctab x y →
    ∃ t info, exec .decode s = .next t ∧ Completed 0x06#8 (some ⟨.invalidCodeTable, info⟩) t ∧
      info.toNat = 256 * y.toNat + x.toNat ∧ t.outLen = 0#32 ∧ KeepsOut s t ∧ KeepsHostSide s t ∧ KeepsFreq s t ∧
      KeepsTree s t ∧ KeepsCtab s t ∧ KeepsPayLengths s t ∧ KeepsPay s t

/-- R119: DECODE of a stream that is the concatenation of the codes of a sequence of symbols completes and stores
that sequence, and no other byte of OUT changes. -/
def Obligations.DecodeInvertsCodeStream : Prop :=
  ∀ (s : State) (xs : List Byte), s.params.wf = true → LengthsOk s → PrefixFree s.ctab → AllCoded s.ctab xs →
    s.payBits = codeStream s.ctab xs → xs.length ≤ s.params.outDepth →
    ∃ t, exec .decode s = .next t ∧ Completed 0x06#8 none t ∧ t.outLen.toNat = xs.length ∧
      (∀ j, j < xs.length → t.outByte j = xs.getD j 0#8) ∧
      (∀ j, xs.length ≤ j → t.outByte j = s.outByte j) ∧
      KeepsHostSide s t ∧ KeepsFreq s t ∧ KeepsTree s t ∧ KeepsCtab s t ∧ KeepsPayLengths s t ∧ KeepsPay s t

/-- R119: when DECODE succeeds, the codes of the symbols it stored, concatenated, are exactly the BITLEN bits of the
payload: nothing is dropped or invented, and the lengths and the table had passed their checks. -/
def Obligations.DecodeSuccessIsExact : Prop :=
  ∀ s t : State, exec .decode s = .next t → t.errCode = 0#4 →
    LengthsOk s ∧ PrefixFree s.ctab ∧ t.outLen.toNat ≤ s.params.outDepth ∧
    AllCoded s.ctab ((List.range t.outLen.toNat).map t.outByte) ∧
    s.payBits = codeStream s.ctab ((List.range t.outLen.toNat).map t.outByte)

/-- R121: when the bits end in a non-empty remainder of which no prefix is a code, DECODE raises DecodeFailure with
ERR_INFO = the position where the remainder begins, and OUT_LEN = 0. -/
def Obligations.DecodeFailureAtUnmatchedEnd : Prop :=
  ∀ (s : State) (xs : List Byte) (rem : Bits), s.params.wf = true → LengthsOk s → PrefixFree s.ctab →
    AllCoded s.ctab xs → s.payBits = codeStream s.ctab xs ++ rem → rem ≠ [] →
    (∀ x, (s.codeOf x).len ≠ 0#8 → ¬ (s.codeOf x).bits <+: rem) → xs.length ≤ s.params.outDepth →
    ∃ t info, exec .decode s = .next t ∧ Completed 0x06#8 (some ⟨.decodeFailure, info⟩) t ∧
      info.toNat = (codeStream s.ctab xs).length ∧ t.outLen = 0#32 ∧
      KeepsHostSide s t ∧ KeepsFreq s t ∧ KeepsTree s t ∧ KeepsCtab s t ∧ KeepsPayLengths s t ∧ KeepsPay s t

/-- R122 (second cause): a symbol matched when OUT already holds OUT_DEPTH symbols raises CapacityExceeded with
ERR_INFO = the position where its code begins, and OUT_LEN = 0. -/
def Obligations.DecodeStopsWhenOutIsFull : Prop :=
  ∀ (s : State) (xs : List Byte) (x : Byte) (rest : Bits), s.params.wf = true → LengthsOk s → PrefixFree s.ctab →
    AllCoded s.ctab xs → (s.codeOf x).len ≠ 0#8 →
    s.payBits = codeStream s.ctab xs ++ (s.codeOf x).bits ++ rest → xs.length = s.params.outDepth →
    ∃ t info, exec .decode s = .next t ∧ Completed 0x06#8 (some ⟨.capacityExceeded, info⟩) t ∧
      info.toNat = (codeStream s.ctab xs).length ∧ t.outLen = 0#32 ∧
      KeepsHostSide s t ∧ KeepsFreq s t ∧ KeepsTree s t ∧ KeepsCtab s t ∧ KeepsPayLengths s t ∧ KeepsPay s t

/-- R117: bit p of the payload stream is bit (7 - p mod 8) of PAY[p div 8], and DECODE reads the bits below BITLEN and
no other: two states that agree on them give the same status, OUT_LEN and symbols, whatever the padding bits and the
rest of PAY hold. -/
def Obligations.DecodeReadsOnlyItsBits : Prop :=
  (∀ (s : State) (p : Nat), s.payBit p = (s.payByte (p / 8)).getLsbD (7 - p % 8)) ∧
  ∀ s s' : State, s' = { s with payBuf := s'.payBuf } →
    (∀ p, p < s.bitLen.toNat → s'.payBit p = s.payBit p) →
    ∃ t t', exec .decode s = .next t ∧ exec .decode s' = .next t' ∧ t'.errCode = t.errCode ∧
      t'.errInfo = t.errInfo ∧ t'.outLen = t.outLen ∧
      (t.errCode = 0#4 → ∀ j, j < t.outLen.toNat → t'.outByte j = t.outByte j)

/-- R39: the CODE bits at LEN and above are ignored by every command that reads CTAB: a table that differs only there
gives ENCODE, VALIDATE and DECODE the same status, lengths and, on success, the same PAY and OUT. -/
def Obligations.CodeTailIsIgnored : Prop :=
  ∀ (s : State) (ct : CodeTable),
    (∀ x, (tableGet ct x).len = (s.codeOf x).len ∧
      ∀ i, i < (s.codeOf x).len.toNat → (tableGet ct x).bit i = (s.codeOf x).bit i) →
    ∀ i ∈ [Instr.encode, .validate, .decode],
      ∃ t t', exec i s = .next t ∧ exec i { s with ctab := ct } = .next t' ∧ t'.errCode = t.errCode ∧
        t'.errInfo = t.errInfo ∧ t'.bitLen = t.bitLen ∧ t'.payBytes = t.payBytes ∧ t'.outLen = t.outLen ∧
        (t.errCode = 0#4 → (∀ j, t'.payByte j = t.payByte j) ∧ ∀ j, t'.outByte j = t.outByte j)

/-- R124: the round trip: COUNT, BUILD, GENCODES and ENCODE on a non-empty input can fail only by CapacityExceeded
in ENCODE, exactly when the payload needs more than PAY_DEPTH bytes, and when they succeed DECODE gives the input back, if OUT is
deep enough, from the state ENCODE leaves and from every state with the same depths, CTAB, BITLEN, PAY_BYTES and PAY
bytes below PAY_BYTES (so also after a reset and a reload of the artifact). -/
def Obligations.EncodeThenDecodeGivesInputBack : Prop :=
  ∀ s : State, s.params.wf = true → 1 ≤ s.inLen.toNat → s.inLen.toNat ≤ s.params.inDepth →
    ∃ a b c d, exec .count s = .next a ∧ a.errCode = 0#4 ∧ exec .build a = .next b ∧ b.errCode = 0#4 ∧
      exec .gencodes b = .next c ∧ c.errCode = 0#4 ∧ exec .encode c = .next d ∧
      (d.errCode = 0#4 ∨ d.errCode = CmdError.capacityExceeded.code) ∧
      (d.errCode = CmdError.capacityExceeded.code ↔
        s.params.payDepth < ((codeStream c.ctab s.inSymbols).length + 7) / 8) ∧
      (d.errCode = 0#4 → s.inLen.toNat ≤ s.params.outDepth →
        ∀ d' : State, d'.params = d.params → (∀ x, d'.codeOf x = d.codeOf x) → d'.bitLen = d.bitLen →
          d'.payBytes = d.payBytes → (∀ j, j < d.payBytes.toNat → d'.payByte j = d.payByte j) →
          ∃ e, exec .decode d' = .next e ∧ e.errCode = 0#4 ∧ e.outLen = s.inLen ∧
            ∀ j, j < s.inLen.toNat → e.outByte j = s.inByte j)

/-! ## The whole machine -/

/-- The state after reset meets the invariant, for every legal choice of the OPEN depths (R7, D10) and for the reference
depths that State.reset takes (the model's choice, log 3). -/
def Obligations.ResetMeetsInvariant : Prop :=
  (∀ p : Params, p.wf = true → Inv (State.powerOn p)) ∧ Inv State.reset

/-- Every step from a state that meets the invariant gives a state that meets it: legal depths, BUSY with DONE = ERR
= 0 (R20), legal error codes, a valid tree or none (R97), canonical buffers inside their depths, OUT_LEN within
OUT_DEPTH. -/
def Obligations.EveryStepKeepsInvariant : Prop :=
  ∀ s t : State, Inv s → step s = .next t → Inv t

/-- R83: nothing stops the machine: from every state that meets the invariant the step gives a next state, and a
command in progress completes at the engine's next event. Only GENCODES can fault at all, and only on a NODE content
that is no tree (the model's fault, log 7). -/
def Obligations.NoStepStops : Prop :=
  (∀ s : State, Inv s → ∃ t, step s = .next t) ∧
  (∀ (s : State) (w : Word), Inv s → s.phase = .busy w →
    ∃ t, engineStep s = .next t ∧ t.phase = .idle ∧ t.done = true ∧ t.lastOp.toNat = w.toNat % 256) ∧
  (∀ (i : Instr) (s : State) (f : Fault), exec i s = .fault f → i = .gencodes ∧ ¬ TreeShape s ∧ s.nodeCount ≠ 0#9)

/-- R76: after RUN of a command from phase IDLE, whatever the number of polls, the last read of STATUS shows DONE = 1,
BUSY = 0 and the command's opcode in LAST_OP (the placing of the engine's event is the model's, log 15). -/
def Obligations.RunReadsItsCommandDone : Prop :=
  ∀ (s : State) (i : Instr) (polls : Nat), Inv s → s.phase = .idle →
    ∃ t d, playEvents (runEvents i polls) s = .next t ∧ t.events = [] ∧ t.resp = some (.read .ok d) ∧
      d.getLsbD 0 = false ∧ d.getLsbD 1 = true ∧ d.toNat / 2 ^ 16 % 256 = i.opcode.toNat
end

