-- ==== Sys2Proof/Laws/Bits.lean ====
section
/-! SUPPORT. Bit vectors written from the most significant bit, the codes of CTAB, the packed bytes, and the words of
the window layouts. -/

namespace Sys2Proof.Machine

/-! ## `msbFirst` -/

theorem msbFirst_getMsbD (n : Nat) (f : Nat → Bool) (i : Nat) :
    (msbFirst n f).getMsbD i = (decide (i < n) && f i) := by
  induction n with
  | zero => simp [msbFirst]
  | succ n ih =>
    rw [msbFirst, BitVec.getMsbD_concat, ih]
    by_cases h : i < n
    · simp [h, Nat.lt_succ_of_lt h]
    · by_cases h' : i = n
      · simp [h']
      · have : ¬ i < n + 1 := by omega
        simp [this, h, h']

theorem msbFirst_eq_self {n : Nat} (v : BitVec n) : (msbFirst n fun i => v.getMsbD i) = v := by
  apply BitVec.eq_of_getMsbD_eq
  intro i hi
  simp [msbFirst_getMsbD, hi]

/-! ## Codes -/

@[simp] theorem CodeEntry.bits_length (e : CodeEntry) : e.bits.length = e.len.toNat := by
  simp [CodeEntry.bits]

theorem CodeEntry.bits_getElem (e : CodeEntry) (i : Nat) (h : i < e.bits.length) : e.bits[i] = e.bit i := by
  simp [CodeEntry.bits]

theorem CodeEntry.bit_ofBits (p : Bits) (i : Nat) :
    (CodeEntry.ofBits p).bit i = (decide (i < 255) && p.getD i false) := by
  simp [CodeEntry.ofBits, CodeEntry.bit, msbFirst_getMsbD]

theorem CodeEntry.len_ofBits (p : Bits) (h : p.length ≤ 255) : (CodeEntry.ofBits p).len.toNat = p.length := by
  simp only [CodeEntry.ofBits, BitVec.toNat_ofNat]
  omega

/-- A code of at most MAX_LEN bits survives CTAB (R39, R97 (f)). -/
theorem CodeEntry.bits_ofBits (p : Bits) (h : p.length ≤ 255) : (CodeEntry.ofBits p).bits = p := by
  apply List.ext_getElem
  · simp [CodeEntry.len_ofBits p h]
  · intro i h₁ h₂
    rw [CodeEntry.bits_getElem, CodeEntry.bit_ofBits]
    have : i < 255 := by omega
    simp [this, h₂]

@[simp] theorem CodeEntry.absent_bits : CodeEntry.absent.bits = [] := rfl

theorem CodeEntry.bits_eq_nil {e : CodeEntry} : e.bits = [] ↔ e.len = 0#8 := by
  rw [← List.length_eq_zero_iff, CodeEntry.bits_length]
  constructor
  · intro h; apply BitVec.eq_of_toNat_eq; simpa using h
  · intro h; simp [h]

theorem CodeEntry.len_pos {e : CodeEntry} : 1 ≤ e.len.toNat ↔ e.len ≠ 0#8 := by
  constructor
  · intro h he; simp [he] at h
  · intro h
    rcases Nat.eq_zero_or_pos e.len.toNat with h0 | h0
    · exact absurd (BitVec.eq_of_toNat_eq (by simpa using h0)) h
    · exact h0

/-- `clash` is the prefix relation on codes: one is a prefix of the other (R9, R114). -/
theorem CodeEntry.clash_iff {e f : CodeEntry} : e.clash f = true ↔
    1 ≤ e.len.toNat ∧ 1 ≤ f.len.toNat ∧ ∀ i, i < min e.len.toNat f.len.toNat → e.bit i = f.bit i := by
  simp only [CodeEntry.clash, Bool.and_eq_true, bne_iff_ne, List.all_eq_true, List.mem_range, beq_iff_eq,
    CodeEntry.len_pos]
  tauto

theorem CodeEntry.clash_iff_prefix {e f : CodeEntry} : e.clash f = true ↔
    e.len ≠ 0#8 ∧ f.len ≠ 0#8 ∧ (e.bits <+: f.bits ∨ f.bits <+: e.bits) := by
  rw [CodeEntry.clash_iff, CodeEntry.len_pos, CodeEntry.len_pos]
  refine and_congr_right fun _ => and_congr_right fun _ => ?_
  constructor
  · intro h
    rcases Nat.le_total e.len.toNat f.len.toNat with hl | hl
    · left
      rw [List.prefix_iff_getElem]
      refine ⟨by simpa using hl, fun i hi => ?_⟩
      rw [CodeEntry.bits_getElem, CodeEntry.bits_getElem]
      exact h i (by simp at hi; omega)
    · right
      rw [List.prefix_iff_getElem]
      refine ⟨by simpa using hl, fun i hi => ?_⟩
      rw [CodeEntry.bits_getElem, CodeEntry.bits_getElem]
      exact (h i (by simp at hi; omega)).symm
  · intro h i hi
    rcases h with h | h <;> rw [List.prefix_iff_getElem] at h <;> obtain ⟨hl, hp⟩ := h
    · have := hp i (by simp; omega)
      rwa [CodeEntry.bits_getElem, CodeEntry.bits_getElem] at this
    · have := hp i (by simp; omega)
      rw [CodeEntry.bits_getElem, CodeEntry.bits_getElem] at this
      exact this.symm

theorem CodeEntry.matches_iff {e : CodeEntry} {acc : Bits} : e.matches acc = true ↔ e.bits = acc := by
  simp only [CodeEntry.matches, Bool.and_eq_true, beq_iff_eq, and_iff_right_iff_imp]
  intro h
  rw [← h, CodeEntry.bits_length]

/-! ## The packed payload (R107) -/

theorem packBits_length (bits : Bits) : (packBits bits).length = ceilDiv8 bits.length := by simp [packBits]

theorem packByte_getMsbD (bits : Bits) (j m : Nat) (hm : m < 8) :
    (packByte bits j).getMsbD m = bits.getD (8 * j + m) false := by
  simp [packByte, msbFirst_getMsbD, hm]

theorem packBits_getElem (bits : Bits) (j : Nat) (h : j < (packBits bits).length) :
    (packBits bits)[j] = packByte bits j := by
  simp [packBits]

theorem ceilDiv8_le {n k : Nat} : ceilDiv8 n ≤ k ↔ n ≤ 8 * k := by unfold ceilDiv8; omega

theorem lt_of_div_lt_ceilDiv8 {n p : Nat} (h : p < n) : p / 8 < ceilDiv8 n := by unfold ceilDiv8; omega

/-! ## The window words -/

theorem CodeEntry.bit_setWord (e : CodeEntry) (w : Nat) (v : Word) (i : Nat) (hw : 1 ≤ w) :
    (e.setWord w v).bit i =
      (decide (i < 255) && if i / 32 = w - 1 then v.getMsbD (i % 32) else e.bit i) := by
  have : w ≠ 0 := by omega
  simp [CodeEntry.setWord, this, CodeEntry.bit, msbFirst_getMsbD]

theorem CodeEntry.len_setWord (e : CodeEntry) (w : Nat) (v : Word) (hw : 1 ≤ w) :
    (e.setWord w v).len = e.len := by
  have : w ≠ 0 := by omega
  simp [CodeEntry.setWord, this]

theorem CodeEntry.word_getMsbD (e : CodeEntry) (w m : Nat) (hw : 1 ≤ w) (hm : m < 32) :
    (e.word w).getMsbD m = e.bit (32 * (w - 1) + m) := by
  have : w ≠ 0 := by omega
  simp [CodeEntry.word, this, msbFirst_getMsbD, hm]

theorem wordOfBytes_getLsbD (b₀ b₁ b₂ b₃ : Byte) (i : Nat) :
    (wordOfBytes b₀ b₁ b₂ b₃).getLsbD i =
      if i < 8 then b₀.getLsbD i else if i < 16 then b₁.getLsbD (i - 8)
      else if i < 24 then b₂.getLsbD (i - 16) else b₃.getLsbD (i - 24) := by
  change BitVec.getLsbD (w := 8 + 8 + 8 + 8) (b₃ ++ b₂ ++ b₁ ++ b₀) i = _
  simp only [BitVec.getLsbD_append]
  have h : i < 8 ∨ (8 ≤ i ∧ i < 16) ∨ (16 ≤ i ∧ i < 24) ∨ 24 ≤ i := by omega
  rcases h with h | h | h | h
  · simp only [h, if_true]
  · have h1 : ¬ i < 8 := by omega
    have h2 : i - 8 < 8 := by omega
    simp only [h1, h2, h.2, if_false]; simp
  · have h1 : ¬ i < 8 := by omega
    have h2 : ¬ i - 8 < 8 := by omega
    have h3 : i - 8 - 8 < 8 := by omega
    have h4 : ¬ i < 16 := by omega
    have h5 : i - 8 - 8 = i - 16 := by omega
    simp only [h1, h2, h3, h4, h.2, if_false]; simp [h5]
  · have h1 : ¬ i < 8 := by omega
    have h2 : ¬ i - 8 < 8 := by omega
    have h3 : ¬ i - 8 - 8 < 8 := by omega
    have h4 : ¬ i < 16 := by omega
    have h5 : ¬ i < 24 := by omega
    have h6 : i - 8 - 8 - 8 = i - 24 := by omega
    simp only [h1, h2, h3, h4, h5, if_false]; simp [h6]

/-- The four bytes of a word, put together again, are the word (R54). -/
theorem wordOfBytes_byteOfWord (v : Word) :
    wordOfBytes (byteOfWord v 0) (byteOfWord v 1) (byteOfWord v 2) (byteOfWord v 3) = v := by
  apply BitVec.eq_of_getLsbD_eq
  intro i hi
  rw [wordOfBytes_getLsbD]
  simp only [byteOfWord, BitVec.getLsbD_extractLsb']
  split
  · simp_all
  · split
    · have h1 : i - 8 < 8 := by omega
      have h2 : 8 * 1 + (i - 8) = i := by omega
      simp only [h1, h2]; simp
    · split
      · have h1 : i - 16 < 8 := by omega
        have h2 : 8 * 2 + (i - 16) = i := by omega
        simp only [h1, h2]; simp
      · have h1 : i - 24 < 8 := by omega
        have h2 : 8 * 3 + (i - 24) = i := by omega
        simp only [h1, h2]; simp

theorem byteOfWord_wordOfBytes (b₀ b₁ b₂ b₃ : Byte) (k : Nat) (hk : k < 4) :
    byteOfWord (wordOfBytes b₀ b₁ b₂ b₃) k = if k = 0 then b₀ else if k = 1 then b₁ else if k = 2 then b₂ else b₃ := by
  apply BitVec.eq_of_getLsbD_eq
  intro i hi
  simp only [byteOfWord, BitVec.getLsbD_extractLsb', hi, decide_true, Bool.true_and, wordOfBytes_getLsbD]
  obtain rfl | rfl | rfl | rfl : k = 0 ∨ k = 1 ∨ k = 2 ∨ k = 3 := by omega
  · simp [hi]
  · have h2 : 8 * 1 + i - 8 = i := by omega
    have : 8 * 1 + i < 16 := by omega
    have h' : ¬ 8 * 1 + i < 8 := by omega
    simp only [h2, this, h']; simp
  · have h2 : 8 * 2 + i - 16 = i := by omega
    have : 8 * 2 + i < 24 := by omega
    have h' : ¬ 8 * 2 + i < 8 := by omega
    have h'' : ¬ 8 * 2 + i < 16 := by omega
    simp only [h2, this, h', h'']; simp
  · have h2 : 8 * 3 + i - 24 = i := by omega
    have : ¬ 8 * 3 + i < 24 := by omega
    have h' : ¬ 8 * 3 + i < 8 := by omega
    have h'' : ¬ 8 * 3 + i < 16 := by omega
    simp only [h2, this, h', h'']; simp

theorem toNat_append_add {n m : Nat} (x : BitVec n) (y : BitVec m) :
    (x ++ y).toNat = x.toNat * 2 ^ m + y.toNat := by
  rw [BitVec.toNat_append, ← Nat.shiftLeft_add_eq_or_of_lt y.isLt, Nat.shiftLeft_eq]

/-- STATUS as a number, field by field (R19). -/
theorem State.statusWord_toNat (s : State) : s.statusWord.toNat =
    s.busyBit.toNat + 2 * s.done.toNat + 4 * s.errBit.toNat + 256 * s.errCode.toNat + 65536 * s.lastOp.toNat := by
  change BitVec.toNat (w := 8 + 8 + 4 + 4 + 5 + 1 + 1 + 1) (0#8 ++ s.lastOp ++ 0#4 ++ s.errCode ++ 0#5 ++
    BitVec.ofBool s.errBit ++ BitVec.ofBool s.done ++ BitVec.ofBool s.busyBit) = _
  simp only [toNat_append_add, BitVec.toNat_ofBool, BitVec.toNat_ofNat]
  omega

theorem State.intEnWord_toNat (s : State) : s.intEnWord.toNat = s.doneIe.toNat := by
  change BitVec.toNat (w := 31 + 1) (0#31 ++ BitVec.ofBool s.doneIe) = _
  simp only [toNat_append_add, BitVec.toNat_ofBool, BitVec.toNat_ofNat]
  omega

theorem State.intStatWord_toNat (s : State) : s.intStatWord.toNat = s.doneIp.toNat := by
  change BitVec.toNat (w := 31 + 1) (0#31 ++ BitVec.ofBool s.doneIp) = _
  simp only [toNat_append_add, BitVec.toNat_ofBool, BitVec.toNat_ofNat]
  omega

/-- ERR_INFO of InvalidCodeTable as a number (R127). -/
theorem pairInfo_toNat (x y : Byte) : (pairInfo x y).toNat = 256 * y.toNat + x.toNat := by
  change BitVec.toNat (w := 16 + 8 + 8) (0#16 ++ y ++ x) = _
  simp only [toNat_append_add, BitVec.toNat_ofNat]
  omega

/-- ERR_INFO of an error at a symbol as a number, for an input index that fits (R127). -/
theorem symbolInfo_toNat (x : Byte) (i : Nat) (hi : i < 65536) :
    (symbolInfo x i).toNat = 65536 * x.toNat + i := by
  have hx := x.isLt
  simp only [symbolInfo, BitVec.toNat_or, BitVec.toNat_shiftLeft, BitVec.toNat_setWidth, BitVec.toNat_ofNat]
  rw [Nat.mod_eq_of_lt (show x.toNat < 2 ^ 32 by omega), Nat.shiftLeft_eq,
    Nat.mod_eq_of_lt (show x.toNat * 2 ^ 16 < 2 ^ 32 by omega), Nat.mod_eq_of_lt (show i < 2 ^ 32 by omega),
    ← Nat.shiftLeft_eq, ← Nat.shiftLeft_add_eq_or_of_lt (show i < 2 ^ 16 by omega), Nat.shiftLeft_eq]
  omega

end Sys2Proof.Machine
end

