-- ==== Sys2Proof/Laws/State.lean ====
section
/-! SUPPORT. The state record: one lemma per field per shared update, true by rfl, so that no later proof unfolds an
update; and what the computed views make of each update. -/

namespace Sys2Proof.Machine

/-! ## `accept` -/

@[simp] theorem State.accept_params (s : State) (w : Word) : (s.accept w).params = s.params := rfl
@[simp] theorem State.accept_phase (s : State) (w : Word) : (s.accept w).phase = .busy w := rfl
@[simp] theorem State.accept_done (s : State) (w : Word) : (s.accept w).done = false := rfl
@[simp] theorem State.accept_errCode (s : State) (w : Word) : (s.accept w).errCode = 0#4 := rfl
@[simp] theorem State.accept_lastOp (s : State) (w : Word) : (s.accept w).lastOp = s.lastOp := rfl
@[simp] theorem State.accept_inLen (s : State) (w : Word) : (s.accept w).inLen = s.inLen := rfl
@[simp] theorem State.accept_bitLen (s : State) (w : Word) : (s.accept w).bitLen = s.bitLen := rfl
@[simp] theorem State.accept_payBytes (s : State) (w : Word) : (s.accept w).payBytes = s.payBytes := rfl
@[simp] theorem State.accept_outLen (s : State) (w : Word) : (s.accept w).outLen = s.outLen := rfl
@[simp] theorem State.accept_nsym (s : State) (w : Word) : (s.accept w).nsym = s.nsym := rfl
@[simp] theorem State.accept_root (s : State) (w : Word) : (s.accept w).root = s.root := rfl
@[simp] theorem State.accept_nodeCount (s : State) (w : Word) : (s.accept w).nodeCount = s.nodeCount := rfl
@[simp] theorem State.accept_errInfo (s : State) (w : Word) : (s.accept w).errInfo = s.errInfo := rfl
@[simp] theorem State.accept_doneIe (s : State) (w : Word) : (s.accept w).doneIe = s.doneIe := rfl
@[simp] theorem State.accept_doneIp (s : State) (w : Word) : (s.accept w).doneIp = s.doneIp := rfl
@[simp] theorem State.accept_freq (s : State) (w : Word) : (s.accept w).freq = s.freq := rfl
@[simp] theorem State.accept_node (s : State) (w : Word) : (s.accept w).node = s.node := rfl
@[simp] theorem State.accept_ctab (s : State) (w : Word) : (s.accept w).ctab = s.ctab := rfl
@[simp] theorem State.accept_inBuf (s : State) (w : Word) : (s.accept w).inBuf = s.inBuf := rfl
@[simp] theorem State.accept_payBuf (s : State) (w : Word) : (s.accept w).payBuf = s.payBuf := rfl
@[simp] theorem State.accept_outBuf (s : State) (w : Word) : (s.accept w).outBuf = s.outBuf := rfl
@[simp] theorem State.accept_draws (s : State) (w : Word) : (s.accept w).draws = s.draws + 1 := rfl
@[simp] theorem State.accept_events (s : State) (w : Word) : (s.accept w).events = s.events := rfl
@[simp] theorem State.accept_resp (s : State) (w : Word) : (s.accept w).resp = s.resp := rfl

/-! ## `complete` -/

@[simp] theorem State.complete_params (s : State) (op : Byte) (e : Option Raised) : (s.complete op e).params = s.params := rfl
@[simp] theorem State.complete_phase (s : State) (op : Byte) (e : Option Raised) : (s.complete op e).phase = .idle := rfl
@[simp] theorem State.complete_done (s : State) (op : Byte) (e : Option Raised) : (s.complete op e).done = true := rfl
@[simp] theorem State.complete_errCode (s : State) (op : Byte) (e : Option Raised) : (s.complete op e).errCode = errCodeOf e := rfl
@[simp] theorem State.complete_lastOp (s : State) (op : Byte) (e : Option Raised) : (s.complete op e).lastOp = op := rfl
@[simp] theorem State.complete_inLen (s : State) (op : Byte) (e : Option Raised) : (s.complete op e).inLen = s.inLen := rfl
@[simp] theorem State.complete_bitLen (s : State) (op : Byte) (e : Option Raised) : (s.complete op e).bitLen = s.bitLen := rfl
@[simp] theorem State.complete_payBytes (s : State) (op : Byte) (e : Option Raised) : (s.complete op e).payBytes = s.payBytes := rfl
@[simp] theorem State.complete_outLen (s : State) (op : Byte) (e : Option Raised) : (s.complete op e).outLen = s.outLen := rfl
@[simp] theorem State.complete_nsym (s : State) (op : Byte) (e : Option Raised) : (s.complete op e).nsym = s.nsym := rfl
@[simp] theorem State.complete_root (s : State) (op : Byte) (e : Option Raised) : (s.complete op e).root = s.root := rfl
@[simp] theorem State.complete_nodeCount (s : State) (op : Byte) (e : Option Raised) : (s.complete op e).nodeCount = s.nodeCount := rfl
@[simp] theorem State.complete_errInfo (s : State) (op : Byte) (e : Option Raised) : (s.complete op e).errInfo = errInfoOf e := rfl
@[simp] theorem State.complete_doneIe (s : State) (op : Byte) (e : Option Raised) : (s.complete op e).doneIe = s.doneIe := rfl
@[simp] theorem State.complete_doneIp (s : State) (op : Byte) (e : Option Raised) : (s.complete op e).doneIp = true := rfl
@[simp] theorem State.complete_freq (s : State) (op : Byte) (e : Option Raised) : (s.complete op e).freq = s.freq := rfl
@[simp] theorem State.complete_node (s : State) (op : Byte) (e : Option Raised) : (s.complete op e).node = s.node := rfl
@[simp] theorem State.complete_ctab (s : State) (op : Byte) (e : Option Raised) : (s.complete op e).ctab = s.ctab := rfl
@[simp] theorem State.complete_inBuf (s : State) (op : Byte) (e : Option Raised) : (s.complete op e).inBuf = s.inBuf := rfl
@[simp] theorem State.complete_payBuf (s : State) (op : Byte) (e : Option Raised) : (s.complete op e).payBuf = s.payBuf := rfl
@[simp] theorem State.complete_outBuf (s : State) (op : Byte) (e : Option Raised) : (s.complete op e).outBuf = s.outBuf := rfl
@[simp] theorem State.complete_draws (s : State) (op : Byte) (e : Option Raised) : (s.complete op e).draws = s.draws + 1 := rfl
@[simp] theorem State.complete_events (s : State) (op : Byte) (e : Option Raised) : (s.complete op e).events = s.events := rfl
@[simp] theorem State.complete_resp (s : State) (op : Byte) (e : Option Raised) : (s.complete op e).resp = s.resp := rfl

/-! ## `nextDraw` -/

@[simp] theorem State.nextDraw_params (s : State) : (s.nextDraw).params = s.params := rfl
@[simp] theorem State.nextDraw_phase (s : State) : (s.nextDraw).phase = s.phase := rfl
@[simp] theorem State.nextDraw_done (s : State) : (s.nextDraw).done = s.done := rfl
@[simp] theorem State.nextDraw_errCode (s : State) : (s.nextDraw).errCode = s.errCode := rfl
@[simp] theorem State.nextDraw_lastOp (s : State) : (s.nextDraw).lastOp = s.lastOp := rfl
@[simp] theorem State.nextDraw_inLen (s : State) : (s.nextDraw).inLen = s.inLen := rfl
@[simp] theorem State.nextDraw_bitLen (s : State) : (s.nextDraw).bitLen = s.bitLen := rfl
@[simp] theorem State.nextDraw_payBytes (s : State) : (s.nextDraw).payBytes = s.payBytes := rfl
@[simp] theorem State.nextDraw_outLen (s : State) : (s.nextDraw).outLen = s.outLen := rfl
@[simp] theorem State.nextDraw_nsym (s : State) : (s.nextDraw).nsym = s.nsym := rfl
@[simp] theorem State.nextDraw_root (s : State) : (s.nextDraw).root = s.root := rfl
@[simp] theorem State.nextDraw_nodeCount (s : State) : (s.nextDraw).nodeCount = s.nodeCount := rfl
@[simp] theorem State.nextDraw_errInfo (s : State) : (s.nextDraw).errInfo = s.errInfo := rfl
@[simp] theorem State.nextDraw_doneIe (s : State) : (s.nextDraw).doneIe = s.doneIe := rfl
@[simp] theorem State.nextDraw_doneIp (s : State) : (s.nextDraw).doneIp = s.doneIp := rfl
@[simp] theorem State.nextDraw_freq (s : State) : (s.nextDraw).freq = s.freq := rfl
@[simp] theorem State.nextDraw_node (s : State) : (s.nextDraw).node = s.node := rfl
@[simp] theorem State.nextDraw_ctab (s : State) : (s.nextDraw).ctab = s.ctab := rfl
@[simp] theorem State.nextDraw_inBuf (s : State) : (s.nextDraw).inBuf = s.inBuf := rfl
@[simp] theorem State.nextDraw_payBuf (s : State) : (s.nextDraw).payBuf = s.payBuf := rfl
@[simp] theorem State.nextDraw_outBuf (s : State) : (s.nextDraw).outBuf = s.outBuf := rfl
@[simp] theorem State.nextDraw_draws (s : State) : (s.nextDraw).draws = s.draws + 1 := rfl
@[simp] theorem State.nextDraw_events (s : State) : (s.nextDraw).events = s.events := rfl
@[simp] theorem State.nextDraw_resp (s : State) : (s.nextDraw).resp = s.resp := rfl

/-! ## `finishInit` -/

@[simp] theorem State.finishInit_params (s : State) : (s.finishInit).params = s.params := rfl
@[simp] theorem State.finishInit_phase (s : State) : (s.finishInit).phase = .idle := rfl
@[simp] theorem State.finishInit_done (s : State) : (s.finishInit).done = s.done := rfl
@[simp] theorem State.finishInit_errCode (s : State) : (s.finishInit).errCode = s.errCode := rfl
@[simp] theorem State.finishInit_lastOp (s : State) : (s.finishInit).lastOp = s.lastOp := rfl
@[simp] theorem State.finishInit_inLen (s : State) : (s.finishInit).inLen = s.inLen := rfl
@[simp] theorem State.finishInit_bitLen (s : State) : (s.finishInit).bitLen = s.bitLen := rfl
@[simp] theorem State.finishInit_payBytes (s : State) : (s.finishInit).payBytes = s.payBytes := rfl
@[simp] theorem State.finishInit_outLen (s : State) : (s.finishInit).outLen = s.outLen := rfl
@[simp] theorem State.finishInit_nsym (s : State) : (s.finishInit).nsym = s.nsym := rfl
@[simp] theorem State.finishInit_root (s : State) : (s.finishInit).root = s.root := rfl
@[simp] theorem State.finishInit_nodeCount (s : State) : (s.finishInit).nodeCount = s.nodeCount := rfl
@[simp] theorem State.finishInit_errInfo (s : State) : (s.finishInit).errInfo = s.errInfo := rfl
@[simp] theorem State.finishInit_doneIe (s : State) : (s.finishInit).doneIe = s.doneIe := rfl
@[simp] theorem State.finishInit_doneIp (s : State) : (s.finishInit).doneIp = s.doneIp := rfl
@[simp] theorem State.finishInit_freq (s : State) : (s.finishInit).freq = tableOf 0#32 := rfl
@[simp] theorem State.finishInit_node (s : State) : (s.finishInit).node = s.node := rfl
@[simp] theorem State.finishInit_ctab (s : State) : (s.finishInit).ctab = tableOf CodeEntry.absent := rfl
@[simp] theorem State.finishInit_inBuf (s : State) : (s.finishInit).inBuf = s.inBuf := rfl
@[simp] theorem State.finishInit_payBuf (s : State) : (s.finishInit).payBuf = s.payBuf := rfl
@[simp] theorem State.finishInit_outBuf (s : State) : (s.finishInit).outBuf = s.outBuf := rfl
@[simp] theorem State.finishInit_draws (s : State) : (s.finishInit).draws = s.draws + 1 := rfl
@[simp] theorem State.finishInit_events (s : State) : (s.finishInit).events = s.events := rfl
@[simp] theorem State.finishInit_resp (s : State) : (s.finishInit).resp = s.resp := rfl

/-! ## `applyReset` -/

@[simp] theorem State.applyReset_params (s : State) : (s.applyReset).params = s.params := rfl
@[simp] theorem State.applyReset_phase (s : State) : (s.applyReset).phase = .init := rfl
@[simp] theorem State.applyReset_done (s : State) : (s.applyReset).done = false := rfl
@[simp] theorem State.applyReset_errCode (s : State) : (s.applyReset).errCode = 0#4 := rfl
@[simp] theorem State.applyReset_lastOp (s : State) : (s.applyReset).lastOp = 0#8 := rfl
@[simp] theorem State.applyReset_inLen (s : State) : (s.applyReset).inLen = 0#32 := rfl
@[simp] theorem State.applyReset_bitLen (s : State) : (s.applyReset).bitLen = 0#32 := rfl
@[simp] theorem State.applyReset_payBytes (s : State) : (s.applyReset).payBytes = 0#32 := rfl
@[simp] theorem State.applyReset_outLen (s : State) : (s.applyReset).outLen = 0#32 := rfl
@[simp] theorem State.applyReset_nsym (s : State) : (s.applyReset).nsym = 0#9 := rfl
@[simp] theorem State.applyReset_root (s : State) : (s.applyReset).root = 0#9 := rfl
@[simp] theorem State.applyReset_nodeCount (s : State) : (s.applyReset).nodeCount = 0#9 := rfl
@[simp] theorem State.applyReset_errInfo (s : State) : (s.applyReset).errInfo = 0#32 := rfl
@[simp] theorem State.applyReset_doneIe (s : State) : (s.applyReset).doneIe = false := rfl
@[simp] theorem State.applyReset_doneIp (s : State) : (s.applyReset).doneIp = false := rfl
@[simp] theorem State.applyReset_freq (s : State) : (s.applyReset).freq = s.freq := rfl
@[simp] theorem State.applyReset_node (s : State) : (s.applyReset).node = [] := rfl
@[simp] theorem State.applyReset_ctab (s : State) : (s.applyReset).ctab = s.ctab := rfl
@[simp] theorem State.applyReset_inBuf (s : State) : (s.applyReset).inBuf = Memory.drawn s.draws := rfl
@[simp] theorem State.applyReset_payBuf (s : State) : (s.applyReset).payBuf = Memory.drawn s.draws := rfl
@[simp] theorem State.applyReset_outBuf (s : State) : (s.applyReset).outBuf = Memory.drawn s.draws := rfl
@[simp] theorem State.applyReset_draws (s : State) : (s.applyReset).draws = s.draws + 1 := rfl
@[simp] theorem State.applyReset_events (s : State) : (s.applyReset).events = s.events := rfl
@[simp] theorem State.applyReset_resp (s : State) : (s.applyReset).resp = none := rfl

/-! ## `clearPayload` -/

@[simp] theorem State.clearPayload_params (s : State) : (s.clearPayload).params = s.params := rfl
@[simp] theorem State.clearPayload_phase (s : State) : (s.clearPayload).phase = s.phase := rfl
@[simp] theorem State.clearPayload_done (s : State) : (s.clearPayload).done = s.done := rfl
@[simp] theorem State.clearPayload_errCode (s : State) : (s.clearPayload).errCode = s.errCode := rfl
@[simp] theorem State.clearPayload_lastOp (s : State) : (s.clearPayload).lastOp = s.lastOp := rfl
@[simp] theorem State.clearPayload_inLen (s : State) : (s.clearPayload).inLen = s.inLen := rfl
@[simp] theorem State.clearPayload_bitLen (s : State) : (s.clearPayload).bitLen = 0#32 := rfl
@[simp] theorem State.clearPayload_payBytes (s : State) : (s.clearPayload).payBytes = 0#32 := rfl
@[simp] theorem State.clearPayload_outLen (s : State) : (s.clearPayload).outLen = s.outLen := rfl
@[simp] theorem State.clearPayload_nsym (s : State) : (s.clearPayload).nsym = s.nsym := rfl
@[simp] theorem State.clearPayload_root (s : State) : (s.clearPayload).root = s.root := rfl
@[simp] theorem State.clearPayload_nodeCount (s : State) : (s.clearPayload).nodeCount = s.nodeCount := rfl
@[simp] theorem State.clearPayload_errInfo (s : State) : (s.clearPayload).errInfo = s.errInfo := rfl
@[simp] theorem State.clearPayload_doneIe (s : State) : (s.clearPayload).doneIe = s.doneIe := rfl
@[simp] theorem State.clearPayload_doneIp (s : State) : (s.clearPayload).doneIp = s.doneIp := rfl
@[simp] theorem State.clearPayload_freq (s : State) : (s.clearPayload).freq = s.freq := rfl
@[simp] theorem State.clearPayload_node (s : State) : (s.clearPayload).node = s.node := rfl
@[simp] theorem State.clearPayload_ctab (s : State) : (s.clearPayload).ctab = s.ctab := rfl
@[simp] theorem State.clearPayload_inBuf (s : State) : (s.clearPayload).inBuf = s.inBuf := rfl
@[simp] theorem State.clearPayload_payBuf (s : State) : (s.clearPayload).payBuf = s.payBuf := rfl
@[simp] theorem State.clearPayload_outBuf (s : State) : (s.clearPayload).outBuf = s.outBuf := rfl
@[simp] theorem State.clearPayload_draws (s : State) : (s.clearPayload).draws = s.draws := rfl
@[simp] theorem State.clearPayload_events (s : State) : (s.clearPayload).events = s.events := rfl
@[simp] theorem State.clearPayload_resp (s : State) : (s.clearPayload).resp = s.resp := rfl

/-! ## `clearOutput` -/

@[simp] theorem State.clearOutput_params (s : State) : (s.clearOutput).params = s.params := rfl
@[simp] theorem State.clearOutput_phase (s : State) : (s.clearOutput).phase = s.phase := rfl
@[simp] theorem State.clearOutput_done (s : State) : (s.clearOutput).done = s.done := rfl
@[simp] theorem State.clearOutput_errCode (s : State) : (s.clearOutput).errCode = s.errCode := rfl
@[simp] theorem State.clearOutput_lastOp (s : State) : (s.clearOutput).lastOp = s.lastOp := rfl
@[simp] theorem State.clearOutput_inLen (s : State) : (s.clearOutput).inLen = s.inLen := rfl
@[simp] theorem State.clearOutput_bitLen (s : State) : (s.clearOutput).bitLen = s.bitLen := rfl
@[simp] theorem State.clearOutput_payBytes (s : State) : (s.clearOutput).payBytes = s.payBytes := rfl
@[simp] theorem State.clearOutput_outLen (s : State) : (s.clearOutput).outLen = 0#32 := rfl
@[simp] theorem State.clearOutput_nsym (s : State) : (s.clearOutput).nsym = s.nsym := rfl
@[simp] theorem State.clearOutput_root (s : State) : (s.clearOutput).root = s.root := rfl
@[simp] theorem State.clearOutput_nodeCount (s : State) : (s.clearOutput).nodeCount = s.nodeCount := rfl
@[simp] theorem State.clearOutput_errInfo (s : State) : (s.clearOutput).errInfo = s.errInfo := rfl
@[simp] theorem State.clearOutput_doneIe (s : State) : (s.clearOutput).doneIe = s.doneIe := rfl
@[simp] theorem State.clearOutput_doneIp (s : State) : (s.clearOutput).doneIp = s.doneIp := rfl
@[simp] theorem State.clearOutput_freq (s : State) : (s.clearOutput).freq = s.freq := rfl
@[simp] theorem State.clearOutput_node (s : State) : (s.clearOutput).node = s.node := rfl
@[simp] theorem State.clearOutput_ctab (s : State) : (s.clearOutput).ctab = s.ctab := rfl
@[simp] theorem State.clearOutput_inBuf (s : State) : (s.clearOutput).inBuf = s.inBuf := rfl
@[simp] theorem State.clearOutput_payBuf (s : State) : (s.clearOutput).payBuf = s.payBuf := rfl
@[simp] theorem State.clearOutput_outBuf (s : State) : (s.clearOutput).outBuf = s.outBuf := rfl
@[simp] theorem State.clearOutput_draws (s : State) : (s.clearOutput).draws = s.draws := rfl
@[simp] theorem State.clearOutput_events (s : State) : (s.clearOutput).events = s.events := rfl
@[simp] theorem State.clearOutput_resp (s : State) : (s.clearOutput).resp = s.resp := rfl

/-! ## The computed views -/

@[simp] theorem State.complete_busyBit (s : State) (op : Byte) (e : Option Raised) :
    (s.complete op e).busyBit = false := rfl

@[simp] theorem State.accept_busyBit (s : State) (w : Word) : (s.accept w).busyBit = true := rfl

@[simp] theorem State.finishInit_busyBit (s : State) : s.finishInit.busyBit = false := rfl

@[simp] theorem State.applyReset_busyBit (s : State) : s.applyReset.busyBit = true := rfl

/-- Every error has a code of its own, and none has code 0 (R125, R126). -/
theorem CmdError.code_ne_zero (e : CmdError) : e.code ≠ 0#4 := by cases e <;> decide

theorem CmdError.code_inj (a b : CmdError) (h : a.code = b.code) : a = b := by
  cases a <;> cases b <;> first | rfl | exact absurd h (by decide)

/-- V2: no error code is above 8. -/
theorem CmdError.code_le (e : CmdError) : e.code.toNat ≤ 8 := by cases e <;> decide

theorem errCodeOf_le (e : Option Raised) : (errCodeOf e).toNat ≤ 8 := by
  cases e with
  | none => decide
  | some r => exact r.error.code_le

theorem errCodeOf_eq_zero {e : Option Raised} : errCodeOf e = 0#4 ↔ e = none := by
  cases e with
  | none => exact ⟨fun _ => rfl, fun _ => rfl⟩
  | some r => exact ⟨fun h => absurd h r.error.code_ne_zero, fun h => nomatch h⟩

@[simp] theorem State.complete_errBit (s : State) (op : Byte) (e : Option Raised) :
    (s.complete op e).errBit = e.isSome := by
  cases e with
  | none => rfl
  | some r => simp [State.errBit, errCodeOf, r.error.code_ne_zero]

/-- An operand read does not see an update of other fields. -/
@[simp] theorem State.complete_inByte (s : State) (op : Byte) (e : Option Raised) (i : Nat) :
    (s.complete op e).inByte i = s.inByte i := rfl

@[simp] theorem State.complete_payByte (s : State) (op : Byte) (e : Option Raised) (i : Nat) :
    (s.complete op e).payByte i = s.payByte i := rfl

@[simp] theorem State.complete_outByte (s : State) (op : Byte) (e : Option Raised) (i : Nat) :
    (s.complete op e).outByte i = s.outByte i := rfl

@[simp] theorem State.complete_freqOf (s : State) (op : Byte) (e : Option Raised) (x : Byte) :
    (s.complete op e).freqOf x = s.freqOf x := rfl

@[simp] theorem State.complete_codeOf (s : State) (op : Byte) (e : Option Raised) (x : Byte) :
    (s.complete op e).codeOf x = s.codeOf x := rfl

end Sys2Proof.Machine
end

