-- ==== Sys2Proof/Laws/Bus.lean ====
section
/-! SUPPORT. What a bus transaction can do, said once (20_memory.md R47 to R52). -/

namespace Sys2Proof.Machine

theorem State.busyBit_eq_false {s : State} : s.busyBit = false ↔ s.phase = .idle := by
  unfold State.busyBit Phase.isBusy
  cases s.phase <;> simp

theorem State.whenIdle_eq_ok {α : Type} {s : State} {a : Except BusCause α} {x : α} :
    s.whenIdle a = .ok x ↔ s.phase = .idle ∧ a = .ok x := by
  rw [← State.busyBit_eq_false]
  unfold State.whenIdle
  cases s.busyBit <;> simp

theorem State.whenIdle_idle {α : Type} {s : State} (h : s.phase = .idle) (a : Except BusCause α) :
    s.whenIdle a = a := by
  unfold State.whenIdle
  rw [State.busyBit_eq_false.2 h]
  rfl

theorem State.whenIdle_busy {α : Type} {s : State} (h : s.phase ≠ .idle) (a : Except BusCause α) :
    s.whenIdle a = .error .busy := by
  unfold State.whenIdle
  cases hb : s.busyBit with
  | true => rfl
  | false => exact absurd (State.busyBit_eq_false.1 hb) h

/-! ## The map -/

/-- A word of a byte buffer lies inside the buffer (R55). -/
theorem bufferLoc_eq_ok {o depth : Nat} {l : Nat → Loc} {x : Loc} :
    bufferLoc o depth l = .ok x ↔ o + 3 < depth ∧ l o = x := by
  unfold bufferLoc
  split <;> simp_all

/-- A mapped word of IN is aligned and inside IN. -/
theorem locate_inWord {p : Params} {a : BusAddr} {o : Nat} (h : locate p a = .ok (.inWord o)) :
    o + 3 < p.inDepth := by
  simp only [locate] at h
  repeat' split at h
  all_goals first
    | (simp only [reduceCtorEq, Except.ok.injEq] at h)
    | (obtain ⟨h1, h2⟩ := bufferLoc_eq_ok.1 h
       first
         | (simp only [reduceCtorEq] at h2)
         | (simp only [Loc.inWord.injEq] at h2; subst h2; exact h1))

theorem locate_payWord {p : Params} {a : BusAddr} {o : Nat} (h : locate p a = .ok (.payWord o)) :
    o + 3 < p.payDepth := by
  simp only [locate] at h
  repeat' split at h
  all_goals first
    | (simp only [reduceCtorEq, Except.ok.injEq] at h)
    | (obtain ⟨h1, h2⟩ := bufferLoc_eq_ok.1 h
       first
         | (simp only [reduceCtorEq] at h2)
         | (simp only [Loc.payWord.injEq] at h2; subst h2; exact h1))

/-- Only the address of CMD names CMD. -/
theorem locate_cmd {p : Params} {a : BusAddr} (h : locate p a = .ok (.reg .cmd)) : a = 0x00008#20 := by
  apply BitVec.eq_of_toNat_eq
  simp only [locate] at h
  split at h
  · exact nomatch h
  · split at h
    · split at h
      · next r hr =>
        cases h
        simp only [regAt, Option.map_eq_some_iff] at hr
        obtain ⟨⟨k, r⟩, hf, rfl⟩ := hr
        have h1 := List.mem_of_find?_eq_some hf
        have h2 := List.find?_some hf
        simp only [regMap, List.mem_cons, Prod.mk.injEq, List.not_mem_nil, or_false, reduceCtorEq, and_false,
          and_true, false_or] at h1
        simp only [beq_iff_eq] at h2
        rw [← h2, h1]
        rfl
      · exact nomatch h
    · repeat' split at h
      all_goals first
        | (simp only [reduceCtorEq, Except.ok.injEq] at h)
        | (obtain ⟨-, h2⟩ := bufferLoc_eq_ok.1 h; simp only [reduceCtorEq] at h2)

/-! ## Writes -/

/-- What an accepted write can do. -/
theorem State.writeLoc_eq_ok {s t : State} {v : Word} {l : Loc} (h : s.writeLoc v l = .ok t) :
    (l = .reg .cmd ∧ s.phase = .idle ∧ t = s.accept v) ∨
    (l = .reg .inLen ∧ s.phase = .idle ∧ t = { s with inLen := v, draws := s.draws + 1 }) ∨
    (l = .reg .bitLen ∧ s.phase = .idle ∧ t = { s with bitLen := v, draws := s.draws + 1 }) ∨
    (l = .reg .payBytes ∧ s.phase = .idle ∧ t = { s with payBytes := v, draws := s.draws + 1 }) ∨
    (l = .reg .intEn ∧ t = { s with doneIe := v.getLsbD 0, draws := s.draws + 1 }) ∨
    (l = .reg .intStat ∧ t = { s with doneIp := s.doneIp && !v.getLsbD 0, draws := s.draws + 1 }) ∨
    (∃ x, l = .freq x ∧ s.phase = .idle ∧ t = { s with freq := tableSet s.freq x v, draws := s.draws + 1 }) ∨
    (∃ x w, l = .ctab x w ∧ s.phase = .idle ∧
      t = { s with ctab := tableSet s.ctab x ((s.codeOf x).setWord w v), draws := s.draws + 1 }) ∨
    (∃ o, l = .inWord o ∧ s.phase = .idle ∧
      t = { s with inBuf := s.inBuf.writeWord o v, draws := s.draws + 1 }) ∨
    (∃ o, l = .payWord o ∧ s.phase = .idle ∧
      t = { s with payBuf := s.payBuf.writeWord o v, draws := s.draws + 1 }) := by
  cases l with
  | reg r =>
    cases r <;> simp only [State.writeLoc, State.writeReg, State.whenIdle_eq_ok, Except.ok.injEq, reduceCtorEq]
      at h
    case cmd => exact .inl ⟨rfl, h.1, h.2.symm⟩
    case inLen => exact .inr (.inl ⟨rfl, h.1, h.2.symm⟩)
    case bitLen => exact .inr (.inr (.inl ⟨rfl, h.1, h.2.symm⟩))
    case payBytes => exact .inr (.inr (.inr (.inl ⟨rfl, h.1, h.2.symm⟩)))
    case intEn => exact .inr (.inr (.inr (.inr (.inl ⟨rfl, h.symm⟩))))
    case intStat =>
      refine .inr (.inr (.inr (.inr (.inr (.inl ⟨rfl, ?_⟩)))))
      rw [← h]
      unfold State.clearDoneIp State.nextDraw
      cases v.getLsbD 0 <;> simp
  | freq x =>
    simp only [State.writeLoc, State.whenIdle_eq_ok, Except.ok.injEq] at h
    exact .inr (.inr (.inr (.inr (.inr (.inr (.inl ⟨x, rfl, h.1, h.2.symm⟩))))))
  | node n w => exact nomatch h
  | ctab x w =>
    simp only [State.writeLoc, State.whenIdle_eq_ok, Except.ok.injEq] at h
    exact .inr (.inr (.inr (.inr (.inr (.inr (.inr (.inl ⟨x, w, rfl, h.1, h.2.symm⟩)))))))
  | inWord o =>
    simp only [State.writeLoc, State.whenIdle_eq_ok, Except.ok.injEq] at h
    exact .inr (.inr (.inr (.inr (.inr (.inr (.inr (.inr (.inl ⟨o, rfl, h.1, h.2.symm⟩))))))))
  | payWord o =>
    simp only [State.writeLoc, State.whenIdle_eq_ok, Except.ok.injEq] at h
    exact .inr (.inr (.inr (.inr (.inr (.inr (.inr (.inr (.inr ⟨o, rfl, h.1, h.2.symm⟩))))))))
  | outWord o => exact nomatch h

theorem State.transact_read (s : State) (a : BusAddr) : (s.transact (.read a)).2 = s := by
  simp only [State.transact]
  split <;> rfl

/-- A write either gets ERR and changes nothing, or is one of the accepted writes. -/
theorem State.transact_write (s : State) (a : BusAddr) (v : Word) :
    s.transact (.write a v) = (.write .err, s) ∨
    ∃ l t, locate s.params a = .ok l ∧ s.writeLoc v l = .ok t ∧ s.transact (.write a v) = (.write .ok, t) := by
  simp only [State.transact, State.busWrite]
  cases hl : locate s.params a with
  | error c => exact .inl rfl
  | ok l =>
    simp only
    cases hw : s.writeLoc v l with
    | error c => exact .inl rfl
    | ok t => exact .inr ⟨l, t, rfl, hw, rfl⟩

end Sys2Proof.Machine
end

