-- ==== Sys2Proof/Laws/Tables.lean ====
section
/-! SUPPORT. Tables of 256 entries: read after write, and their rows in ascending order. -/

namespace Sys2Proof.Machine

theorem tableGet_tableSet {α : Type} (t : Vector α 256) (x y : Byte) (a : α) :
    tableGet (tableSet t x a) y = if x = y then a else tableGet t y := by
  simp only [tableGet, tableSet, Vector.getElem_set]
  by_cases h : x = y
  · simp [h]
  · have : x.toNat ≠ y.toNat := fun h' => h (BitVec.eq_of_toNat_eq h')
    simp [h, this]

@[simp] theorem tableGet_tableOf {α : Type} (a : α) (x : Byte) : tableGet (tableOf a) x = a := by
  simp [tableGet, tableOf]

theorem table_ext {α : Type} {t u : Vector α 256} (h : ∀ x, tableGet t x = tableGet u x) : t = u := by
  apply Vector.ext
  intro i hi
  have := h (BitVec.ofNat 8 i)
  have hi' : i % 256 = i := Nat.mod_eq_of_lt hi
  simpa [tableGet, hi'] using this

@[simp] theorem allSymbols_length : allSymbols.length = 256 := by simp [allSymbols]

@[simp] theorem allSymbols_getElem (i : Nat) (h : i < allSymbols.length) : allSymbols[i] = BitVec.ofNat 8 i := by
  simp [allSymbols]

theorem mem_allSymbols (x : Byte) : x ∈ allSymbols := by
  rw [List.mem_iff_getElem]
  refine ⟨x.toNat, by simpa using x.isLt, ?_⟩
  simp

theorem allSymbols_pairwise : allSymbols.Pairwise fun x y => x.toNat < y.toNat := by
  rw [List.pairwise_iff_getElem]
  intro i j hi hj hij
  simp at hi hj
  simp only [allSymbols_getElem, BitVec.toNat_ofNat]
  omega

theorem allSymbols_nodup : allSymbols.Nodup :=
  allSymbols_pairwise.imp fun h he => by simp [he] at h

/-- The rows of a table are its entries under their symbols, the symbols ascending. -/
theorem tableRows_eq {α : Type} (t : Vector α 256) : tableRows t = allSymbols.map fun x => (x, tableGet t x) := by
  apply List.ext_getElem
  · simp [tableRows]
  · intro i h₁ h₂
    have hi : i < 256 := by simpa using h₂
    have hi' : i % 256 = i := Nat.mod_eq_of_lt hi
    simp [tableRows, tableGet, hi']

theorem mem_tableRows {α : Type} {t : Vector α 256} {r : Byte × α} : r ∈ tableRows t ↔ tableGet t r.1 = r.2 := by
  rw [tableRows_eq, List.mem_map]
  constructor
  · rintro ⟨x, -, rfl⟩; rfl
  · intro h; exact ⟨r.1, mem_allSymbols _, by rw [h]⟩

end Sys2Proof.Machine
end

