-- ==== Sys2Proof/Laws/CodeTable.lean ====
section
/-! SUPPORT. Paths in a tree (42_tree_builder.md R97) and what the walk of GENCODES writes (43_code_table.md R101). -/

namespace Sys2Proof.Machine

/-! ## Paths -/

theorem State.descend_append (s : State) (n : Nat) (p q : Bits) :
    s.descend n (p ++ q) = (s.descend n p).bind fun m => s.descend m q := by
  induction p generalizing n with
  | nil => rfl
  | cons b p ih =>
    simp only [List.cons_append, State.descend]
    split
    · rfl
    · rw [ih]

/-- The child of an entry on the side of a bit. -/
def State.child (s : State) (n : Nat) (b : Bool) : Nat :=
  if b then (s.nodeAt n).right.toNat else (s.nodeAt n).left.toNat

theorem State.descend_leaf (s : State) {n : Nat} (h : (s.nodeAt n).isLeaf = true) (p : Bits) (m : Nat) :
    s.descend n p = some m ↔ p = [] ∧ m = n := by
  cases p with
  | nil => simp [State.descend, eq_comm]
  | cons b p => simp [State.descend, h]

theorem State.descend_inner (s : State) {n : Nat} (h : (s.nodeAt n).isLeaf = false) (b : Bool) (p : Bits) :
    s.descend n (b :: p) = s.descend (s.child n b) p := by
  simp [State.descend, h, State.child]

/-- A path with one more step. -/
theorem State.descend_snoc (s : State) (n m : Nat) (p : Bits) (b : Bool) :
    s.descend n (p ++ [b]) = some m ↔
      ∃ i, s.descend n p = some i ∧ (s.nodeAt i).isLeaf = false ∧ s.child i b = m := by
  rw [State.descend_append, Option.bind_eq_some_iff]
  refine exists_congr fun i => and_congr_right fun _ => ?_
  cases h : (s.nodeAt i).isLeaf with
  | true => simp [State.descend, h]
  | false => simp [State.descend, State.child, h]

namespace TreeShape

variable {s : State} (h : TreeShape s)
include h

theorem root_lt : s.root.toNat < s.nodeCount.toNat := by
  have := h.nsym_pos; have := h.count; have := h.root; omega

theorem count_eq : s.nodeCount.toNat = s.root.toNat + 1 := by
  have := h.nsym_pos; have := h.count; have := h.root; omega

theorem isLeaf_iff {n : Nat} (hn : n < s.nodeCount.toNat) :
    (s.nodeAt n).isLeaf = true ↔ n < s.nsym.toNat := by
  constructor
  · intro hl
    by_contra hc
    have := (h.inner n (by omega) hn).1
    rw [hl] at this
    exact nomatch this
  · intro hl; exact (h.leaf n hl).1

theorem inner_iff {n : Nat} (hn : n < s.nodeCount.toNat) :
    (s.nodeAt n).isLeaf = false ↔ s.nsym.toNat ≤ n := by
  have := h.isLeaf_iff hn
  cases hl : (s.nodeAt n).isLeaf with
  | true => rw [hl] at this; simp; simpa using this
  | false => rw [hl] at this; simp at this; simp [this]

theorem child_lt {n : Nat} (hn : n < s.nodeCount.toNat) (hi : (s.nodeAt n).isLeaf = false) (b : Bool) :
    s.child n b < n := by
  obtain ⟨-, -, h3, h4, -⟩ := h.inner n ((h.inner_iff hn).1 hi) hn
  cases b
  · exact h3
  · exact h4

/-- The two sides differ. -/
theorem child_inj {n : Nat} (hn : n < s.nodeCount.toNat) (hi : (s.nodeAt n).isLeaf = false) {a b : Bool}
    (he : s.child n a = s.child n b) : a = b := by
  obtain ⟨-, -, -, -, h5⟩ := h.inner n ((h.inner_iff hn).1 hi) hn
  cases a <;> cases b <;> simp only [State.child, if_true, Bool.false_eq_true, if_false] at he
  · rfl
  · exact absurd (BitVec.eq_of_toNat_eq he) h5
  · exact absurd (BitVec.eq_of_toNat_eq he).symm h5
  · rfl

/-- Indices fall along a path, and each step but the last stays among the internal nodes (R97 (d), (f)). -/
theorem descend_bound {n m : Nat} {p : Bits} (hn : n < s.nodeCount.toNat) (hd : s.descend n p = some m) :
    m ≤ n ∧ p.length ≤ n + 1 - s.nsym.toNat := by
  induction p generalizing n with
  | nil => simp [State.descend] at hd; subst hd; simp
  | cons b p ih =>
    cases hl : (s.nodeAt n).isLeaf with
    | true => simp [State.descend, hl] at hd
    | false =>
      rw [State.descend_inner s hl] at hd
      have hc := h.child_lt hn hl b
      have := ih (by omega) hd
      have := (h.inner_iff hn).1 hl
      simp
      omega

/-- R97 (f): a path from the root has at most k - 1 steps. -/
theorem path_length {m : Nat} {p : Bits} (hd : s.descend s.root.toNat p = some m) :
    p.length ≤ s.nsym.toNat - 1 := by
  have := (h.descend_bound h.root_lt hd).2
  have := h.nsym_pos; have := h.root
  omega

theorem path_valid {m : Nat} {p : Bits} (hd : s.descend s.root.toNat p = some m) : m < s.nodeCount.toNat := by
  have := (h.descend_bound h.root_lt hd).1
  have := h.root_lt
  omega

/-- An entry has one parent, so one path from the root. -/
theorem path_unique {m : Nat} {p q : Bits} (hp : s.descend s.root.toNat p = some m)
    (hq : s.descend s.root.toNat q = some m) : p = q := by
  -- the root is no one's child
  have hroot : ∀ {r : Bits} {b : Bool}, s.descend s.root.toNat (r ++ [b]) ≠ some s.root.toNat := by
    intro r b hr
    obtain ⟨i, h1, h2, h3⟩ := (State.descend_snoc s _ _ _ _).1 hr
    have hi := h.path_valid h1
    have := h.child_lt hi h2 b
    have := h.count_eq
    omega
  induction p using List.reverseRecOn generalizing q m with
  | nil =>
    simp only [State.descend, Option.some.injEq] at hp
    subst hp
    rcases List.eq_nil_or_concat q with rfl | ⟨q', b, rfl⟩
    · rfl
    · exact absurd (by simpa using hq) hroot
  | append_singleton p b ih =>
    rcases List.eq_nil_or_concat q with rfl | ⟨q', b', rfl⟩
    · simp only [State.descend, Option.some.injEq] at hq
      subst hq
      exact absurd hp hroot
    · rw [List.concat_eq_append] at hq ⊢
      obtain ⟨i, h1, h2, h3⟩ := (State.descend_snoc s _ _ _ _).1 hp
      obtain ⟨j, g1, g2, g3⟩ := (State.descend_snoc s _ _ _ _).1 hq
      have hi := h.path_valid h1
      have hj := h.path_valid g1
      have hij : i = j := by
        have hm : m < s.root.toNat := by
          have := h.child_lt hi h2 b
          have := h.count_eq
          omega
        obtain ⟨n, -, hn⟩ := h.parent m hm
        have e1 := hn i ((h.inner_iff hi).1 h2) hi (by
          cases b
          · exact .inl h3
          · exact .inr h3)
        have e2 := hn j ((h.inner_iff hj).1 g2) hj (by
          cases b'
          · exact .inl g3
          · exact .inr g3)
        rw [e1, e2]
      subst hij
      rw [ih h1 g1, h.child_inj hi h2 (h3.trans g3.symm)]

/-- Every entry of the tree is reached from the root. -/
theorem path_exists {c : Nat} (hc : c < s.nodeCount.toNat) : ∃ p, s.descend s.root.toNat p = some c := by
  have hce := h.count_eq
  generalize hd : s.root.toNat - c = d
  induction d using Nat.strongRecOn generalizing c with
  | ind d ih =>
    rcases Nat.lt_or_ge c s.root.toNat with hlt | hge
    · obtain ⟨n, ⟨hn1, hn2, hn3⟩, -⟩ := h.parent c hlt
      have hl := (h.inner_iff hn2).2 hn1
      have h1 := h.child_lt hn2 hl
      have hgt : c < n := by
        rcases hn3 with hn3 | hn3
        · have := h1 false; simp only [State.child, Bool.false_eq_true, if_false] at this; omega
        · have := h1 true; simp only [State.child, if_true] at this; omega
      obtain ⟨p, hp⟩ := ih (s.root.toNat - n) (by omega) hn2 rfl
      rcases hn3 with hn3 | hn3
      · exact ⟨p ++ [false], (State.descend_snoc s _ _ _ _).2 ⟨n, hp, hl, hn3⟩⟩
      · exact ⟨p ++ [true], (State.descend_snoc s _ _ _ _).2 ⟨n, hp, hl, hn3⟩⟩
    · have : c = s.root.toNat := by omega
      subst this
      exact ⟨[], rfl⟩

/-- Leaves hold different symbols (R97 (b)). -/
theorem sym_inj {m n : Nat} (hm : m < s.nsym.toNat) (hn : n < s.nsym.toNat)
    (he : (s.nodeAt m).sym = (s.nodeAt n).sym) : m = n := by
  rcases Nat.lt_trichotomy m n with hlt | heq | hgt
  · have := h.ascending m n hlt hn; rw [he] at this; omega
  · exact heq
  · have := h.ascending n m hgt hm; rw [he] at this; omega

end TreeShape

/-! ## The walk -/

/-- On a tree the walk ends, and each entry of its table is the path to a leaf with that symbol, if there is one
below, or unchanged. -/
theorem walkTree_spec {s : State} (h : TreeShape s) (fuel n : Nat) (p : Bits) (ct : CodeTable)
    (hn : n < s.nodeCount.toNat) (hf : n + 2 - s.nsym.toNat ≤ fuel) (hf1 : 1 ≤ fuel) :
    ∃ ct', walkTree s fuel n p ct = some ct' ∧ ∀ x,
      (∃ q m, s.descend n q = some m ∧ (s.nodeAt m).isLeaf = true ∧ (s.nodeAt m).sym = x ∧
        tableGet ct' x = CodeEntry.ofBits (p ++ q)) ∨
      ((∀ q m, s.descend n q = some m → (s.nodeAt m).isLeaf = true → (s.nodeAt m).sym ≠ x) ∧
        tableGet ct' x = tableGet ct x) := by
  induction fuel generalizing n p ct with
  | zero => omega
  | succ fuel ih =>
    simp only [walkTree]
    cases hl : (s.nodeAt n).isLeaf with
    | true =>
      simp only [if_true]
      refine ⟨_, rfl, fun x => ?_⟩
      rw [tableGet_tableSet]
      by_cases hx : (s.nodeAt n).sym = x
      · exact .inl ⟨[], n, rfl, hl, hx, by simp [hx]⟩
      · refine .inr ⟨fun q m hd _ => ?_, by simp [hx]⟩
        obtain ⟨-, rfl⟩ := (State.descend_leaf s hl q m).1 hd
        exact hx
    | false =>
      simp only [Bool.false_eq_true, if_false]
      have hk := (h.inner_iff hn).1 hl
      have hc0 := h.child_lt hn hl false
      have hc1 := h.child_lt hn hl true
      have hpos := h.nsym_pos
      obtain ⟨ct₁, e1, f1⟩ := ih (s.child n false) (p ++ [false]) ct (by omega) (by omega) (by omega)
      obtain ⟨ct₂, e2, f2⟩ := ih (s.child n true) (p ++ [true]) ct₁ (by omega) (by omega) (by omega)
      simp only [State.child, Bool.false_eq_true, if_false, if_true] at e1 e2
      rw [e1]
      refine ⟨ct₂, e2, fun x => ?_⟩
      rcases f2 x with ⟨q, m, hd, hm, hs, ht⟩ | ⟨hno, ht⟩
      · exact .inl ⟨true :: q, m, by rw [State.descend_inner s hl]; exact hd, hm, hs, by rw [ht]; simp⟩
      · rcases f1 x with ⟨q, m, hd, hm, hs, ht'⟩ | ⟨hno', ht'⟩
        · exact .inl ⟨false :: q, m, by rw [State.descend_inner s hl]; exact hd, hm, hs, by rw [ht, ht']; simp⟩
        · refine .inr ⟨fun q m hd hm => ?_, by rw [ht, ht']⟩
          cases q with
          | nil =>
            simp only [State.descend, Option.some.injEq] at hd
            subst hd
            rw [hl] at hm
            exact nomatch hm
          | cons b q =>
            rw [State.descend_inner s hl] at hd
            cases b
            · exact hno' q m hd hm
            · exact hno q m hd hm

/-- GENCODES's table on a tree: each symbol of a leaf gets its path, or "0" in a single-leaf tree (R103), and every
other symbol nothing (R104). -/
theorem generatedTable_spec {s : State} (h : TreeShape s) :
    ∃ ct, generatedTable s = some ct ∧ ∀ x,
      (∃ q m, s.descend s.root.toNat q = some m ∧ (s.nodeAt m).isLeaf = true ∧ (s.nodeAt m).sym = x ∧
        tableGet ct x = if s.nsym.toNat = 1 then singleLeafCode else CodeEntry.ofBits q) ∨
      ((∀ n, n < s.nsym.toNat → (s.nodeAt n).sym ≠ x) ∧ tableGet ct x = CodeEntry.absent) := by
  have hpos := h.nsym_pos
  have hle := h.nsym_le
  have hroot := h.root
  have hr := h.root_lt
  simp only [generatedTable]
  cases hl : (s.nodeAt s.root.toNat).isLeaf with
  | true =>
    have h1 : s.nsym.toNat = 1 := by have := (h.isLeaf_iff hr).1 hl; omega
    simp only [if_true]
    refine ⟨_, rfl, fun x => ?_⟩
    rw [tableGet_tableSet, tableGet_tableOf]
    by_cases hx : (s.nodeAt s.root.toNat).sym = x
    · exact .inl ⟨[], _, rfl, hl, hx, by simp [hx, h1]⟩
    · refine .inr ⟨fun n hn => ?_, by simp [hx]⟩
      have : n = s.root.toNat := by omega
      subst this
      exact hx
  | false =>
    have h1 : s.nsym.toNat ≠ 1 := by have := (h.inner_iff hr).1 hl; omega
    simp only [Bool.false_eq_true, if_false, Config.maxLen]
    obtain ⟨ct, e, f⟩ := walkTree_spec h (255 + 1) s.root.toNat [] (tableOf CodeEntry.absent) hr (by omega)
      (by omega)
    refine ⟨ct, e, fun x => ?_⟩
    rcases f x with ⟨q, m, hd, hm, hs, ht⟩ | ⟨hno, ht⟩
    · exact .inl ⟨q, m, hd, hm, hs, by rw [ht]; simp [h1]⟩
    · refine .inr ⟨fun n hn => ?_, by rw [ht, tableGet_tableOf]⟩
      have hc := h.count
      obtain ⟨q, hq⟩ := h.path_exists (c := n) (by omega)
      exact hno q n hq (h.leaf n hn).1


/-! ## A tree depends only on NODE and its three registers -/

theorem State.nodeAt_eq_of_same {s t : State} (hn : t.node = s.node) (hc : t.nodeCount = s.nodeCount) {n : Nat}
    (h : n < s.nodeCount.toNat) (hs : s.nodeCount.toNat ≤ s.node.length) : t.nodeAt n = s.nodeAt n := by
  have hl : n < s.node.length := by omega
  simp only [State.nodeAt, hn, hc, h, if_true, List.getElem?_eq_getElem hl, Option.getD_some]

theorem TreeShape.of_same {s t : State} (h : TreeShape s) (hn : t.node = s.node) (hk : t.nsym = s.nsym)
    (hr : t.root = s.root) (hc : t.nodeCount = s.nodeCount) : TreeShape t := by
  have e : ∀ n, n < s.nodeCount.toNat → t.nodeAt n = s.nodeAt n := fun n hlt =>
    State.nodeAt_eq_of_same hn hc hlt h.stored
  have hpos := h.nsym_pos
  have hcount := h.count
  have hroot := h.root
  refine ⟨by rw [hk]; exact hpos, by rw [hk]; exact h.nsym_le, by rw [hk, hc]; exact hcount,
    by rw [hk, hr]; exact hroot, by rw [hc, hn]; exact h.stored, ?_, ?_, ?_, ?_, ?_⟩
  · intro n hlt
    rw [hk] at hlt
    rw [e n (by omega)]
    exact h.leaf n hlt
  · intro m n hm hlt
    rw [hk] at hlt
    rw [e n (by omega), e m (by omega)]
    exact h.ascending m n hm hlt
  · intro n h1 h2
    rw [hk] at h1
    rw [hc] at h2
    rw [e n h2]
    exact h.inner n h1 h2
  · intro c hlt
    rw [hr] at hlt
    obtain ⟨n, ⟨h1, h2, h3⟩, h4⟩ := h.parent c hlt
    refine ⟨n, ⟨by rw [hk]; exact h1, by rw [hc]; exact h2, by rw [e n h2]; exact h3⟩, ?_⟩
    intro m hm1 hm2 hm3
    rw [hk] at hm1
    rw [hc] at hm2
    rw [e m hm2] at hm3
    exact h4 m hm1 hm2 hm3
  · intro n h1 h2
    rw [hk] at h1
    rw [hc] at h2
    obtain ⟨-, -, h3, h4, -⟩ := h.inner n h1 h2
    rw [e n h2, e _ (by omega), e _ (by omega)]
    exact h.weight n h1 h2

end Sys2Proof.Machine
end

