-- ==== Sys2Proof/Laws/Memory.lean ====
section
/-! SUPPORT. Byte buffers: read after write, and that every operation keeps the canonical form. -/

namespace Sys2Proof.Machine

/-! ## Cells -/

theorem cellsGet_cellsSet (cs : List Host.Cell) (a b : Nat) (v : Byte) :
    cellsGet (cellsSet cs a v) b = if a = b then some v else cellsGet cs b := by
  induction cs with
  | nil => simp [cellsSet, cellsGet]
  | cons c rest ih =>
    obtain ⟨k, w⟩ := c
    simp only [cellsSet]
    split
    · simp [cellsGet]
    · split
      · next h₁ h₂ => subst h₂; by_cases hb : a = b <;> simp [cellsGet, hb]
      · next h₁ h₂ =>
        simp only [cellsGet]
        by_cases hk : k = b
        · subst hk; simp [h₂]
        · simp [hk, ih]

theorem cellsRiseFrom_mono {lo lo' : Nat} {cs : List Host.Cell} (h : cellsRiseFrom lo cs = true) (hl : lo' ≤ lo) :
    cellsRiseFrom lo' cs = true := by
  cases cs with
  | nil => rfl
  | cons c rest =>
    simp only [cellsRiseFrom, Bool.and_eq_true, decide_eq_true_eq] at h ⊢
    exact ⟨by omega, h.2⟩

theorem cellsRiseFrom_cellsSet {lo : Nat} {cs : List Host.Cell} {a : Nat} {v : Byte}
    (h : cellsRiseFrom lo cs = true) (ha : lo ≤ a) : cellsRiseFrom lo (cellsSet cs a v) = true := by
  induction cs generalizing lo with
  | nil => simp [cellsSet, cellsRiseFrom, ha]
  | cons c rest ih =>
    obtain ⟨k, w⟩ := c
    simp only [cellsRiseFrom, Bool.and_eq_true, decide_eq_true_eq] at h
    simp only [cellsSet]
    split
    · next hk =>
      simp only [cellsRiseFrom, Bool.and_eq_true, decide_eq_true_eq]
      exact ⟨ha, by omega, h.2⟩
    · split
      · next _ hk => subst hk; simp only [cellsRiseFrom, Bool.and_eq_true, decide_eq_true_eq]; exact ⟨ha, h.2⟩
      · simp only [cellsRiseFrom, Bool.and_eq_true, decide_eq_true_eq]
        exact ⟨h.1, ih h.2 (by omega)⟩

theorem cellsGet_eq_none_of_lt {lo : Nat} {cs : List Host.Cell} (h : cellsRiseFrom lo cs = true) {a : Nat}
    (ha : a < lo) : cellsGet cs a = none := by
  induction cs generalizing lo with
  | nil => rfl
  | cons c rest ih =>
    obtain ⟨k, w⟩ := c
    simp only [cellsRiseFrom, Bool.and_eq_true, decide_eq_true_eq] at h
    have : k ≠ a := by omega
    simp only [cellsGet, this, if_false]
    exact ih h.2 (by omega)

/-- Lists in the canonical form that give the same byte at every index are the same list. -/
theorem cells_ext {lo : Nat} {cs ds : List Host.Cell} (hc : cellsRiseFrom lo cs = true)
    (hd : cellsRiseFrom lo ds = true) (h : ∀ a, cellsGet cs a = cellsGet ds a) : cs = ds := by
  induction cs generalizing lo ds with
  | nil =>
    cases ds with
    | nil => rfl
    | cons d rest => have := h d.1; simp [cellsGet] at this
  | cons c rest ih =>
    obtain ⟨k, w⟩ := c
    cases ds with
    | nil => have := h k; simp [cellsGet] at this
    | cons d rest' =>
      obtain ⟨k', w'⟩ := d
      simp only [cellsRiseFrom, Bool.and_eq_true, decide_eq_true_eq] at hc hd
      have hk : k = k' := by
        rcases Nat.lt_trichotomy k k' with hlt | heq | hlt
        · have h1 := h k
          rw [show cellsGet ((k', w') :: rest') k = none from
            cellsGet_eq_none_of_lt (lo := k') (by simp [cellsRiseFrom, hd.2]) hlt] at h1
          simp [cellsGet] at h1
        · exact heq
        · have h1 := h k'
          rw [show cellsGet ((k, w) :: rest) k' = none from
            cellsGet_eq_none_of_lt (lo := k) (by simp [cellsRiseFrom, hc.2]) hlt] at h1
          simp [cellsGet] at h1
      subst hk
      have hw : w = w' := by have := h k; simpa [cellsGet] using this
      subst hw
      congr 1
      refine ih hc.2 hd.2 fun a => ?_
      by_cases ha : k = a
      · subst ha
        rw [cellsGet_eq_none_of_lt hc.2 (by omega), cellsGet_eq_none_of_lt hd.2 (by omega)]
      · have := h a; simpa [cellsGet, ha] using this

theorem all_cellsSet {p : Nat → Bool} {cs : List Host.Cell} {a : Nat} {v : Byte}
    (h : cs.all (fun c => p c.1) = true) (ha : p a = true) : (cellsSet cs a v).all (fun c => p c.1) = true := by
  induction cs with
  | nil => simp [cellsSet, ha]
  | cons c rest ih =>
    obtain ⟨k, w⟩ := c
    simp only [List.all_cons, Bool.and_eq_true] at h
    simp only [cellsSet]
    split
    · simp [ha, h.1]; simpa using h.2
    · split
      · simp [ha]; simpa using h.2
      · simp only [List.all_cons, Bool.and_eq_true]; exact ⟨h.1, ih h.2⟩

/-! ## Buffers -/

@[simp] theorem Memory.write_draw (m : Memory) (i : Nat) (v : Byte) : (m.write i v).draw = m.draw := rfl

@[simp] theorem Memory.writeBytes_draw (m : Memory) (i : Nat) (bs : List Byte) :
    (m.writeBytes i bs).draw = m.draw := by
  induction bs generalizing m i with
  | nil => rfl
  | cons b bs ih => simp [Memory.writeBytes, ih]

@[simp] theorem Memory.drawn_draw (d : Nat) : (Memory.drawn d).draw = d := rfl

@[simp] theorem Memory.drawn_get? (d i : Nat) : (Memory.drawn d).get? i = none := rfl

theorem Memory.write_get? (m : Memory) (i j : Nat) (v : Byte) :
    (m.write i v).get? j = if i = j then some v else m.get? j := cellsGet_cellsSet m.cells i j v

/-- The bytes of a store are read back; every other index is as before. -/
theorem Memory.writeBytes_get? (m : Memory) (i : Nat) (bs : List Byte) (j : Nat) :
    (m.writeBytes i bs).get? j =
      if i ≤ j ∧ j < i + bs.length then bs[j - i]? else m.get? j := by
  induction bs generalizing m i with
  | nil =>
    have : ¬ (i ≤ j ∧ j < i) := by omega
    simp [Memory.writeBytes, this]
  | cons b bs ih =>
    rw [Memory.writeBytes, ih, Memory.write_get?]
    by_cases hij : i = j
    · subst hij
      simp
    · by_cases hin : i ≤ j ∧ j < i + (b :: bs).length
      · have h1 : i + 1 ≤ j ∧ j < i + 1 + bs.length := by simp at hin; omega
        obtain ⟨d, hd⟩ : ∃ d, j - i = d + 1 := ⟨j - i - 1, by omega⟩
        have h2 : j - (i + 1) = d := by omega
        rw [if_pos h1, if_pos hin, hd, h2]; simp
      · have h1 : ¬ (i + 1 ≤ j ∧ j < i + 1 + bs.length) := by simp at hin; omega
        rw [if_neg h1, if_neg hin, if_neg hij]

theorem Memory.write_wf {m : Memory} (h : m.wf = true) (i : Nat) (v : Byte) : (m.write i v).wf = true :=
  cellsRiseFrom_cellsSet h (Nat.zero_le i)

theorem Memory.writeBytes_wf {m : Memory} (h : m.wf = true) (i : Nat) (bs : List Byte) :
    (m.writeBytes i bs).wf = true := by
  induction bs generalizing m i with
  | nil => exact h
  | cons b bs ih => exact ih (Memory.write_wf h i b) (i + 1)

theorem Memory.drawn_wf (d : Nat) : (Memory.drawn d).wf = true := rfl

theorem Memory.writeWord_wf {m : Memory} (h : m.wf = true) (o : Nat) (v : Word) : (m.writeWord o v).wf = true :=
  Memory.writeBytes_wf h o _

theorem Memory.write_within {m : Memory} {depth : Nat} (h : m.within depth = true) {i : Nat} (hi : i < depth)
    (v : Byte) : (m.write i v).within depth = true :=
  all_cellsSet (p := fun k => decide (k < depth)) h (by simpa using hi)

theorem Memory.writeBytes_within {m : Memory} {depth : Nat} (h : m.within depth = true) {i : Nat} {bs : List Byte}
    (hi : i + bs.length ≤ depth) : (m.writeBytes i bs).within depth = true := by
  induction bs generalizing m i with
  | nil => exact h
  | cons b bs ih =>
    simp at hi
    exact ih (Memory.write_within h (by omega) b) (by omega)

theorem Memory.writeWord_within {m : Memory} {depth : Nat} (h : m.within depth = true) {o : Nat}
    (ho : o + 3 < depth) (v : Word) : (m.writeWord o v).within depth = true :=
  Memory.writeBytes_within h (by simp; omega)

theorem Memory.drawn_within (d depth : Nat) : (Memory.drawn d).within depth = true := rfl

@[simp] theorem Memory.writeWord_draw (m : Memory) (o : Nat) (v : Word) : (m.writeWord o v).draw = m.draw :=
  Memory.writeBytes_draw m o _

/-- Buffers in the canonical form with the same draw that list the same bytes are the same data. -/
theorem Memory.ext_of_get? {m n : Memory} (hm : m.wf = true) (hn : n.wf = true) (hd : m.draw = n.draw)
    (h : ∀ i, m.get? i = n.get? i) : m = n := by
  obtain ⟨cs, d⟩ := m
  obtain ⟨ds, d'⟩ := n
  simp only at hd
  subst hd
  have : cs = ds := cells_ext hm hn h
  rw [this]

end Sys2Proof.Machine
end

