-- ==== Sys2Proof/Laws/Encoder.lean ====
section
/-! SUPPORT. What the loop of ENCODE answers (44_encoder.md R108, R109, R111). -/

namespace Sys2Proof.Machine

@[simp] theorem codeStream_nil (ct : CodeTable) : codeStream ct [] = [] := rfl

@[simp] theorem codeStream_cons (ct : CodeTable) (x : Byte) (xs : List Byte) :
    codeStream ct (x :: xs) = (tableGet ct x).bits ++ codeStream ct xs := rfl

@[simp] theorem codeStream_append (ct : CodeTable) (xs ys : List Byte) :
    codeStream ct (xs ++ ys) = codeStream ct xs ++ codeStream ct ys := by
  simp [codeStream]

theorem codeStream_length (ct : CodeTable) (xs : List Byte) :
    (codeStream ct xs).length = (xs.map fun x => (tableGet ct x).len.toNat).sum := by
  induction xs with
  | nil => rfl
  | cons x xs ih => simp [ih]

@[simp] theorem allCoded_nil (ct : CodeTable) : AllCoded ct [] := fun _ h => nomatch h

theorem allCoded_cons {ct : CodeTable} {x : Byte} {xs : List Byte} :
    AllCoded ct (x :: xs) ↔ (tableGet ct x).len ≠ 0#8 ∧ AllCoded ct xs := by
  simp [AllCoded]

/-- Every symbol of a coded sequence takes at least one bit. -/
theorem length_le_codeStream {ct : CodeTable} {xs : List Byte} (h : AllCoded ct xs) :
    xs.length ≤ (codeStream ct xs).length := by
  induction xs with
  | nil => simp
  | cons x xs ih =>
    rw [allCoded_cons] at h
    have := ih h.2
    have := CodeEntry.len_pos.2 h.1
    simp
    omega

/-- The loop appends the codes of a coded sequence that fits and goes on behind it. -/
theorem encodeLoop_append {ct : CodeTable} {cap i : Nat} {xs ys : List Byte} {bits : Bits} (h : AllCoded ct xs)
    (hc : bits.length + (codeStream ct xs).length ≤ cap) :
    encodeLoop ct cap i (xs ++ ys) bits = encodeLoop ct cap (i + xs.length) ys (bits ++ codeStream ct xs) := by
  induction xs generalizing i bits with
  | nil => simp
  | cons x xs ih =>
    rw [allCoded_cons] at h
    simp only [codeStream_cons, List.length_append, CodeEntry.bits_length] at hc
    have h1 : ¬ bits.length + (tableGet ct x).len.toNat > cap := by omega
    simp only [List.cons_append, encodeLoop, h.1, if_false, h1]
    rw [ih h.2 (by simp; omega)]
    simp [Nat.add_assoc, Nat.add_comm 1]

/-- The loop succeeds exactly on a coded sequence that fits, with the concatenation of its codes. -/
theorem encodeLoop_eq_ok {ct : CodeTable} {cap i : Nat} {xs : List Byte} {bits out : Bits}
    (hb : bits.length ≤ cap) :
    encodeLoop ct cap i xs bits = .ok out ↔
      AllCoded ct xs ∧ bits.length + (codeStream ct xs).length ≤ cap ∧ out = bits ++ codeStream ct xs := by
  induction xs generalizing i bits with
  | nil => simp [encodeLoop, hb, eq_comm]
  | cons x xs ih =>
    rw [allCoded_cons]
    simp only [encodeLoop]
    by_cases h0 : (tableGet ct x).len = 0#8
    · simp [h0]
    · by_cases h1 : bits.length + (tableGet ct x).len.toNat > cap
      · simp only [h0, if_false, h1, if_true]
        constructor
        · intro h; exact nomatch h
        · rintro ⟨-, h, -⟩; simp at h; omega
      · simp only [h0, if_false, h1]
        rw [ih (by simp; omega)]
        simp [Nat.add_assoc, h0]

/-- The loop's error comes from the first symbol that has no code or does not fit: it is MissingCode or
CapacityExceeded with that symbol and its index (R109, R111). -/
theorem encodeLoop_eq_error {ct : CodeTable} {cap i : Nat} {xs : List Byte} {bits : Bits} {r : Raised}
    (h : encodeLoop ct cap i xs bits = .error r) :
    ∃ ys x zs, xs = ys ++ x :: zs ∧ AllCoded ct ys ∧
      (((tableGet ct x).len = 0#8 ∧ r = ⟨.missingCode, symbolInfo x (i + ys.length)⟩) ∨
       ((tableGet ct x).len ≠ 0#8 ∧
         cap < bits.length + (codeStream ct ys).length + (tableGet ct x).len.toNat ∧
         r = ⟨.capacityExceeded, symbolInfo x (i + ys.length)⟩)) := by
  induction xs generalizing i bits with
  | nil => simp [encodeLoop] at h
  | cons x xs ih =>
    simp only [encodeLoop] at h
    split at h
    · next h0 =>
      cases h
      exact ⟨[], x, xs, rfl, allCoded_nil ct, .inl ⟨h0, rfl⟩⟩
    · next h0 =>
      split at h
      · next h1 =>
        cases h
        exact ⟨[], x, xs, rfl, allCoded_nil ct, .inr ⟨h0, by simpa using h1, rfl⟩⟩
      · obtain ⟨ys, y, zs, rfl, hys, hr⟩ := ih h
        refine ⟨x :: ys, y, zs, rfl, allCoded_cons.2 ⟨h0, hys⟩, ?_⟩
        have hn : i + 1 + ys.length = i + (x :: ys).length := by simp; omega
        rw [hn] at hr
        rcases hr with hr | ⟨h2, h3, h4⟩
        · exact .inl hr
        · refine .inr ⟨h2, ?_, h4⟩
          simp at h3 ⊢
          omega

end Sys2Proof.Machine
end

