-- ==== Sys2Proof/Laws/Decoder.lean ====
section
/-! SUPPORT. The prefix-free check and what the loop of DECODE answers (45_decoder.md R114, R119, R121, R122). -/

namespace Sys2Proof.Machine

/-! ## The check -/

theorem conflict_iff {ct : CodeTable} {x y : Byte} :
    Conflict ct x y ↔ x ≠ y ∧ (tableGet ct x).clash (tableGet ct y) = true := by
  rw [Conflict, CodeEntry.clash_iff]

theorem Conflict.symm {ct : CodeTable} {x y : Byte} (h : Conflict ct x y) : Conflict ct y x :=
  ⟨h.1.symm, h.2.2.1, h.2.1, fun i hi => (h.2.2.2 i (by omega)).symm⟩

/-- The scan finds nothing exactly when no earlier row clashes with a later one. -/
theorem firstPairOf_eq_none {rows : List (Byte × CodeEntry)} :
    firstPairOf rows = none ↔ rows.Pairwise fun r q => r.2.clash q.2 = false := by
  induction rows with
  | nil => simp [firstPairOf]
  | cons r rest ih =>
    obtain ⟨s, e⟩ := r
    rw [List.pairwise_cons, ← ih]
    simp only [firstPairOf]
    split
    · next t f hf =>
      have h1 := List.mem_of_find?_eq_some hf
      have h2 := List.find?_some hf
      constructor
      · intro h; exact nomatch h
      · rintro ⟨h, -⟩; simp [h _ h1] at h2
    · next hf =>
      constructor
      · intro h
        refine ⟨fun q hq => ?_, h⟩
        have := List.find?_eq_none.1 hf q hq
        simpa using this
      · exact fun h => h.2

/-- A table passes the scan exactly when it is prefix-free (R114). -/
theorem firstPair_eq_none {ct : CodeTable} : firstPair ct = none ↔ PrefixFree ct := by
  rw [firstPair, firstPairOf_eq_none, tableRows_eq, List.pairwise_map]
  constructor
  · intro h x y hc
    have hsym : ∀ a b : Byte, a.toNat < b.toNat → (tableGet ct a).clash (tableGet ct b) = false := by
      intro a b hab
      rw [List.pairwise_iff_getElem] at h
      have := h a.toNat b.toNat (by simpa using a.isLt) (by simpa using b.isLt) hab
      simpa using this
    have hne : x.toNat ≠ y.toNat := fun he => hc.1 (BitVec.eq_of_toNat_eq he)
    rcases Nat.lt_or_gt_of_ne hne with hlt | hlt
    · have := (conflict_iff.1 hc).2; rw [hsym x y hlt] at this; exact nomatch this
    · have := (conflict_iff.1 hc.symm).2; rw [hsym y x hlt] at this; exact nomatch this
  · intro h
    refine allSymbols_pairwise.imp fun {a b} hab => ?_
    rw [Bool.eq_false_iff]
    intro hc
    exact h a b (conflict_iff.2 ⟨fun he => by simp [he] at hab, hc⟩)

/-- What the scan of ascending rows finds is the least clashing pair. -/
theorem firstPairOf_eq_some {rows : List (Byte × CodeEntry)} {x y : Byte}
    (hs : rows.Pairwise fun r q => r.1.toNat < q.1.toNat) (h : firstPairOf rows = some (x, y)) :
    ∃ e f, (x, e) ∈ rows ∧ (y, f) ∈ rows ∧ x.toNat < y.toNat ∧ e.clash f = true ∧
      ∀ r ∈ rows, ∀ q ∈ rows, r.1.toNat < q.1.toNat → r.2.clash q.2 = true →
        x.toNat < r.1.toNat ∨ (x = r.1 ∧ y.toNat ≤ q.1.toNat) := by
  induction rows with
  | nil => simp [firstPairOf] at h
  | cons r₀ rest ih =>
    obtain ⟨s, e⟩ := r₀
    rw [List.pairwise_cons] at hs
    simp only [firstPairOf] at h
    split at h
    · next t f hf =>
      cases h
      have hmem := List.mem_of_find?_eq_some hf
      have hcl := List.find?_some hf
      refine ⟨e, f, by simp, by simp [hmem], hs.1 _ hmem, hcl, ?_⟩
      intro r hr q hq hrq hc
      rcases List.mem_cons.1 hr with rfl | hr'
      · rcases List.mem_cons.1 hq with rfl | hq'
        · exact absurd hrq (Nat.lt_irrefl _)
        · refine .inr ⟨rfl, ?_⟩
          rw [List.find?_eq_some_iff_append] at hf
          obtain ⟨-, mid, post, hrest, hm⟩ := hf
          rw [hrest, List.mem_append] at hq'
          rcases hq' with hq' | hq'
          · have := hm q hq'; simp [hc] at this
          · rcases List.mem_cons.1 hq' with rfl | hq''
            · exact Nat.le_refl _
            · have hp := hs.2
              rw [hrest, List.pairwise_append] at hp
              exact Nat.le_of_lt ((List.pairwise_cons.1 hp.2.1).1 _ hq'')
      · exact .inl (hs.1 r hr')
    · next hf =>
      obtain ⟨e', f, h1, h2, h3, h4, h5⟩ := ih hs.2 h
      refine ⟨e', f, by simp [h1], by simp [h2], h3, h4, ?_⟩
      intro r hr q hq hrq hc
      rcases List.mem_cons.1 hr with rfl | hr'
      · rcases List.mem_cons.1 hq with rfl | hq'
        · exact absurd hrq (Nat.lt_irrefl _)
        · have := List.find?_eq_none.1 hf q hq'
          simp [hc] at this
      · rcases List.mem_cons.1 hq with rfl | hq'
        · exact absurd hrq (Nat.lt_asymm (hs.1 r hr'))
        · exact h5 r hr' q hq' hrq hc

theorem tableRows_pairwise {α : Type} (t : Vector α 256) :
    (tableRows t).Pairwise fun r q => r.1.toNat < q.1.toNat := by
  rw [tableRows_eq, List.pairwise_map]
  exact allSymbols_pairwise

theorem FirstPair.unique {ct : CodeTable} {x y x' y' : Byte} (h : FirstPair ct x y) (h' : FirstPair ct x' y') :
    x = x' ∧ y = y' := by
  obtain ⟨h1, h2, h3⟩ := h
  obtain ⟨h1', h2', h3'⟩ := h'
  have a := h3 x' y' h1' h2'
  have b := h3' x y h1 h2
  have hx : x.toNat = x'.toNat := by
    rcases a with a | ⟨rfl, -⟩
    · rcases b with b | ⟨rfl, -⟩
      · omega
      · rfl
    · rfl
  have hx' : x = x' := BitVec.eq_of_toNat_eq hx
  subst hx'
  refine ⟨rfl, BitVec.eq_of_toNat_eq ?_⟩
  rcases a with a | ⟨-, a⟩
  · omega
  · rcases b with b | ⟨-, b⟩ <;> omega

/-- first_pair is the pair the rule names (R114). -/
theorem firstPair_eq_some {ct : CodeTable} {x y : Byte} : firstPair ct = some (x, y) ↔ FirstPair ct x y := by
  have key : ∀ {a b : Byte}, firstPair ct = some (a, b) → FirstPair ct a b := by
    intro a b h
    obtain ⟨e, f, h1, h2, h3, h4, h5⟩ := firstPairOf_eq_some (tableRows_pairwise ct) h
    rw [mem_tableRows] at h1 h2
    simp only at h1 h2
    subst h1 h2
    refine ⟨h3, conflict_iff.2 ⟨fun he => by simp [he] at h3, h4⟩, fun x' y' hl hc => ?_⟩
    exact h5 (x', tableGet ct x') (mem_tableRows.2 rfl) (y', tableGet ct y') (mem_tableRows.2 rfl) hl
      (conflict_iff.1 hc).2
  refine ⟨key, fun h => ?_⟩
  cases hf : firstPair ct with
  | none => exact absurd h.2.1 (firstPair_eq_none.1 hf x y)
  | some p =>
    obtain ⟨a, b⟩ := p
    obtain ⟨rfl, rfl⟩ := (key hf).unique h
    rfl

/-! ## The match -/

/-- The accumulator names a symbol of the table with exactly that code. -/
theorem symbolOf_eq_some {ct : CodeTable} {acc : Bits} {x : Byte} (h : symbolOf ct acc = some x) :
    (tableGet ct x).bits = acc := by
  simp only [symbolOf, Option.map_eq_some_iff] at h
  obtain ⟨r, hr, rfl⟩ := h
  have h1 := List.mem_of_find?_eq_some hr
  have h2 := List.find?_some hr
  rw [mem_tableRows] at h1
  rw [h1]
  exact CodeEntry.matches_iff.1 h2

theorem symbolOf_eq_none {ct : CodeTable} {acc : Bits} :
    symbolOf ct acc = none ↔ ∀ x, (tableGet ct x).bits ≠ acc := by
  simp only [symbolOf, Option.map_eq_none_iff, List.find?_eq_none]
  constructor
  · intro h x hx
    exact h (x, tableGet ct x) (mem_tableRows.2 rfl) (CodeEntry.matches_iff.2 hx)
  · intro h r hr hm
    rw [mem_tableRows] at hr
    exact h r.1 (by rw [hr]; exact CodeEntry.matches_iff.1 hm)

theorem PrefixFree.eq_of_prefix {ct : CodeTable} (h : PrefixFree ct) {x y : Byte}
    (hx : (tableGet ct x).len ≠ 0#8) (hy : (tableGet ct y).len ≠ 0#8)
    (hp : (tableGet ct x).bits <+: (tableGet ct y).bits) : x = y := by
  by_contra hne
  exact h x y (conflict_iff.2 ⟨hne, CodeEntry.clash_iff_prefix.2 ⟨hx, hy, .inl hp⟩⟩)

/-- On a prefix-free table a code names its own symbol. -/
theorem symbolOf_bits {ct : CodeTable} (h : PrefixFree ct) {x : Byte} (hx : (tableGet ct x).len ≠ 0#8) :
    symbolOf ct (tableGet ct x).bits = some x := by
  cases hs : symbolOf ct (tableGet ct x).bits with
  | none => exact absurd rfl (symbolOf_eq_none.1 hs x)
  | some y =>
    have hy := symbolOf_eq_some hs
    have hy0 : (tableGet ct y).len ≠ 0#8 := by
      intro h0
      rw [CodeEntry.bits_eq_nil.2 h0] at hy
      exact hx (CodeEntry.bits_eq_nil.1 hy.symm)
    rw [h.eq_of_prefix hy0 hx (by rw [hy])]

/-- A proper, non-empty prefix of a code names nothing. -/
theorem symbolOf_proper_prefix {ct : CodeTable} (h : PrefixFree ct) {x : Byte} (hx : (tableGet ct x).len ≠ 0#8)
    {acc rest : Bits} (ha : acc ≠ []) (hr : rest ≠ []) (he : (tableGet ct x).bits = acc ++ rest) :
    symbolOf ct acc = none := by
  rw [symbolOf_eq_none]
  intro y hy
  have hy0 : (tableGet ct y).len ≠ 0#8 := by
    intro h0
    rw [CodeEntry.bits_eq_nil.2 h0] at hy
    exact ha hy.symm
  have : y = x := h.eq_of_prefix hy0 hx (by rw [hy, he]; exact List.prefix_append _ _)
  subst this
  rw [hy] at he
  exact hr (by simpa using he.symm)

/-! ## The loop -/

/-- From an accumulator that is a proper prefix of a code, the rest of the code emits its symbol at once. -/
theorem decodeLoop_rest_of_code {ct : CodeTable} {depth : Nat} (h : PrefixFree ct) {x : Byte}
    (hx : (tableGet ct x).len ≠ 0#8) {p start : Nat} {acc rest tail : Bits} {out : List Byte}
    (he : (tableGet ct x).bits = acc ++ rest) (hr : rest ≠ []) :
    decodeLoop ct depth p start acc out (rest ++ tail) =
      if out.length = depth then .error ⟨.capacityExceeded, BitVec.ofNat 32 start⟩
      else decodeLoop ct depth (p + rest.length) (p + rest.length) [] (out ++ [x]) tail := by
  induction rest generalizing p acc with
  | nil => exact absurd rfl hr
  | cons b rest ih =>
    simp only [List.cons_append, decodeLoop]
    by_cases hb : rest = []
    · subst hb
      rw [← he, symbolOf_bits h hx]
      simp
    · rw [symbolOf_proper_prefix h hx (by simp) hb (by simpa using he)]
      simp only
      rw [ih (by simpa using he) hb]
      simp [Nat.add_assoc, Nat.add_comm 1]

/-- The loop reads the codes of a coded sequence that OUT can hold and goes on behind it. -/
theorem decodeLoop_codeStream {ct : CodeTable} {depth : Nat} (h : PrefixFree ct) {xs : List Byte}
    (hx : AllCoded ct xs) {p : Nat} {out : List Byte} {tail : Bits} (hd : out.length + xs.length ≤ depth) :
    decodeLoop ct depth p p [] out (codeStream ct xs ++ tail) =
      decodeLoop ct depth (p + (codeStream ct xs).length) (p + (codeStream ct xs).length) [] (out ++ xs) tail := by
  induction xs generalizing p out with
  | nil => simp
  | cons x xs ih =>
    rw [allCoded_cons] at hx
    rw [codeStream_cons, List.append_assoc,
      decodeLoop_rest_of_code h hx.1 (acc := []) (rest := (tableGet ct x).bits) rfl (fun hn => hx.1 (CodeEntry.bits_eq_nil.1 hn))]
    have : out.length ≠ depth := by simp at hd; omega
    rw [if_neg this, ih hx.2 (by simp at hd ⊢; omega)]
    simp [Nat.add_assoc]

/-- Bits that never complete a code end in DecodeFailure at the start of the remainder (R121). -/
theorem decodeLoop_unmatched {ct : CodeTable} {depth p start : Nat} {acc rest : Bits} {out : List Byte}
    (hn : acc ++ rest ≠ []) (hm : ∀ q, q <+: rest → q ≠ [] → symbolOf ct (acc ++ q) = none) :
    decodeLoop ct depth p start acc out rest = .error ⟨.decodeFailure, BitVec.ofNat 32 start⟩ := by
  induction rest generalizing p acc with
  | nil =>
    have : acc ≠ [] := by simpa using hn
    cases acc with
    | nil => exact absurd rfl this
    | cons a acc => rfl
  | cons b rest ih =>
    simp only [decodeLoop]
    rw [hm [b] (by simp) (by simp)]
    simp only
    apply ih (by simp)
    intro q hq _
    have := hm (b :: q) (by simpa using hq) (by simp)
    simpa using this

/-- A successful loop is exact: the bits are the accumulator's and the codes of what it emits, all of them coded,
and OUT holds them. -/
theorem decodeLoop_eq_ok {ct : CodeTable} {depth p start : Nat} {acc rest : Bits} {out res : List Byte}
    (h : decodeLoop ct depth p start acc out rest = .ok res) (hd : out.length ≤ depth) :
    ∃ xs, res = out ++ xs ∧ AllCoded ct xs ∧ acc ++ rest = codeStream ct xs ∧ res.length ≤ depth := by
  induction rest generalizing p start acc out with
  | nil =>
    simp only [decodeLoop] at h
    split at h
    · next ha =>
      cases h
      refine ⟨[], by simp, allCoded_nil ct, ?_, hd⟩
      simpa using ha
    · exact nomatch h
  | cons b rest ih =>
    simp only [decodeLoop] at h
    split at h
    · next x hx =>
      split at h
      · exact nomatch h
      · next hfull =>
        obtain ⟨xs, rfl, hxs, hs, hl⟩ := ih h (by simp; omega)
        have hb := symbolOf_eq_some hx
        refine ⟨x :: xs, by simp, allCoded_cons.2 ⟨fun h0 => ?_, hxs⟩, ?_, hl⟩
        · rw [CodeEntry.bits_eq_nil.2 h0] at hb; simp at hb
        · rw [codeStream_cons, hb, ← hs]; simp
    · obtain ⟨xs, rfl, hxs, hs, hl⟩ := ih h hd
      exact ⟨xs, rfl, hxs, by rw [← hs]; simp, hl⟩

end Sys2Proof.Machine
end

