-- ==== Sys2Proof/Laws/Engine.lean ====
section
/-! SUPPORT. What a command's execution and a step can do, said once (40_command_control.md R80 to R82). -/

namespace Sys2Proof.Machine

/-- The fields of the host's side, as fields: no command writes them (30_encoding.md R68). -/
structure SameHostFields (s u : State) : Prop where
  params : u.params = s.params
  inLen  : u.inLen = s.inLen
  doneIe : u.doneIe = s.doneIe
  inBuf  : u.inBuf = s.inBuf
  events : u.events = s.events
  resp   : u.resp = s.resp
  draws  : u.draws = s.draws

theorem SameHostFields.refl (s : State) : SameHostFields s s := ⟨rfl, rfl, rfl, rfl, rfl, rfl, rfl⟩

/-- The result fields a command other than its owner leaves alone. -/
structure SameResults (i : Instr) (s u : State) : Prop where
  freq : i ≠ .count → u.freq = s.freq
  tree : i ≠ .build → u.node = s.node ∧ u.nsym = s.nsym ∧ u.root = s.root ∧ u.nodeCount = s.nodeCount
  ctab : i ≠ .gencodes → u.ctab = s.ctab
  pay  : i ≠ .encode → u.payBuf = s.payBuf ∧ u.bitLen = s.bitLen ∧ u.payBytes = s.payBytes
  out  : i ≠ .decode → u.outBuf = s.outBuf ∧ u.outLen = s.outLen

theorem SameResults.refl (i : Instr) (s : State) : SameResults i s s :=
  ⟨fun _ => rfl, fun _ => ⟨rfl, rfl, rfl, rfl⟩, fun _ => rfl, fun _ => ⟨rfl, rfl, rfl⟩, fun _ => ⟨rfl, rfl⟩⟩

/-- A command ends in the completion of a state in which only its own results changed, or it is GENCODES on a NODE
content that is no tree. -/
theorem exec_cases (i : Instr) (s : State) :
    (∃ u e, exec i s = .next (u.complete i.opcode e) ∧ SameHostFields s u ∧ SameResults i s u) ∨
    (i = .gencodes ∧ s.nodeCount ≠ 0#9 ∧ generatedTable s = none ∧ exec i s = .fault .malformedTree) := by
  cases i with
  | nop => exact .inl ⟨s, none, rfl, .refl s, .refl _ s⟩
  | count =>
    simp only [exec, execCount]
    split
    · exact .inl ⟨s, _, rfl, .refl s, .refl _ s⟩
    · refine .inl ⟨_, _, rfl, ⟨rfl, rfl, rfl, rfl, rfl, rfl, rfl⟩, ?_⟩
      exact ⟨fun h => absurd rfl h, fun _ => ⟨rfl, rfl, rfl, rfl⟩, fun _ => rfl, fun _ => ⟨rfl, rfl, rfl⟩,
        fun _ => ⟨rfl, rfl⟩⟩
  | build =>
    simp only [exec, execBuild]
    split
    all_goals
      refine .inl ⟨_, _, rfl, ⟨rfl, rfl, rfl, rfl, rfl, rfl, rfl⟩, ?_⟩
      exact ⟨fun _ => rfl, fun h => absurd rfl h, fun _ => rfl, fun _ => ⟨rfl, rfl, rfl⟩, fun _ => ⟨rfl, rfl⟩⟩
  | gencodes =>
    simp only [exec, execGencodes]
    split
    · exact .inl ⟨s, _, rfl, .refl s, .refl _ s⟩
    · next h0 =>
      split
      · refine .inl ⟨_, _, rfl, ⟨rfl, rfl, rfl, rfl, rfl, rfl, rfl⟩, ?_⟩
        exact ⟨fun _ => rfl, fun _ => ⟨rfl, rfl, rfl, rfl⟩, fun h => absurd rfl h, fun _ => ⟨rfl, rfl, rfl⟩,
          fun _ => ⟨rfl, rfl⟩⟩
      · next hg => exact .inr ⟨trivial, h0, hg, rfl⟩
  | encode =>
    simp only [exec, execEncode]
    repeat' split
    all_goals
      refine .inl ⟨_, _, rfl, ⟨rfl, rfl, rfl, rfl, rfl, rfl, rfl⟩, ?_⟩
      exact ⟨fun _ => rfl, fun _ => ⟨rfl, rfl, rfl, rfl⟩, fun _ => rfl, fun h => absurd rfl h, fun _ => ⟨rfl, rfl⟩⟩
  | validate => exact .inl ⟨s, _, rfl, .refl s, .refl _ s⟩
  | decode =>
    simp only [exec, execDecode]
    repeat' split
    all_goals
      refine .inl ⟨_, _, rfl, ⟨rfl, rfl, rfl, rfl, rfl, rfl, rfl⟩, ?_⟩
      exact ⟨fun _ => rfl, fun _ => ⟨rfl, rfl, rfl, rfl⟩, fun _ => rfl, fun _ => ⟨rfl, rfl, rfl⟩,
        fun h => absurd rfl h⟩

/-- The next state of a command is a completion of it. -/
theorem exec_eq_next {i : Instr} {s t : State} (h : exec i s = .next t) :
    ∃ u e, t = u.complete i.opcode e ∧ SameHostFields s u ∧ SameResults i s u := by
  rcases exec_cases i s with ⟨u, e, he, h1, h2⟩ | ⟨-, -, -, he⟩
  · rw [he] at h
    cases h
    exact ⟨u, e, rfl, h1, h2⟩
  · rw [he] at h
    exact nomatch h

/-- No command is refused. -/
theorem exec_ne_refused (i : Instr) (s : State) (r : Refusal) : exec i s ≠ .refused r := by
  rcases exec_cases i s with ⟨u, e, he, -⟩ | ⟨-, -, -, he⟩ <;> rw [he] <;> exact nofun

theorem completed_complete (u : State) (op : Byte) (e : Option Raised) : Completed op e (u.complete op e) :=
  ⟨rfl, rfl, rfl, State.complete_errBit u op e, rfl, rfl, rfl⟩

/-! ## The engine's event -/

@[simp] theorem engineStep_init {s : State} (h : s.phase = .init) : engineStep s = .next s.finishInit := by
  simp [engineStep, h]

@[simp] theorem engineStep_idle {s : State} (h : s.phase = .idle) : engineStep s = .next s := by
  simp [engineStep, h]

@[simp] theorem engineStep_busy {s : State} {w : Word} (h : s.phase = .busy w) :
    engineStep s = completePending w s := by
  simp [engineStep, h]

/-- What the engine's event can be. -/
theorem engineStep_eq_next {s t : State} (h : engineStep s = .next t) :
    (s.phase = .init ∧ t = s.finishInit) ∨ (s.phase = .idle ∧ t = s) ∨
    (∃ w i, s.phase = .busy w ∧ decodeWord w = .ok i ∧ exec i s = .next t) ∨
    (∃ w r, s.phase = .busy w ∧ decodeWord w = .error r ∧ t = illegalCompletion w s) := by
  cases hp : s.phase with
  | init => rw [engineStep_init hp] at h; cases h; exact .inl ⟨rfl, rfl⟩
  | idle => rw [engineStep_idle hp] at h; cases h; exact .inr (.inl ⟨rfl, rfl⟩)
  | busy w =>
    rw [engineStep_busy hp] at h
    simp only [completePending] at h
    split at h
    · next i hi => exact .inr (.inr (.inl ⟨w, i, rfl, hi, h⟩))
    · next r hr => cases h; exact .inr (.inr (.inr ⟨w, r, rfl, hr, rfl⟩))

/-- What a step can be: the engine's event, a transaction, or reset. -/
theorem step_eq_next {s t : State} (h : step s = .next t) :
    (s.events = [] ∧ engineStep s = .next t) ∨
    (∃ es, s.events = .engine :: es ∧ engineStep { s with events := es } = .next t) ∨
    (∃ x es, s.events = .bus x :: es ∧ t = State.busStep { s with events := es } x) ∨
    (∃ es, s.events = .reset :: es ∧ t = State.applyReset { s with events := es }) := by
  cases he : s.events with
  | nil => simp only [step, he] at h; exact .inl ⟨rfl, h⟩
  | cons e es =>
    cases e with
    | engine => simp only [step, he] at h; exact .inr (.inl ⟨es, rfl, h⟩)
    | bus x => simp only [step, he] at h; cases h; exact .inr (.inr (.inl ⟨x, es, rfl, rfl⟩))
    | reset => simp only [step, he] at h; cases h; exact .inr (.inr (.inr ⟨es, rfl, rfl⟩))

end Sys2Proof.Machine
end

