-- ==== Sys2Proof/Laws/Frequency.lean ====
section
/-! SUPPORT. The histogram of COUNT is the count of each symbol (41_frequency.md R87, R89). -/

namespace Sys2Proof.Machine

theorem tableGet_countSymbol (f : FreqTable) (a x : Byte) :
    tableGet (countSymbol f a) x = if a = x then tableGet f x + 1#32 else tableGet f x := by
  rw [countSymbol, tableGet_tableSet]
  split
  · next h => rw [h]
  · rfl

theorem tableGet_foldl_countSymbol (l : List Byte) (f : FreqTable) (x : Byte) :
    tableGet (l.foldl countSymbol f) x = tableGet f x + BitVec.ofNat 32 (l.count x) := by
  induction l generalizing f with
  | nil => simp
  | cons a l ih =>
    rw [List.foldl_cons, ih, tableGet_countSymbol, List.count_cons]
    by_cases h : a = x
    · subst h
      simp only [if_true, beq_self_eq_true]
      rw [BitVec.add_assoc, ← BitVec.ofNat_add, Nat.add_comm]
    · simp [h]

theorem tableGet_histogram (l : List Byte) (x : Byte) :
    tableGet (histogram l) x = BitVec.ofNat 32 (l.count x) := by
  rw [histogram, tableGet_foldl_countSymbol, tableGet_tableOf]
  simp

@[simp] theorem State.inSymbols_length (s : State) : s.inSymbols.length = s.inLen.toNat := by
  simp [State.inSymbols]

theorem sum_indicator (L : List Byte) (a : Byte) : (L.map fun x => if x = a then 1 else 0).sum = L.count a := by
  induction L with
  | nil => rfl
  | cons b L ih =>
    rw [List.map_cons, List.sum_cons, ih, List.count_cons]
    by_cases h : b = a <;> simp [h, Nat.add_comm]

theorem count_allSymbols (a : Byte) : allSymbols.count a = 1 :=
  List.count_eq_one_of_mem allSymbols_nodup (mem_allSymbols a)

/-- The counts of a list of symbols sum to its length. -/
theorem sum_count_allSymbols (l : List Byte) : (allSymbols.map fun x => l.count x).sum = l.length := by
  induction l with
  | nil =>
    rw [List.sum_eq_zero]
    · rfl
    · intro n hn
      obtain ⟨x, -, rfl⟩ := List.mem_map.1 hn
      rfl
  | cons a l ih =>
    have h : (allSymbols.map fun x => (a :: l).count x) =
        (allSymbols.map fun x => l.count x + if x = a then 1 else 0) := by
      apply List.map_congr_left
      intro x _
      rw [List.count_cons]
      by_cases hx : x = a
      · simp [hx]
      · have : ¬ a = x := fun h => hx h.symm
        simp [hx, this]
    rw [h, List.sum_map_add, ih, sum_indicator, count_allSymbols]
    rfl

end Sys2Proof.Machine
end

