-- ==== Sys2Proof/Laws/PerInstr.lean ====
section
/-! SUPPORT. Statements about an instruction as syntax, one lemma per constructor of Instr (30_encoding.md R67 to
R69). -/

namespace Sys2Proof.Laws

/-- Family `CmdwWord`: the command word of an instruction has RSVD = 0 and holds its opcode in bits 7:0 (R67), and
the instruction is well formed. -/
def CmdwWord.Statement (i : Instr) : Prop :=
  i.wf = true ∧ commandRsvd (Sys2Proof.encode i) = 0#24 ∧ commandOpcode (Sys2Proof.encode i) = i.opcode

theorem CmdwWord.nop : CmdwWord.Statement .nop := ⟨rfl, rfl, rfl⟩
theorem CmdwWord.count : CmdwWord.Statement .count := ⟨rfl, rfl, rfl⟩
theorem CmdwWord.build : CmdwWord.Statement .build := ⟨rfl, rfl, rfl⟩
theorem CmdwWord.gencodes : CmdwWord.Statement .gencodes := ⟨rfl, rfl, rfl⟩
theorem CmdwWord.encode : CmdwWord.Statement .encode := ⟨rfl, rfl, rfl⟩
theorem CmdwWord.validate : CmdwWord.Statement .validate := ⟨rfl, rfl, rfl⟩
theorem CmdwWord.decode : CmdwWord.Statement .decode := ⟨rfl, rfl, rfl⟩

end Sys2Proof.Laws
end

