-- ==== Sys2Proof/Laws/TreeBuilder.lean ====
section
/-! SUPPORT. The queue's pop and the merge loop of BUILD (42_tree_builder.md R92, R94 to R97). -/

namespace Sys2Proof.Machine

/-! ## pop -/

theorem QueueKey.before_false_iff {a b : QueueKey} : QueueKey.before a b = false ↔
    b.weight.toNat < a.weight.toNat ∨ (b.weight.toNat = a.weight.toNat ∧ b.index ≤ a.index) := by
  rw [Bool.eq_false_iff]
  simp only [QueueKey.before, ne_eq, Bool.or_eq_true, decide_eq_true_eq, Bool.and_eq_true, beq_iff_eq]
  omega

/-- Two keys with different indices are ordered one way or the other (R94: every pop has exactly one answer). -/
theorem QueueKey.before_of_before_false {a b : QueueKey} (h : QueueKey.before b a = false) (hne : b.index ≠ a.index) :
    QueueKey.before a b = true := by
  rw [QueueKey.before_false_iff] at h
  simp only [QueueKey.before, Bool.or_eq_true, decide_eq_true_eq, Bool.and_eq_true, beq_iff_eq]
  omega

theorem foldl_least_spec (ks : List QueueKey) (k : QueueKey) :
    ks.foldl QueueKey.least k ∈ k :: ks ∧
      ∀ j ∈ k :: ks, QueueKey.before j (ks.foldl QueueKey.least k) = false := by
  induction ks generalizing k with
  | nil =>
    refine ⟨by simp, fun j hj => ?_⟩
    obtain rfl : j = k := by simpa using hj
    rw [QueueKey.before_false_iff]
    simp
  | cons a ks ih =>
    obtain ⟨h1, h2⟩ := ih (QueueKey.least k a)
    rw [List.foldl_cons]
    generalize ks.foldl QueueKey.least (QueueKey.least k a) = m at h1 h2
    have hl : QueueKey.least k a = k ∨ QueueKey.least k a = a := by
      unfold QueueKey.least; split <;> simp
    have hk : QueueKey.before k (QueueKey.least k a) = false ∧ QueueKey.before a (QueueKey.least k a) = false := by
      unfold QueueKey.least
      cases hb : QueueKey.before a k with
      | true =>
        simp only [if_true]
        rw [QueueKey.before_false_iff, QueueKey.before_false_iff]
        simp only [QueueKey.before, Bool.or_eq_true, decide_eq_true_eq, Bool.and_eq_true, beq_iff_eq] at hb
        omega
      | false =>
        simp only [Bool.false_eq_true, if_false]
        exact ⟨by rw [QueueKey.before_false_iff]; omega, hb⟩
    have hm := h2 (QueueKey.least k a) (by simp)
    refine ⟨?_, fun j hj => ?_⟩
    · rcases List.mem_cons.1 h1 with h | h
      · rcases hl with hl | hl <;> simp [h, hl]
      · simp [h]
    · rw [QueueKey.before_false_iff] at hm hk ⊢
      obtain ⟨hk1, hk2⟩ := hk
      rw [QueueKey.before_false_iff] at hk2
      rcases List.mem_cons.1 hj with rfl | hj
      · omega
      · rcases List.mem_cons.1 hj with rfl | hj
        · omega
        · have := h2 j (by simp [hj])
          rw [QueueKey.before_false_iff] at this
          omega

/-- pop removes one key, and no key of the queue comes before it. -/
theorem Queue.pop_eq_some {q q' : Queue} {m : QueueKey} (h : Queue.pop q = some (m, q')) :
    q.Perm (m :: q') ∧ ∀ j ∈ q, QueueKey.before j m = false := by
  cases q with
  | nil => exact nomatch h
  | cons k ks =>
    simp only [Queue.pop, Option.some.injEq, Prod.mk.injEq] at h
    obtain ⟨rfl, rfl⟩ := h
    obtain ⟨h1, h2⟩ := foldl_least_spec ks k
    exact ⟨List.perm_cons_erase h1, h2⟩

theorem Queue.pop_of_ne_nil {q : Queue} (h : q ≠ []) : ∃ m q', Queue.pop q = some (m, q') := by
  cases q with
  | nil => exact absurd rfl h
  | cons k ks => exact ⟨_, _, rfl⟩

/-! ## The merge loop -/

/-- The total weight of the leaves. -/
def totalWeight (leaves : List Node) : Nat := (leaves.map fun d => d.weight.toNat).sum

/-- Entry `c` lies below `n` and is no child of an inner entry below `n`; the first `k` entries are the leaves. -/
def ParentlessIn (k : Nat) (nodes : List Node) (n c : Nat) : Prop :=
  c < n ∧ ∀ (m : Nat) (d : Node), k ≤ m → m < n → nodes[m]? = some d → d.left.toNat ≠ c ∧ d.right.toNat ≠ c

/-- A longer list has the same parentless entries below an index of the shorter one. -/
theorem parentlessIn_append {k n c : Nat} {nodes more : List Node} (hn : n ≤ nodes.length) :
    ParentlessIn k (nodes ++ more) n c ↔ ParentlessIn k nodes n c := by
  unfold ParentlessIn
  refine and_congr_right fun _ => forall_congr' fun m => forall_congr' fun d => ?_
  refine imp_congr_right fun _ => forall_congr' fun hm => ?_
  rw [List.getElem?_append_left (by omega)]

/-- Entry `n`'s merge took the two least keys, the least to the left (R94, R95). -/
def MergesLeast (k : Nat) (nodes : List Node) (n : Nat) (d : Node) : Prop :=
  ParentlessIn k nodes n d.left.toNat ∧ ParentlessIn k nodes n d.right.toNat ∧
  ∀ (l r e : Node) (c : Nat), nodes[d.left.toNat]? = some l → nodes[d.right.toNat]? = some r →
    nodes[c]? = some e → ParentlessIn k nodes n c → c ≠ d.left.toNat →
    QueueKey.before ⟨l.weight, d.left.toNat⟩ ⟨e.weight, c⟩ = true ∧
    (c ≠ d.right.toNat → QueueKey.before ⟨r.weight, d.right.toNat⟩ ⟨e.weight, c⟩ = true)

/-- A merge is judged by the entries below it alone. -/
theorem MergesLeast.append {k n : Nat} {nodes more : List Node} {d : Node} (h : MergesLeast k nodes n d)
    (hn : n ≤ nodes.length) : MergesLeast k (nodes ++ more) n d := by
  have hget : ∀ {c : Nat}, c < n → (nodes ++ more)[c]? = nodes[c]? := fun hc =>
    List.getElem?_append_left (by omega)
  refine ⟨(parentlessIn_append hn).2 h.1, (parentlessIn_append hn).2 h.2.1, ?_⟩
  intro l r e c hl hr he hc hne
  rw [parentlessIn_append hn] at hc
  rw [hget h.1.1] at hl
  rw [hget h.2.1.1] at hr
  rw [hget hc.1] at he
  exact h.2.2 l r e c hl hr he hc hne

/-- What holds of BUILD's working copy and queue before every merge. -/
structure Forest (leaves nodes : List Node) (q : Queue) : Prop where
  len     : nodes.length + q.length = 2 * leaves.length
  pre     : leaves <+: nodes
  nodup   : (q.map QueueKey.index).Nodup
  keyed   : ∀ a ∈ q, ∃ d : Node, nodes[a.index]? = some d ∧ d.weight = a.weight
  inner   : ∀ (n : Nat) (d : Node), leaves.length ≤ n → nodes[n]? = some d →
    d.isLeaf = false ∧ d.sym = 0#8 ∧ d.left.toNat < n ∧ d.right.toNat < n ∧ d.left ≠ d.right ∧
    ∃ l r : Node, nodes[d.left.toNat]? = some l ∧ nodes[d.right.toNat]? = some r ∧
      d.weight.toNat = l.weight.toNat + r.weight.toNat
  covered : ∀ c : Nat, c < nodes.length → c ∈ q.map QueueKey.index ∨
    ∃ (n : Nat) (d : Node), leaves.length ≤ n ∧ nodes[n]? = some d ∧ (d.left.toNat = c ∨ d.right.toNat = c)
  free    : ∀ a ∈ q, ∀ (n : Nat) (d : Node), leaves.length ≤ n → nodes[n]? = some d →
    d.left.toNat ≠ a.index ∧ d.right.toNat ≠ a.index
  unique  : ∀ (c n : Nat) (d : Node) (n' : Nat) (d' : Node), leaves.length ≤ n → leaves.length ≤ n' → nodes[n]? = some d → nodes[n']? = some d' →
    (d.left.toNat = c ∨ d.right.toNat = c) → (d'.left.toNat = c ∨ d'.right.toNat = c) → n = n'
  greedy  : ∀ (n : Nat) (d : Node), leaves.length ≤ n → nodes[n]? = some d → MergesLeast leaves.length nodes n d
  total   : (q.map fun a => a.weight.toNat).sum = totalWeight leaves
  bound   : ∀ (n : Nat) (d : Node), nodes[n]? = some d → d.weight.toNat ≤ totalWeight leaves

theorem Forest.perm {leaves nodes : List Node} {q q' : Queue} (h : Forest leaves nodes q) (hp : q.Perm q') :
    Forest leaves nodes q' where
  len := by rw [← hp.length_eq]; exact h.len
  pre := h.pre
  nodup := (hp.map _).nodup_iff.1 h.nodup
  keyed a ha := h.keyed a (hp.mem_iff.2 ha)
  inner := h.inner
  covered c hc := by
    rcases h.covered c hc with hm | hm
    · exact .inl ((hp.map QueueKey.index).mem_iff.1 hm)
    · exact .inr hm
  free a ha := h.free a (hp.mem_iff.2 ha)
  unique := h.unique
  greedy := h.greedy
  total := by rw [← h.total]; exact ((hp.map fun a => a.weight.toNat).sum_eq).symm
  bound := h.bound

/-- One merge of the two least keys keeps the forest (R95). -/
theorem Forest.merge {leaves nodes : List Node} {a b : QueueKey} {q : Queue}
    (h : Forest leaves nodes (a :: b :: q)) (ha : ∀ j ∈ a :: b :: q, QueueKey.before j a = false)
    (hb : ∀ j ∈ b :: q, QueueKey.before j b = false) (hk : leaves.length ≤ 256) (hw : totalWeight leaves < 2 ^ 40) :
    Forest leaves (nodes ++ [mergedNode a b]) (q ++ [⟨a.weight + b.weight, nodes.length⟩]) := by
  have hlen := h.len
  have hpre := h.pre.length_le
  simp only [List.length_cons] at hlen
  obtain ⟨da, hda, hwa⟩ := h.keyed a (by simp)
  obtain ⟨db, hdb, hwb⟩ := h.keyed b (by simp)
  have hia : a.index < nodes.length := (List.getElem?_eq_some_iff.1 hda).1
  have hib : b.index < nodes.length := (List.getElem?_eq_some_iff.1 hdb).1
  have hnd := h.nodup
  simp only [List.map_cons, List.nodup_cons, List.mem_cons, not_or] at hnd
  have htot := h.total
  simp only [List.map_cons, List.sum_cons] at htot
  have hsum : (a.weight + b.weight).toNat = a.weight.toNat + b.weight.toNat := by
    rw [BitVec.toNat_add, Nat.mod_eq_of_lt (by omega)]
  have hla : (mergedNode a b).left.toNat = a.index := by
    simp only [mergedNode, BitVec.toNat_ofNat]; omega
  have hlb : (mergedNode a b).right.toNat = b.index := by
    simp only [mergedNode, BitVec.toNat_ofNat]; omega
  -- an entry of the longer list is an old one or the merged node
  have hget : ∀ (n : Nat) (d : Node), (nodes ++ [mergedNode a b])[n]? = some d →
      (n < nodes.length ∧ nodes[n]? = some d) ∨ (n = nodes.length ∧ d = mergedNode a b) := by
    intro n d hn
    rcases Nat.lt_trichotomy n nodes.length with hlt | heq | hgt
    · rw [List.getElem?_append_left hlt] at hn; exact .inl ⟨hlt, hn⟩
    · subst heq; simp at hn; exact .inr ⟨rfl, hn.symm⟩
    · rw [List.getElem?_eq_none (by simp; omega)] at hn; exact nomatch hn
  have hold : ∀ {n : Nat} {d : Node}, nodes[n]? = some d → (nodes ++ [mergedNode a b])[n]? = some d := by
    intro n d hn
    rw [List.getElem?_append_left (List.getElem?_eq_some_iff.1 hn).1]; exact hn
  have hnew : (nodes ++ [mergedNode a b])[nodes.length]? = some (mergedNode a b) := by simp
  refine ⟨?_, ?_, ?_, ?_, ?_, ?_, ?_, ?_, ?_, ?_, ?_⟩
  · simp; omega
  · exact h.pre.trans (List.prefix_append _ _)
  · simp only [List.map_append, List.map_cons, List.map_nil]
    rw [List.nodup_append]
    refine ⟨hnd.2.2, by simp, ?_⟩
    intro x hx y hy
    obtain ⟨c, hc, rfl⟩ := List.mem_map.1 hx
    obtain ⟨d, hd, -⟩ := h.keyed c (by simp [hc])
    have : c.index < nodes.length := (List.getElem?_eq_some_iff.1 hd).1
    simp at hy
    omega
  · intro c hc
    rcases List.mem_append.1 hc with hc | hc
    · obtain ⟨d, hd, hw'⟩ := h.keyed c (by simp [hc])
      exact ⟨d, hold hd, hw'⟩
    · simp at hc; subst hc
      exact ⟨_, hnew, rfl⟩
  · intro n d hn hd
    rcases hget n d hd with ⟨-, hd'⟩ | ⟨rfl, rfl⟩
    · obtain ⟨h1, h2, h3, h4, h5, l, r, h6, h7, h8⟩ := h.inner n d hn hd'
      exact ⟨h1, h2, h3, h4, h5, l, r, hold h6, hold h7, h8⟩
    · refine ⟨rfl, rfl, by omega, by omega, ?_, da, db, ?_, ?_, ?_⟩
      · intro he
        have : a.index = b.index := by rw [← hla, ← hlb, he]
        exact hnd.1.1 this
      · rw [hla]; exact hold hda
      · rw [hlb]; exact hold hdb
      · rw [hwa, hwb]; exact hsum
  · intro c hc
    rcases Nat.lt_or_ge c nodes.length with hlt | hge
    · rcases h.covered c hlt with hm | ⟨n, d, hn, hd, hch⟩
      · simp only [List.map_cons, List.mem_cons] at hm
        rcases hm with rfl | rfl | hm
        · exact .inr ⟨nodes.length, _, hpre, hnew, .inl hla⟩
        · exact .inr ⟨nodes.length, _, hpre, hnew, .inr hlb⟩
        · exact .inl (by simp [hm])
      · exact .inr ⟨n, d, hn, hold hd, hch⟩
    · simp at hc
      exact .inl (by simp; right; omega)
  · intro c hc n d hn hd
    rcases List.mem_append.1 hc with hc | hc
    · rcases hget n d hd with ⟨-, hd'⟩ | ⟨rfl, rfl⟩
      · exact h.free c (by simp [hc]) n d hn hd'
      · rw [hla, hlb]
        have hmem : c.index ∈ q.map QueueKey.index := List.mem_map_of_mem hc
        constructor
        · intro he; exact hnd.1.2 (he ▸ hmem)
        · intro he; exact hnd.2.1 (he ▸ hmem)
    · simp at hc; subst hc
      rcases hget n d hd with ⟨hlt, hd'⟩ | ⟨rfl, rfl⟩
      · obtain ⟨-, -, h3, h4, -⟩ := h.inner n d hn hd'
        simp only
        omega
      · rw [hla, hlb]; simp only; omega
  · intro c n d n' d' hn hn' hd hd' hc hc'
    rcases hget n d hd with ⟨-, h1⟩ | ⟨rfl, rfl⟩ <;> rcases hget n' d' hd' with ⟨-, h1'⟩ | ⟨rfl, rfl⟩
    · exact h.unique c n d n' d' hn hn' h1 h1' hc hc'
    · rw [hla, hlb] at hc'
      have ha := h.free a (by simp) n d hn h1
      have hb := h.free b (by simp) n d hn h1
      omega
    · rw [hla, hlb] at hc
      have ha := h.free a (by simp) n' d' hn' h1'
      have hb := h.free b (by simp) n' d' hn' h1'
      omega
    · rfl
  · intro n d hn hd
    rcases hget n d hd with ⟨hlt, hd'⟩ | ⟨rfl, rfl⟩
    · exact (h.greedy n d hn hd').append hlt.le
    · -- the parentless entries are those whose keys are in the queue
      have hfree : ∀ x ∈ a :: b :: q, x.index < nodes.length →
          ParentlessIn leaves.length nodes nodes.length x.index := fun x hx hlt =>
        ⟨hlt, fun m d hm _ hd => h.free x hx m d hm hd⟩
      refine ⟨?_, ?_, ?_⟩
      · rw [hla, parentlessIn_append le_rfl]; exact hfree a (by simp) hia
      · rw [hlb, parentlessIn_append le_rfl]; exact hfree b (by simp) hib
      · intro l r e c hl hr he hc hne
        rw [parentlessIn_append le_rfl] at hc
        rw [hla, List.getElem?_append_left hia, hda] at hl
        rw [hlb, List.getElem?_append_left hib, hdb] at hr
        rw [List.getElem?_append_left hc.1] at he
        cases hl
        cases hr
        rw [hla] at hne ⊢
        rw [hlb, hwa, hwb]
        have hmem : c ∈ (a :: b :: q).map QueueKey.index := by
          rcases h.covered c hc.1 with hm | ⟨m, d, hm, hd, hch⟩
          · exact hm
          · have := hc.2 m d hm (List.getElem?_eq_some_iff.1 hd).1 hd
            omega
        obtain ⟨x, hx, rfl⟩ := List.mem_map.1 hmem
        obtain ⟨e', he', hwx⟩ := h.keyed x hx
        obtain rfl : e' = e := Option.some.inj (he'.symm.trans he)
        rw [hwx]
        refine ⟨QueueKey.before_of_before_false (ha x hx) hne, fun hne' => ?_⟩
        rcases List.mem_cons.1 hx with rfl | hx
        · exact absurd rfl hne
        · exact QueueKey.before_of_before_false (hb x hx) hne'
  · simp only [List.map_append, List.map_cons, List.map_nil, List.sum_append, List.sum_cons, List.sum_nil, hsum]
    omega
  · intro n d hd
    rcases hget n d hd with ⟨-, h1⟩ | ⟨rfl, rfl⟩
    · exact h.bound n d h1
    · change (a.weight + b.weight).toNat ≤ _
      rw [hsum]; omega

/-- The loop ends with one key in the queue and a forest (R95 "Continue until exactly one node remains"). -/
theorem mergeAll_spec {leaves : List Node} (hk : leaves.length ≤ 256) (hw : totalWeight leaves < 2 ^ 40)
    (fuel : Nat) (nodes : List Node) (q : Queue) (h : Forest leaves nodes q) (hq : q ≠ [])
    (hf : q.length ≤ fuel + 1) :
    ∃ r, (mergeAll fuel nodes q).2 = [r] ∧ Forest leaves (mergeAll fuel nodes q).1 [r] := by
  induction fuel generalizing nodes q with
  | zero =>
    obtain ⟨r, rfl⟩ : ∃ r, q = [r] := List.length_eq_one_iff.1 (by
      have := List.length_pos_of_ne_nil hq; omega)
    exact ⟨r, rfl, h⟩
  | succ fuel ih =>
    simp only [mergeAll]
    have hsz : Queue.size q = q.length := rfl
    by_cases h2 : Queue.size q ≥ 2
    · rw [if_pos h2]
      obtain ⟨a, q₁, h1⟩ := Queue.pop_of_ne_nil hq
      obtain ⟨hp1, hl1⟩ := Queue.pop_eq_some h1
      have hq1 : q₁ ≠ [] := by
        intro hn; subst hn
        have := hp1.length_eq; simp at this; omega
      obtain ⟨b, q₂, h3⟩ := Queue.pop_of_ne_nil hq1
      obtain ⟨hp2, hl2⟩ := Queue.pop_eq_some h3
      rw [h1]
      simp only
      rw [h3]
      simp only [Queue.push]
      have hp := hp1.trans (hp2.cons a)
      have hl1' : ∀ j ∈ a :: b :: q₂, QueueKey.before j a = false := fun j hj => hl1 j (hp.mem_iff.2 hj)
      have hl2' : ∀ j ∈ b :: q₂, QueueKey.before j b = false := fun j hj => hl2 j (hp2.mem_iff.2 hj)
      refine ih _ _ ((h.perm hp).merge hl1' hl2' hk hw) (by simp) ?_
      have e1 := hp1.length_eq
      have e2 := hp2.length_eq
      simp at e1 e2 ⊢
      omega
    · rw [if_neg h2]
      obtain ⟨r, rfl⟩ : ∃ r, q = [r] := List.length_eq_one_iff.1 (by
        have := List.length_pos_of_ne_nil hq; omega)
      exact ⟨r, rfl, h⟩

theorem leafQueue_length (leaves : List Node) : (leafQueue leaves).length = leaves.length := by
  simp [leafQueue]

/-- The forest BUILD starts from: every leaf in the queue (R95). -/
theorem Forest.start (leaves : List Node) : Forest leaves leaves (leafQueue leaves) where
  len := by rw [leafQueue_length]; omega
  pre := List.prefix_refl _
  nodup := by
    have : (leafQueue leaves).map QueueKey.index = List.range leaves.length := by
      apply List.ext_getElem <;> simp [leafQueue]
    rw [this]; exact List.nodup_range
  keyed a ha := by
    obtain ⟨i, hi, rfl⟩ := List.mem_iff_getElem.1 ha
    rw [leafQueue_length] at hi
    exact ⟨leaves[i], by simp [leafQueue], by simp [leafQueue]⟩
  inner n d hn hd := by
    have := (List.getElem?_eq_some_iff.1 hd).1
    omega
  covered c hc := by
    refine .inl (List.mem_map.2 ⟨(leafQueue leaves)[c]'(by rw [leafQueue_length]; exact hc), ?_, ?_⟩)
    · exact List.getElem_mem _
    · simp [leafQueue]
  free a _ n d hn hd := by
    have := (List.getElem?_eq_some_iff.1 hd).1
    omega
  unique c n d n' d' hn hn' hd _ _ _ := by
    have := (List.getElem?_eq_some_iff.1 hd).1
    omega
  greedy n d hn hd := by
    have := (List.getElem?_eq_some_iff.1 hd).1
    omega
  total := by
    have : (leafQueue leaves).map (fun a => a.weight.toNat) = leaves.map fun d => d.weight.toNat := by
      apply List.ext_getElem <;> simp [leafQueue]
    rw [this]; rfl
  bound n d hd := by
    obtain ⟨hn, rfl⟩ := List.getElem?_eq_some_iff.1 hd
    exact List.le_sum_of_mem (List.mem_map_of_mem (List.getElem_mem hn))

/-- BUILD's result: 2k - 1 entries, the root is the last, and the forest is that one tree (R97). -/
theorem buildTree_spec {leaves : List Node} (h0 : leaves ≠ []) (hk : leaves.length ≤ 256)
    (hw : totalWeight leaves < 2 ^ 40) :
    ∃ r : QueueKey, (buildTree leaves).2 = r.index ∧ r.index = 2 * leaves.length - 2 ∧
      (buildTree leaves).1.length = 2 * leaves.length - 1 ∧ Forest leaves (buildTree leaves).1 [r] := by
  have hlen : leaves.length ≠ 0 := fun h => h0 (List.length_eq_zero_iff.1 h)
  have hne : leafQueue leaves ≠ [] := by
    intro h; apply hlen; rw [← leafQueue_length, h]; rfl
  obtain ⟨r, hr, hf⟩ := mergeAll_spec hk hw leaves.length leaves (leafQueue leaves) (Forest.start leaves) hne
    (by rw [leafQueue_length]; omega)
  have e1 : (buildTree leaves).1 = (mergeAll leaves.length leaves (leafQueue leaves)).1 := by
    simp [buildTree, hr, Queue.pop]
  have e2 : (buildTree leaves).2 = r.index := by
    simp [buildTree, hr, Queue.pop]
  have hl := hf.len
  simp at hl
  rw [e1, e2]
  refine ⟨r, rfl, ?_, by omega, hf⟩
  -- the last entry is no one's child, so it is the one in the queue
  have hlast := hf.covered (2 * leaves.length - 2) (by omega)
  rcases hlast with hm | ⟨n, d, hn, hd, hc⟩
  · simp only [List.map_cons, List.map_nil, List.mem_singleton] at hm
    exact hm.symm
  · obtain ⟨-, -, h3, h4, -⟩ := hf.inner n d hn hd
    have := (List.getElem?_eq_some_iff.1 hd).1
    omega

/-! ## The leaves -/

theorem leavesOf_eq (f : FreqTable) : leavesOf f =
    (allSymbols.filter fun x => tableGet f x != 0#32).map fun x =>
      { isLeaf := true, sym := x, weight := (tableGet f x).setWidth 40, left := 0#9, right := 0#9 } := by
  rw [leavesOf, tableRows_eq, List.filter_map, List.map_map]
  rfl

theorem leavesOf_length_le (f : FreqTable) : (leavesOf f).length ≤ 256 := by
  rw [leavesOf_eq, List.length_map]
  exact (List.length_filter_le _ _).trans (by simp)

theorem sum_map_filter_le {l : List Byte} (p : Byte → Bool) (g : Byte → Nat) :
    ((l.filter p).map g).sum ≤ (l.map g).sum := by
  induction l with
  | nil => simp
  | cons a l ih =>
    rw [List.filter_cons]
    split <;> simp <;> omega

theorem sum_map_le_of_le {l : List Byte} {g : Byte → Nat} {b : Nat} (h : ∀ x ∈ l, g x ≤ b) :
    (l.map g).sum ≤ l.length * b := by
  induction l with
  | nil => simp
  | cons a l ih =>
    have h1 := h a (by simp)
    have h2 := ih fun x hx => h x (by simp [hx])
    simp [Nat.succ_mul]
    omega

/-- The sum of 256 counts fits in a weight (R96). -/
theorem sum_counts_lt (f : FreqTable) : (allSymbols.map fun x => (tableGet f x).toNat).sum ≤ 256 * (2 ^ 32 - 1) := by
  have := sum_map_le_of_le (l := allSymbols) (g := fun x => (tableGet f x).toNat) (b := 2 ^ 32 - 1)
    fun x _ => by have := (tableGet f x).isLt; omega
  simpa using this

theorem totalWeight_leavesOf (f : FreqTable) :
    totalWeight (leavesOf f) ≤ (allSymbols.map fun x => (tableGet f x).toNat).sum := by
  rw [totalWeight, leavesOf_eq, List.map_map]
  refine le_trans (le_of_eq ?_) (sum_map_filter_le (fun x => tableGet f x != 0#32) fun x => (tableGet f x).toNat)
  congr 1

theorem totalWeight_leavesOf_lt (f : FreqTable) : totalWeight (leavesOf f) < 2 ^ 40 :=
  lt_of_le_of_lt ((totalWeight_leavesOf f).trans (sum_counts_lt f)) (by norm_num)

end Sys2Proof.Machine
end

