-- ==== Sys2Proof/Tests/Slice0.lean ====
section
/-! SUPPORT. The model's own tests. Expected values come from the vectors of 95_test_vectors.md (their ids stand in
the comments) or from the spec's encodings; the witnesses at the end meet the hypotheses of the statements. -/

namespace Sys2Proof.Tests

open Sys2Proof Sys2Proof.Machine

-- one kernel evaluation at a time
set_option Elab.async false

/-! ## Helpers -/

/-- The block with the three depths at `n`, after INIT. -/
def idle (n : Nat) : State := (State.powerOn ⟨n, n, n⟩).finishInit

def State.withInput (s : State) (bs : List Byte) : State :=
  { s with inBuf := s.inBuf.writeBytes 0 bs, inLen := BitVec.ofNat 32 bs.length }

def State.withPayload (s : State) (nb : Nat) (bs : List Byte) : State :=
  { s with payBuf := s.payBuf.writeBytes 0 bs, payBytes := BitVec.ofNat 32 bs.length, bitLen := BitVec.ofNat 32 nb }

def State.withFreq (s : State) (fs : List (Byte × Word)) : State :=
  { s with freq := fs.foldl (fun f r => tableSet f r.1 r.2) s.freq }

def State.withCodes (s : State) (cs : List (Byte × Bits)) : State :=
  { s with ctab := cs.foldl (fun t r => tableSet t r.1 (CodeEntry.ofBits r.2)) s.ctab }

/-- "aaabbc" (95_test_vectors.md §1). -/
def aaabbc : List Byte := [0x61#8, 0x61#8, 0x61#8, 0x62#8, 0x62#8, 0x63#8]

def o : Bool := false
def l : Bool := true

/-- The table G1. -/
def g1 : List (Byte × Bits) := [(0x61#8, [o]), (0x63#8, [l, o]), (0x62#8, [l, l])]
/-- The table G2. -/
def g2 : List (Byte × Bits) := [(0x7A#8, [o])]
/-- The table V3, which is not prefix-free. -/
def v3 : List (Byte × Bits) := [(0x41#8, [o]), (0x42#8, [o, l])]
/-- The table V8, which is not complete. -/
def v8 : List (Byte × Bits) := [(0x61#8, [o]), (0x63#8, [l, o])]

/-- The tree B1. -/
def b1 : State :=
  { idle 64 with
    node := [⟨true, 0x61#8, 3#40, 0#9, 0#9⟩, ⟨true, 0x62#8, 2#40, 0#9, 0#9⟩, ⟨true, 0x63#8, 1#40, 0#9, 0#9⟩,
             ⟨false, 0#8, 3#40, 2#9, 1#9⟩, ⟨false, 0#8, 6#40, 0#9, 3#9⟩]
    nsym := 3#9, root := 4#9, nodeCount := 5#9 }

/-- The tree B2. -/
def b2 : State :=
  { idle 64 with node := [⟨true, 0x7A#8, 4#40, 0#9, 0#9⟩], nsym := 1#9, root := 0#9, nodeCount := 1#9 }

/-- The outcome is a next state with this property. -/
def endsIn (x : Host.Outcome State Fault Refusal) (p : State → Bool) : Bool :=
  match x with
  | .next t => p t
  | _       => false

theorem exists_next {x : Host.Outcome State Fault Refusal} {p : State → Bool} (h : endsIn x p = true) :
    ∃ t, x = .next t ∧ p t = true := by
  cases x with
  | next t => exact ⟨t, rfl, h⟩
  | fault _ => exact nomatch h
  | refused _ => exact nomatch h

/-- The command word, run as the next step, ends with this STATUS and ERR_INFO, and `p` holds after it. -/
def runs (s : State) (w : Nat) (status : Word) (info : Word) (p : State → Bool) : Bool :=
  endsIn (step (s.withFetchWord 32 w)) fun t => t.statusWord == status && t.errInfo == info && t.doneIp && p t

/-- A read answers OK with this word. -/
def reads (s : State) (a : BusAddr) (d : Word) : Bool := (s.transact (.read a)).1 == .read .ok d

/-- A write answers OK, and `p` holds after it. -/
def writes (s : State) (a : BusAddr) (v : Word) (p : State → Bool) : Bool :=
  (s.transact (.write a v)).1 == .write .ok && p (s.transact (.write a v)).2

/-- A read and a write both answer ERR, the read with data 0, and change nothing that STATUS or a length shows. -/
def errs (s : State) (a : BusAddr) : Bool :=
  (s.transact (.read a)).1 == .read .err 0#32 && (s.transact (.write a 0xFFFFFFFF#32)).1 == .write .err

/-! ## WellFormed: each check refuses an ill-formed term (R7, R70) -/

theorem test_depth_must_be_multiple_of_4 : Params.wf ⟨66, 64, 64⟩ = false := by decide
theorem test_depth_zero_refused : Params.wf ⟨64, 0, 64⟩ = false := by decide
theorem test_depth_above_65536_refused : Params.wf ⟨64, 64, 65540⟩ = false := by decide
theorem test_depth_bounds_accepted : Params.wf ⟨4, 65536, 8⟩ = true := by decide
theorem test_every_instruction_wf :
    [Instr.nop, .count, .build, .gencodes, .encode, .validate, .decode].all Instr.wf = true := by decide
/-- An ill-formed word: a legal OPCODE with RSVD ≠ 0 (N5), and a reserved OPCODE (N3). No term of Instr is ill formed. -/
theorem test_illegal_words_refused :
    decodeWord 0x00000101#32 = .error .reservedBits ∧ decodeWord 0x80000004#32 = .error .reservedBits ∧
    decodeWord 0x00000007#32 = .error .reservedOpcode ∧ decodeWord 0x000000FF#32 = .error .reservedOpcode := by
  refine ⟨rfl, rfl, rfl, rfl⟩

/-! ## Decode: the words of R69, written bit by bit as opcode_table.json writes them -/

theorem test_decode_nop : decodeTableWord 32 0b00000000000000000000000000000000 = some .nop := by decide
theorem test_decode_count : decodeTableWord 32 0b00000000000000000000000000000001 = some .count := by decide
theorem test_decode_build : decodeTableWord 32 0b00000000000000000000000000000010 = some .build := by decide
theorem test_decode_gencodes : decodeTableWord 32 0b00000000000000000000000000000011 = some .gencodes := by decide
theorem test_decode_encode : decodeTableWord 32 0b00000000000000000000000000000100 = some .encode := by decide
theorem test_decode_validate : decodeTableWord 32 0b00000000000000000000000000000101 = some .validate := by decide
theorem test_decode_decode : decodeTableWord 32 0b00000000000000000000000000000110 = some .decode := by decide
theorem test_decode_reserved : decodeTableWord 32 0b00000000000000000000000100000001 = none := by decide

/-- The first step after reset runs the word that withFetchWord places (log 11). -/
theorem test_first_step_after_reset (i : Instr) : step (State.reset.withFetchWord 32 (Sys2Proof.encode i).toNat) =
    exec i (State.reset.withFetchWord 32 (Sys2Proof.encode i).toNat) := by
  cases i <;> rfl

/-! ## The commands -/

/-- N2 -/
theorem test_nop_clears_error :
    runs { idle 4 with errCode := 1#4, lastOp := 2#8, done := true } 0 0x00000002#32 0#32 (fun _ => true) = true := by
  decide +kernel
/-- F1, with an entry of FREQ from before (F3) -/
theorem test_count : runs (State.withInput (State.withFreq (idle 64) [(0#8, 7#32)]) aaabbc) 1 0x00010002#32 0#32
    (fun t => t.freqOf 0#8 == 0#32 && t.freqOf 0x61#8 == 3#32 && t.freqOf 0x62#8 == 2#32 && t.freqOf 0x63#8 == 1#32)
    = true := by
  decide +kernel
/-- F5 -/
theorem test_count_capacity : runs { idle 4 with inLen := 5#32 } 1 0x00010606#32 5#32 (fun _ => true) = true := by
  decide +kernel
/-- B9, with its ties -/
theorem test_build_ties : runs (State.withFreq (idle 4)
      [(0x61#8, 5#32), (0x62#8, 2#32), (0x63#8, 1#32), (0x64#8, 1#32), (0x72#8, 2#32)]) 2 0x00020002#32 0#32
    (fun t => t.root == 8#9 && t.nodeCount == 9#9 && t.nsym == 5#9 && t.node.drop 4 ==
      [⟨true, 0x72#8, 2#40, 0#9, 0#9⟩, ⟨false, 0#8, 2#40, 2#9, 3#9⟩, ⟨false, 0#8, 4#40, 1#9, 4#9⟩,
       ⟨false, 0#8, 6#40, 5#9, 6#9⟩, ⟨false, 0#8, 11#40, 0#9, 7#9⟩]) = true := by
  decide +kernel
/-- B7 -/
theorem test_build_weight_40_bits : runs (State.withFreq (idle 4) [(0#8, 0xFFFFFFFF#32), (1#8, 0xFFFFFFFF#32)]) 2
    0x00020002#32 0#32 (fun t => reads t 0x04020#20 0xFFFFFFFE#32 && reads t 0x04024#20 1#32 &&
      reads t 0x0402C#20 0x00010000#32) = true := by
  decide +kernel
/-- G1, read back through the window -/
theorem test_gencodes : runs b1 3 0x00030002#32 0#32
    (fun t => reads t 0x09840#20 1#32 && reads t 0x09844#20 0#32 && reads t 0x09880#20 2#32 &&
      reads t 0x09884#20 0xC0000000#32 && reads t 0x098C0#20 2#32 && reads t 0x098C4#20 0x80000000#32 &&
      reads t 0x09800#20 0#32) = true := by
  decide +kernel
/-- G9 -/
theorem test_gencodes_no_tree : runs (idle 4) 3 0x00030806#32 3#32 (fun _ => true) = true := by decide +kernel
/-- E1 -/
theorem test_encode : runs (State.withCodes (State.withInput (idle 64) aaabbc) g1) 4 0x00040002#32 0#32
    (fun t => t.bitLen == 9#32 && t.payBytes == 2#32 && t.payByte 0 == 0x1F#8 && t.payByte 1 == 0#8) = true := by
  decide +kernel
/-- E9: MissingCode before CapacityExceeded -/
theorem test_encode_missing_first :
    runs (State.withCodes
      { State.withInput (idle 64) (List.replicate 32 0x7A#8 ++ [0x71#8]) with params := ⟨64, 4, 4⟩ } g2) 4
      0x00040206#32 0x00710020#32 (fun t => t.bitLen == 0#32 && t.payBytes == 0#32) = true := by
  decide +kernel
/-- V5: the pair (1, 4) precedes the pair (2, 3) -/
theorem test_validate_first_pair :
    runs (State.withCodes (idle 4) [(1#8, [l]), (2#8, [o]), (3#8, [o, o]), (4#8, [l, l])]) 5
      0x00050406#32 0x00000401#32 (fun _ => true) = true := by
  decide +kernel
/-- The two entries of V6: word 1 is the top 32 of the 255 bits. -/
def v6a : CodeEntry := CodeEntry.setWord ⟨1#8, 0#255⟩ 1 0x7FFFFFFF#32
def v6b : CodeEntry := CodeEntry.setWord ⟨1#8, 0#255⟩ 1 0x80000000#32

/-- V6: bits at LEN and above are ignored -/
theorem test_validate_ignores_tail :
    runs { idle 4 with ctab := tableSet (tableSet (idle 4).ctab 0x10#8 v6a) 0x11#8 v6b } 5
      0x00050002#32 0#32 (fun _ => true) = true := by
  decide +kernel
/-- X1 -/
theorem test_decode_stream : runs (State.withCodes (State.withPayload (idle 64) 9 [0x1F#8, 0x00#8]) g1) 6
    0x00060002#32 0#32 (fun t => t.outLen == 6#32 && (List.range 6).map t.outByte == aaabbc) = true := by
  decide +kernel
/-- X5: the remainder begins at position 9 -/
theorem test_decode_failure : runs (State.withCodes (State.withPayload (idle 64) 10 [0x1F#8, 0x40#8]) g1) 6
    0x00060506#32 9#32 (fun t => t.outLen == 0#32) = true := by
  decide +kernel
/-- N5: COUNT does not run -/
theorem test_illegal_word : runs (State.withFreq (idle 4) [(0x61#8, 9#32)]) 0x00000101 0x00010706#32 0x00000101#32
    (fun t => t.freqOf 0x61#8 == 9#32) = true := by
  decide +kernel

/-! ## The bus -/

/-- M1, M2, M3 -/
theorem test_constants : reads State.reset 0#20 0x48554646#32 && reads State.reset 4#20 1#32 &&
    reads State.reset 8#20 0#32 && reads State.reset 0x0000C#20 1#32 && reads State.reset 0x00040#20 65536#32 := by
  decide +kernel
/-- M4 to M13 -/
theorem test_err_responses : [0x00002#20, 0x00038#20, 0x05FF0#20, 0x08024#20, 0x40000#20, 0x10004#20].all
    (errs (idle 4)) = true ∧ [0x00000#20, 0x0000C#20, 0x30000#20, 0x04000#20].all
    (fun a => ((idle 4).transact (.write a 0x12345678#32)).1 == .write .err) = true := by
  decide +kernel
/-- M14, M15, M16 -/
theorem test_reserved_bits : (writes (idle 4) 0x00030#20 0xFFFFFFFF#32 fun t => reads t 0x00030#20 1#32) ∧
    (writes (idle 4) 0x08000#20 0xFFFFFF03#32 fun t => reads t 0x08000#20 3#32) ∧
    (writes (idle 4) 0x08020#20 0xFFFFFFFF#32 fun t => reads t 0x08020#20 0xFFFFFFFE#32) := by
  decide +kernel
/-- M17 -/
theorem test_lanes : writes (idle 4) 0x10000#20 0x64636261#32 fun t =>
    (List.range 4).map t.inByte == [0x61#8, 0x62#8, 0x63#8, 0x64#8] && reads t 0x10000#20 0x64636261#32 := by
  decide +kernel
/-- M18 to M21 -/
theorem test_busy_phase : reads { idle 4 with phase := .busy 1#32, lastOp := 2#8 } 0x0000C#20 0x00020001#32 &&
    errs { idle 4 with phase := .busy 1#32 } 0x01000#20 &&
    ((State.transact { idle 4 with phase := .busy 1#32 } (.write 0x00010#20 1#32)).1 == .write .err) &&
    writes { idle 4 with phase := .busy 1#32 } 0x00030#20 1#32 fun t => t.doneIe := by
  decide +kernel
/-- I1 to I4 -/
theorem test_interrupt : (runs { idle 4 with doneIe := true } 0 2#32 0#32 fun t => t.irq &&
    writes t 0x00034#20 0#32 (fun u => u.irq) && writes t 0x00034#20 1#32 fun u => !u.irq) = true := by
  decide +kernel
/-- P5's first line, by LOADB (R77): the last word is filled with zeros. -/
theorem test_loadb : loadBytes 0x10000#20 aaabbc = [.wr 0x10000#20 0x62616161#32, .wr 0x10004#20 0x00006362#32] := by
  decide

/-! ## Witnesses: a state and operands that meet the hypotheses of each statement, clause by clause -/

theorem witness_CommandWordDecodesByRule : ((idle 4).phase = .idle ∧
      decodeWord 0x00000107#32 = .error .reservedBits) ∧ (0x00000100#32).toNat / 256 ≠ 0 ∧
    ((0x00000006#32).toNat / 256 = 0 ∧ (0x00000006#32).toNat % 256 ≤ 6) ∧
    ((0x00000007#32).toNat / 256 = 0 ∧ 6 < (0x00000007#32).toNat % 256) :=
  ⟨⟨rfl, rfl⟩, by decide, by decide, by decide⟩

/-- A state whose pending word is COUNT. -/
def pending : State := { idle 64 with phase := .busy 1#32 }

theorem witness_StepCompletesDecodedCommand : pending.phase = .busy 1#32 ∧ decodeWord 1#32 = .ok .count ∧
    pending.events = [] ∧ ({ pending with events := [.engine] } : State).events = .engine :: [] :=
  ⟨rfl, rfl, rfl, rfl⟩

theorem witness_IllegalWordCompletes : ({ pending with phase := .busy 0x101#32, events := [.engine] } : State).phase =
    .busy 0x101#32 ∧ (0x101#32).toNat / 256 ≠ 0 ∧ 7 ≤ (0x107#32).toNat % 256 ∧ 7 ≤ (0x007#32).toNat % 256 := by
  refine ⟨rfl, ?_, ?_, ?_⟩ <;> decide

theorem witness_StepMakesListedMove :
    ({ idle 4 with events := [.bus (.read 0#20)] } : State).events = .bus (.read 0#20) :: [] ∧
    ({ idle 4 with events := [.engine] } : State).events = .engine :: [] ∧ (idle 4).phase = .idle ∧
    (idle 4).events = [] := ⟨rfl, rfl, rfl, rfl⟩

theorem witness_ResetGivesResetValues : ({ pending with events := [.reset] } : State).events = .reset :: [] := rfl

theorem witness_InitClearsTables : State.reset.phase = .init ∧ (0x048, RegName.outDepth) ∈ regMap ∧
    InWindow (0x01000#20).toNat ∧ InWindow (0x05FEC#20).toNat ∧ InWindow (0x0BFFC#20).toNat ∧
    InWindow (0x3FFFC#20).toNat := by
  unfold InWindow
  decide

theorem witness_ResetAbandonsCommand :
    ({ pending with events := [.reset, .engine] } : State).phase = .busy 1#32 ∧
    ({ pending with events := [.reset, .engine] } : State).events = .reset :: .engine :: [] := ⟨rfl, rfl⟩

theorem witness_AcceptanceOfCommandWord : (idle 4).phase = .idle ∧ State.reset.phase ≠ .idle ∧ pending.phase ≠ .idle := by
  decide

theorem witness_MisalignedAccessGetsErr : (0x00002#20).toNat % 4 ≠ 0 := by decide

theorem witness_ErrResponseChangesNothing : ((idle 4).transact (.read 0x00002#20)).1 = .read .err 0#32 ∧
    ((idle 4).transact (.write 0x00000#20 1#32)).1 = .write .err := ⟨rfl, rfl⟩

/-- One address for each clause of the list, at a bound of its range. -/
theorem witness_UnmappedAddressGetsErr : ∀ a ∈ [0x00038, 0x00FFC, 0x05FF0, 0x05FFC, 0x08024, 0x0BFFC, 0x10040, 0x1FFFC,
    0x20040, 0x30040, 0x01400, 0x03FFC, 0x06000, 0x0C000, 0x0FFFC, 0x40000, 0xFFFFC],
    Unmapped (idle 64).params (BitVec.ofNat 20 a).toNat := by
  unfold Unmapped
  decide

theorem witness_AccessRights : (0x00048#20) ∈ readOnlyRegs ∧ 0x04000 ≤ (0x05FEC#20).toNat ∧
    (0x05FEC#20).toNat < 0x05FF0 ∧ 0x30000 ≤ (0x3FFFC#20).toNat ∧ (idle 64).phase = .idle ∧
    (idle 64).params.wf = true ∧ (0x2003C#20).toNat % 4 = 0 ∧ ¬ Unmapped (idle 64).params (0x2003C#20).toNat ∧
    (0x2003C#20) ∉ readOnlyRegs ∧ ¬ 0x30000 ≤ (0x2003C#20).toNat := by
  unfold Unmapped
  decide

theorem witness_BusyPhaseRestrictions : pending.phase ≠ .idle ∧ State.reset.phase ≠ .idle ∧
    InWindow (0x01000#20).toNat ∧ (0x000, RegName.id) ∈ regMap := by
  unfold InWindow
  decide

/-- For FreqWindowReadsAndWrites, NodeWindowLayout, CtabWindowReadsAndWrites (at the ends of their ranges) and
LengthRegisterWrites (whose clause on INT_EN has no hypotheses). -/
theorem witness_windows : (idle 64).phase = .idle ∧ (510 : Nat) ≤ 510 ∧ (1 : Nat) ≤ 8 ∧ (31 : Nat) < 32 ∧
    32 * (8 - 1) + 30 < 255 := by decide

theorem witness_ByteBufferLanes : (idle 64).phase = .idle ∧ (idle 64).params.wf = true ∧ 60 % 4 = 0 ∧
    60 < (idle 64).params.inDepth ∧ 60 < (idle 64).params.payDepth ∧ 60 < (idle 64).params.outDepth := by decide

theorem witness_RegisterReads : State.reset.params.wf = true := by decide

theorem witness_InterruptStatusRule : (1#32).getLsbD 0 = true ∧ (2#32).getLsbD 0 = false ∧
    pending.phase = .busy 1#32 ∧ (∃ t, engineStep pending = .next t) ∧
    (∃ t, engineStep (pending.transact (.write 0x00034#20 1#32)).2 = .next t) ∧ State.reset.phase = .init ∧
    ∃ t, engineStep State.reset = .next t :=
  ⟨rfl, rfl, rfl, ⟨_, rfl⟩, ⟨_, rfl⟩, rfl, ⟨_, rfl⟩⟩

theorem witness_IrqIsEnableAndPending : (1#32).getLsbD 0 = true ∧ ({ idle 4 with doneIp := true } : State).doneIp = true :=
  ⟨rfl, rfl⟩

theorem witness_CommandWritesOnlyItsResults : ∃ t, exec .validate (idle 4) = .next t ∧ Instr.validate ≠ .count :=
  ⟨_, rfl, by decide⟩

theorem witness_OnlyBuildWritesTree : pending.phase = .busy 1#32 ∧ 1#32 ≠ 0x00000002#32 ∧
    (∃ t, engineStep pending = .next t) ∧ State.reset.phase = .init := ⟨rfl, by decide, ⟨_, rfl⟩, rfl⟩

/-- "aaabbc" in IN. -/
def loaded : State := State.withInput (idle 64) aaabbc

theorem witness_CountBuildsHistogram : loaded.inLen.toNat ≤ loaded.params.inDepth ∧
    ({ idle 4 with inLen := 5#32 } : State).params.inDepth < ({ idle 4 with inLen := 5#32 } : State).inLen.toNat := by
  decide +kernel

theorem witness_CountLaws : loaded.params.wf = true ∧ loaded.inLen.toNat ≤ loaded.params.inDepth ∧
    (State.withInput (idle 64) aaabbc.reverse).inLen.toNat ≤ 64 ∧
    (State.withInput (idle 64) aaabbc.reverse).inSymbols.Perm loaded.inSymbols := by
  decide +kernel

theorem witness_CountReadsOnlyItsInput : ({ loaded with errInfo := 9#32 } : State).params.inDepth = loaded.params.inDepth ∧
    ({ loaded with errInfo := 9#32 } : State).inLen = loaded.inLen ∧
    ∀ i, i < loaded.inLen.toNat → ({ loaded with errInfo := 9#32 } : State).inByte i = loaded.inByte i :=
  ⟨rfl, rfl, fun _ _ => rfl⟩

theorem witness_QueuePopsLeastKey : Queue.pop [⟨2#40, 1⟩, ⟨2#40, 0⟩] = some (⟨2#40, 0⟩, [⟨2#40, 1⟩]) := by
  decide +kernel

theorem witness_BuildOnEmptyInput : ∀ x, (idle 4).freqOf x = 0#32 := fun x => tableGet_tableOf _ x

/-- For BuildMakesHuffmanTree, BuildWeightsNeverOverflow, GeneratedTableLaws and BuildIsOptimal. -/
theorem witness_Build : (State.withFreq (idle 4) [(0x61#8, 1#32), (0x62#8, 1#32)]).freqOf 0x61#8 ≠ 0#32 ∧
    (State.withFreq (idle 4) [(0x61#8, 1#32), (0x62#8, 1#32)]).freqOf 0x62#8 ≠ 0#32 ∧ (0x61#8) ≠ 0x62#8 := by
  decide +kernel

/-- A prefix-free code for every symbol: its eight bits. -/
theorem witness_BuildIsOptimal : ∀ a b : Byte, a ≠ b →
    ¬ (List.range 8).map a.getMsbD <+: (List.range 8).map b.getMsbD := by
  intro a b hne hp
  apply hne
  have h := hp.eq_of_length (by simp)
  apply BitVec.eq_of_getMsbD_eq
  intro i hi
  have := congrArg (fun q : List Bool => q[i]?) h
  simpa [hi] using this

theorem witness_GencodesWithoutTree : (idle 4).nodeCount = 0#9 := rfl

theorem witness_tree : TreeShape b1 where
  nsym_pos := by decide
  nsym_le := by decide
  count := by decide
  root := by decide
  stored := by decide
  leaf := by decide +kernel
  ascending := by
    intro m n hm hn
    have hn : n < 3 := hn
    have : m < 3 := by omega
    interval_cases n <;> interval_cases m <;> first | omega | decide +kernel
  inner := by
    intro n h1 h2
    have h1 : 3 ≤ n := h1
    have h2 : n < 5 := h2
    interval_cases n <;> decide +kernel
  parent := by
    intro c hc
    have hc : c < 4 := hc
    have key : ∀ n, (∀ m, 3 ≤ m → m < 5 → ((b1.nodeAt m).left.toNat = c ∨ (b1.nodeAt m).right.toNat = c) → m = n) →
        3 ≤ n → n < 5 → ((b1.nodeAt n).left.toNat = c ∨ (b1.nodeAt n).right.toNat = c) →
        ∃ n, (b1.nsym.toNat ≤ n ∧ n < b1.nodeCount.toNat ∧
          ((b1.nodeAt n).left.toNat = c ∨ (b1.nodeAt n).right.toNat = c)) ∧
          ∀ m, b1.nsym.toNat ≤ m → m < b1.nodeCount.toNat →
            ((b1.nodeAt m).left.toNat = c ∨ (b1.nodeAt m).right.toNat = c) → m = n :=
      fun n h1 h2 h3 h4 => ⟨n, ⟨h2, h3, h4⟩, h1⟩
    have h3 : (b1.nodeAt 3).left.toNat = 2 ∧ (b1.nodeAt 3).right.toNat = 1 := by decide +kernel
    have h4 : (b1.nodeAt 4).left.toNat = 0 ∧ (b1.nodeAt 4).right.toNat = 3 := by decide +kernel
    interval_cases c
    all_goals first
      | refine key 4 ?_ (by omega) (by omega) (by omega)
        intro m h1 h2 h
        interval_cases m <;> omega
      | refine key 3 ?_ (by omega) (by omega) (by omega)
        intro m h1 h2 h
        interval_cases m <;> omega
  weight := by
    intro n h1 h2
    have h1 : 3 ≤ n := h1
    have h2 : n < 5 := h2
    interval_cases n <;> decide +kernel

/-- For GencodesSingleLeaf. -/
theorem witness_single_leaf : TreeShape b2 ∧ b2.nsym.toNat = 1 := by
  refine ⟨⟨by decide, by decide, by decide, by decide, by decide, by decide +kernel, ?_, ?_, ?_, ?_⟩, rfl⟩
  · intro m n hm hn
    have hn : n < 1 := hn
    omega
  · intro n h1 h2
    have h1 : 1 ≤ n := h1
    have h2 : n < 1 := h2
    omega
  · intro c hc
    exact absurd hc (Nat.not_lt_zero c)
  · intro n h1 h2
    have h1 : 1 ≤ n := h1
    have h2 : n < 1 := h2
    omega

/-- The greedy clause of BuildMakesHuffmanTree has something to say on B1: of the entries 0, 1 and 2 below entry 3, which
takes 2 and 1, entry 0 stays, and below entry 4 it is left with entry 3. -/
theorem witness_BuildMakesHuffmanTree_greedy : b1.Parentless 3 0 ∧ b1.Parentless 3 1 ∧ b1.Parentless 3 2 ∧
    b1.Parentless 4 0 ∧ b1.Parentless 4 3 ∧ ¬ b1.Parentless 4 1 := by
  have none_below : ∀ m, b1.nsym.toNat ≤ m → ¬ m < 3 := fun m h => Nat.not_lt.2 h
  have only_three : ∀ m, b1.nsym.toNat ≤ m → m < 4 → m = 3 := fun m h h' => Nat.le_antisymm (Nat.le_of_lt_succ h') h
  refine ⟨⟨by decide, ?_⟩, ⟨by decide, ?_⟩, ⟨by decide, ?_⟩, ⟨by decide, ?_⟩, ⟨by decide, ?_⟩, ?_⟩
  · exact fun m h h' => absurd h' (none_below m h)
  · exact fun m h h' => absurd h' (none_below m h)
  · exact fun m h h' => absurd h' (none_below m h)
  · intro m h h'
    rw [only_three m h h']
    decide
  · intro m h h'
    rw [only_three m h h']
    decide
  · exact fun h => (h.2 3 (by decide) (by decide)).2 (by decide)

theorem witness_GencodesCodesArePaths : TreeShape b1 ∧ 2 ≤ b1.nsym.toNat := ⟨witness_tree, by decide⟩

theorem witness_GencodesWritesFreshTable : TreeShape b1 ∧
    (State.withCodes b1 v3).nodeCount = b1.nodeCount ∧ (State.withCodes b1 v3).root = b1.root ∧
    (∀ n, n < b1.nodeCount.toNat → (State.withCodes b1 v3).nodeAt n = b1.nodeAt n) ∧
    ∀ n, n < b1.nsym.toNat → (b1.nodeAt n).sym ≠ 0x41#8 :=
  ⟨witness_tree, rfl, rfl, fun _ _ => rfl, by decide +kernel⟩

/-- "aaabbc" in IN and G1 in CTAB. -/
def coded : State := State.withCodes loaded g1

theorem witness_EncodePacksCodes : coded.params.wf = true ∧ 1 ≤ coded.inLen.toNat ∧
    coded.inLen.toNat ≤ coded.params.inDepth ∧ AllCoded coded.ctab coded.inSymbols ∧
    (codeStream coded.ctab coded.inSymbols).length ≤ 8 * coded.params.payDepth := by
  unfold AllCoded
  decide +kernel

/-- E6 and E8 as witnesses of the two clauses. -/
theorem witness_EncodeStopsAtFirstBadSymbol :
    (AllCoded coded.ctab ((State.withInput coded [0x61#8, 0x62#8, 0x64#8]).inSymbols.take 2) ∧
      (coded.codeOf ((State.withInput coded [0x61#8, 0x62#8, 0x64#8]).inByte 2)).len = 0#8) ∧
    (AllCoded coded.ctab (List.replicate 32 0x61#8) ∧ (coded.codeOf 0x62#8).len ≠ 0#8 ∧
      8 * (idle 4).params.payDepth <
        (codeStream coded.ctab (List.replicate 32 0x61#8)).length + (coded.codeOf 0x62#8).len.toNat ∧
      (codeStream coded.ctab (List.replicate 32 0x61#8)).length ≤ 8 * (idle 4).params.payDepth) := by
  unfold AllCoded
  decide +kernel

theorem witness_EncodePreChecks : (idle 4).inLen = 0#32 ∧
    ({ idle 4 with inLen := 5#32 } : State).params.inDepth < ({ idle 4 with inLen := 5#32 } : State).inLen.toNat := by
  decide

/-- For the first clause of EncodeLengthLaws and for PayloadFormat; the second clause's is witness_CountLaws. -/
theorem witness_EncodeLengthLaws : ∃ t, exec .encode coded = .next t ∧ t.errCode = 0#4 := by
  obtain ⟨t, h, hp⟩ := exists_next (x := exec .encode coded) (p := fun t => t.errCode == 0#4) (by decide +kernel)
  exact ⟨t, h, by simpa using hp⟩

theorem witness_prefix_free : PrefixFree (State.withCodes (idle 64) g1).ctab :=
  firstPair_eq_none.1 (by decide +kernel)

theorem witness_ValidateReportsFirstPair : FirstPair (State.withCodes (idle 64) v3).ctab 0x41#8 0x42#8 ∧
    ¬ PrefixFree (State.withCodes (idle 64) v3).ctab := by
  have h : FirstPair (State.withCodes (idle 64) v3).ctab 0x41#8 0x42#8 := firstPair_eq_some.1 (by decide +kernel)
  exact ⟨h, fun hp => hp _ _ h.2.1⟩

/-- X14, X4 and X3 as witnesses of the two clauses. -/
theorem witness_DecodeLengthCheck : (4 : Nat) < (5#32).toNat ∧
    8 * (State.withPayload (idle 4) 9 [0x1F#8]).payBytes.toNat < (State.withPayload (idle 4) 9 [0x1F#8]).bitLen.toNat ∧
    (State.withPayload (idle 4) 9 [0x1F#8]).payBytes.toNat ≤ (idle 4).params.payDepth ∧
    (State.withPayload (idle 4) 9 [0x1F#8, 0#8, 0#8]).payBytes.toNat ≠ (9 + 7) / 8 := by
  decide +kernel

theorem witness_DecodeRejectsBadTable :
    LengthsOk (State.withCodes (State.withPayload (idle 64) 1 [0#8]) v3) ∧
    FirstPair (State.withCodes (State.withPayload (idle 64) 1 [0#8]) v3).ctab 0x41#8 0x42#8 :=
  ⟨by unfold LengthsOk; decide +kernel, firstPair_eq_some.1 (by decide +kernel)⟩

/-- X1 -/
def x1 : State := State.withCodes (State.withPayload (idle 64) 9 [0x1F#8, 0#8]) g1

theorem witness_DecodeInvertsCodeStream : x1.params.wf = true ∧ LengthsOk x1 ∧ PrefixFree x1.ctab ∧
    AllCoded x1.ctab aaabbc ∧ x1.payBits = codeStream x1.ctab aaabbc ∧ aaabbc.length ≤ x1.params.outDepth := by
  refine ⟨by decide, ?_, firstPair_eq_none.1 (by decide +kernel), ?_, ?_, by decide⟩
  · unfold LengthsOk; decide +kernel
  · unfold AllCoded; decide +kernel
  · decide +kernel

theorem witness_DecodeSuccessIsExact : ∃ t, exec .decode x1 = .next t ∧ t.errCode = 0#4 := by
  obtain ⟨t, h, hp⟩ := exists_next (x := exec .decode x1) (p := fun t => t.errCode == 0#4) (by decide +kernel)
  exact ⟨t, h, by simpa using hp⟩

/-- X5 -/
def x5 : State := State.withCodes (State.withPayload (idle 64) 10 [0x1F#8, 0x40#8]) g1

theorem witness_DecodeFailureAtUnmatchedEnd : x5.params.wf = true ∧ LengthsOk x5 ∧ PrefixFree x5.ctab ∧
    AllCoded x5.ctab aaabbc ∧ x5.payBits = codeStream x5.ctab aaabbc ++ [true] ∧
    (∀ x, (x5.codeOf x).len ≠ 0#8 → ¬ (x5.codeOf x).bits <+: [true]) ∧ aaabbc.length ≤ x5.params.outDepth := by
  refine ⟨by decide, ?_, firstPair_eq_none.1 (by decide +kernel), ?_, ?_, ?_, by decide⟩
  · unfold LengthsOk; decide +kernel
  · unfold AllCoded; decide +kernel
  · decide +kernel
  · intro x
    change (tableGet (tableSet (tableSet (tableSet (idle 64).ctab 0x61#8 (CodeEntry.ofBits [o])) 0x63#8
      (CodeEntry.ofBits [l, o])) 0x62#8 (CodeEntry.ofBits [l, l])) x).len ≠ 0#8 →
      ¬ (tableGet (tableSet (tableSet (tableSet (idle 64).ctab 0x61#8 (CodeEntry.ofBits [o])) 0x63#8
      (CodeEntry.ofBits [l, o])) 0x62#8 (CodeEntry.ofBits [l, l])) x).bits <+: [true]
    simp only [tableGet_tableSet]
    split
    · decide +kernel
    · split
      · decide +kernel
      · split
        · decide +kernel
        · exact fun h => absurd (congrArg CodeEntry.len (tableGet_tableOf CodeEntry.absent x)) h

/-- X15 -/
def x15 : State := State.withCodes (State.withPayload (idle 4) 5 [0#8]) g2

theorem witness_DecodeStopsWhenOutIsFull : x15.params.wf = true ∧ LengthsOk x15 ∧ PrefixFree x15.ctab ∧
    AllCoded x15.ctab (List.replicate 4 0x7A#8) ∧ (x15.codeOf 0x7A#8).len ≠ 0#8 ∧
    x15.payBits = codeStream x15.ctab (List.replicate 4 0x7A#8) ++ (x15.codeOf 0x7A#8).bits ++ [] ∧
    (List.replicate 4 0x7A#8).length = x15.params.outDepth := by
  refine ⟨by decide, ?_, firstPair_eq_none.1 (by decide +kernel), ?_, ?_, ?_, by decide⟩
  · unfold LengthsOk; decide +kernel
  · unfold AllCoded; decide +kernel
  · decide +kernel
  · decide +kernel

/-- Another value of the padding bits (X2), and of the bits after the code. -/
theorem witness_DecodeReadsOnlyItsBits :
    ∀ p, p < x1.bitLen.toNat →
      ({ x1 with payBuf := ⟨[(0, 0x1F#8), (1, 0x7F#8)], 0⟩ } : State).payBit p = x1.payBit p := by
  decide +kernel

theorem witness_CodeTailIsIgnored : ∀ x, (tableGet (tableOf (⟨0#8, 1#255⟩ : CodeEntry)) x).len = ((idle 4).codeOf x).len ∧
    ∀ i, i < ((idle 4).codeOf x).len.toNat →
      (tableGet (tableOf (⟨0#8, 1#255⟩ : CodeEntry)) x).bit i = ((idle 4).codeOf x).bit i := by
  intro x
  have h : (idle 4).codeOf x = CodeEntry.absent := tableGet_tableOf _ x
  rw [tableGet_tableOf, h]
  exact ⟨rfl, fun i hi => absurd hi (Nat.not_lt_zero i)⟩

theorem witness_EncodeThenDecodeGivesInputBack : loaded.params.wf = true ∧ 1 ≤ loaded.inLen.toNat ∧
    loaded.inLen.toNat ≤ loaded.params.inDepth ∧ loaded.inLen.toNat ≤ loaded.params.outDepth := by
  decide +kernel

/-- Its last clause: the four commands run on `loaded`, and a state that differs from the one ENCODE leaves, in IN_LEN and
ERR_INFO, agrees with it on what DECODE reads. -/
theorem witness_EncodeThenDecodeGivesInputBack_reload : ∃ a b c d, exec .count loaded = .next a ∧
    exec .build a = .next b ∧ exec .gencodes b = .next c ∧ exec .encode c = .next d ∧ d.errCode = 0#4 ∧
    ∃ d' : State, d' ≠ d ∧ d'.params = d.params ∧ (∀ x, d'.codeOf x = d.codeOf x) ∧ d'.bitLen = d.bitLen ∧
      d'.payBytes = d.payBytes ∧ ∀ j, j < d.payBytes.toNat → d'.payByte j = d.payByte j := by
  obtain ⟨a, ha, h⟩ := exists_next (x := exec .count loaded)
    (p := fun a => endsIn (exec .build a) fun b => endsIn (exec .gencodes b) fun c => endsIn (exec .encode c)
      fun d => d.errCode == 0#4) (by decide +kernel)
  obtain ⟨b, hb, h⟩ := exists_next h
  obtain ⟨c, hc, h⟩ := exists_next h
  obtain ⟨d, hd, h⟩ := exists_next h
  exact ⟨a, b, c, d, ha, hb, hc, hd, by simpa using h, { d with inLen := d.inLen + 1#32, errInfo := 9#32 },
    fun e => absurd (congrArg State.inLen e) (show ¬ d.inLen + 1#32 = d.inLen by bv_omega),
    rfl, fun _ => rfl, rfl, rfl, fun _ _ => rfl⟩

/-- The least and the greatest legal depths. -/
theorem witness_ResetMeetsInvariant : Params.wf ⟨4, 4, 4⟩ = true ∧ Params.wf ⟨65536, 65536, 65536⟩ = true := by decide

/-- The idle state and the busy one meet the invariant, and steps from them answer a next state. -/
theorem witness_invariant : Inv (idle 64) ∧ Inv pending := by
  constructor
  all_goals
    exact ⟨by decide, by decide, by decide, by decide, by decide, nofun, .inl ⟨rfl, rfl, rfl⟩, by decide, by decide,
      by unfold BufferOk; decide, by unfold BufferOk; decide, by unfold BufferOk; decide⟩

/-- The same with a tree in NODE. -/
theorem witness_invariant_tree : Inv b1 :=
  ⟨by decide, by decide, by decide, by decide, by decide, nofun, .inr witness_tree, by decide, by decide,
    by unfold BufferOk; decide, by unfold BufferOk; decide, by unfold BufferOk; decide⟩

theorem witness_EveryStepKeepsInvariant : (∃ t, step (idle 64) = .next t) ∧ ∃ t, step pending = .next t :=
  ⟨⟨_, rfl⟩, ⟨_, rfl⟩⟩

/-- A NODE content that is no tree: an entry that is its own child. -/
def looped : State :=
  { idle 4 with node := [⟨false, 0#8, 0#40, 0#9, 0#9⟩], nsym := 1#9, nodeCount := 1#9 }

theorem walkTree_looped (fuel : Nat) (p : Bits) (ct : CodeTable) : walkTree looped fuel 0 p ct = none := by
  induction fuel generalizing p ct with
  | zero => rfl
  | succ fuel ih =>
    rw [walkTree]
    show (match walkTree looped fuel 0 (p ++ [false]) ct with | none => none | some ct₁ => _) = none
    rw [ih]

theorem witness_NoStepStops : (pending.phase = .busy 1#32) ∧ exec .gencodes looped = .fault .malformedTree := by
  refine ⟨rfl, ?_⟩
  have hr : looped.root.toNat = 0 := rfl
  have hl : (looped.nodeAt 0).isLeaf = false := rfl
  have h : generatedTable looped = none := by
    simp only [generatedTable, hr, hl, Bool.false_eq_true, if_false, walkTree_looped]
  have hn : looped.nodeCount ≠ 0#9 := by decide
  simp only [exec, execGencodes, h, hn, if_false]

theorem witness_RunReadsItsCommandDone : Inv (idle 64) ∧ (idle 64).phase = .idle := ⟨witness_invariant.1, rfl⟩

end Sys2Proof.Tests
end

section
/-! The invariant of the machine (00_scope.md R7, 10_state.md R20, R30, R31, 42_tree_builder.md R97,
70_reset_and_hazards.md R140): reset meets it, and every step keeps it. -/

namespace Sys2Proof.Machine

/-! ## The byte buffers under draws and stores -/

theorem BufferOk.mono {m : Memory} {depth d d' : Nat} (h : BufferOk m depth d) (hd : d ≤ d') :
    BufferOk m depth d' :=
  ⟨h.1, h.2.1, h.2.2.trans_le hd⟩

theorem BufferOk.writeBytes {m : Memory} {depth d i : Nat} {bs : List Byte} (h : BufferOk m depth d)
    (hi : i + bs.length ≤ depth) : BufferOk (m.writeBytes i bs) depth d :=
  ⟨Memory.writeBytes_wf h.1 i bs, Memory.writeBytes_within h.2.1 hi, by rw [Memory.writeBytes_draw]; exact h.2.2⟩

theorem BufferOk.writeWord {m : Memory} {depth d o : Nat} (h : BufferOk m depth d) (ho : o + 3 < depth)
    (v : Word) : BufferOk (m.writeWord o v) depth d :=
  h.writeBytes (by simp; omega)

theorem bufferOk_drawn (depth d : Nat) : BufferOk (Memory.drawn d) depth (d + 1) :=
  ⟨Memory.drawn_wf d, Memory.drawn_within d depth, Nat.lt_succ_self d⟩

/-! ## The tree of BUILD -/

theorem NoTree.of_same {s t : State} (h : NoTree s) (hk : t.nsym = s.nsym) (hr : t.root = s.root)
    (hc : t.nodeCount = s.nodeCount) : NoTree t := by
  unfold NoTree
  rw [hk, hr, hc]
  exact h

theorem State.nodeAt_of_getElem? {s : State} {n : Nat} {d : Node} (hn : n < s.nodeCount.toNat)
    (hd : s.node[n]? = some d) : s.nodeAt n = d := by
  simp [State.nodeAt, hn, hd]

theorem isLeaf_of_mem_leavesOf {f : FreqTable} {d : Node} (h : d ∈ leavesOf f) :
    d.isLeaf = true ∧ d.left = 0#9 ∧ d.right = 0#9 := by
  rw [leavesOf_eq] at h
  obtain ⟨x, -, rfl⟩ := List.mem_map.1 h
  exact ⟨rfl, rfl, rfl⟩

/-- BUILD makes its leaves in ascending order of their symbols (R95). -/
theorem leavesOf_pairwise (f : FreqTable) : (leavesOf f).Pairwise fun d e => d.sym.toNat < e.sym.toNat := by
  rw [leavesOf_eq, List.pairwise_map]
  exact allSymbols_pairwise.filter _

/-- A forest whose queue holds only the last entry is one tree: a state that holds it, with its leaves in
ascending order, holds a tree of the shape of R97. -/
theorem Forest.treeShape {leaves nodes : List Node} {r : QueueKey} {s : State} (hf : Forest leaves nodes [r])
    (hne : leaves ≠ []) (hk : leaves.length ≤ 256) (hr : r.index = 2 * leaves.length - 2)
    (hleaf : ∀ d ∈ leaves, d.isLeaf = true ∧ d.left = 0#9 ∧ d.right = 0#9)
    (hasc : leaves.Pairwise fun d e => d.sym.toNat < e.sym.toNat) (hnode : nodes <+: s.node)
    (hnsym : s.nsym.toNat = leaves.length) (hroot : s.root.toNat = r.index)
    (hcount : s.nodeCount.toNat = 2 * leaves.length - 1) : TreeShape s := by
  have hpos : 0 < leaves.length := List.length_pos_of_ne_nil hne
  have hlen : nodes.length = s.nodeCount.toNat := by
    have := hf.len
    simp only [List.length_singleton] at this
    omega
  have hat : ∀ {n : Nat}, n < s.nodeCount.toNat → nodes[n]? = some (s.nodeAt n) := by
    intro n hn
    have hn' : n < nodes.length := by omega
    rw [State.nodeAt_of_getElem? hn (List.prefix_iff_getElem?.1 hnode n hn'), List.getElem?_eq_getElem hn']
  have hatLeaf : ∀ {n : Nat} (hn : n < leaves.length), leaves[n] = s.nodeAt n := by
    intro n hn
    exact Option.some.inj ((List.prefix_iff_getElem?.1 hf.pre n hn).symm.trans (hat (by omega)))
  have hinner := fun n (h1 : s.nsym.toNat ≤ n) (h2 : n < s.nodeCount.toNat) =>
    hf.inner n _ (hnsym ▸ h1) (hat h2)
  refine ⟨by omega, by omega, by omega, by omega, hlen ▸ hnode.length_le, ?leaf, ?ascending, ?inner, ?parent,
    ?weight⟩
  case leaf =>
    intro n hn
    rw [hnsym] at hn
    rw [← hatLeaf hn]
    exact hleaf _ (List.getElem_mem hn)
  case ascending =>
    intro m n hmn hn
    rw [hnsym] at hn
    rw [← hatLeaf hn, ← hatLeaf (hmn.trans hn)]
    exact List.pairwise_iff_getElem.1 hasc m n _ hn hmn
  case inner =>
    intro n h1 h2
    obtain ⟨hi, hsym, hleft, hright, hdist, -⟩ := hinner n h1 h2
    exact ⟨hi, hsym, hleft, hright, hdist⟩
  case parent =>
    intro c hc
    rcases hf.covered c (by omega) with hq | ⟨n, d, h1, hd, hch⟩
    · have : c = r.index := by simpa using hq
      omega
    · have h2 : n < s.nodeCount.toNat := hlen ▸ (List.getElem?_eq_some_iff.1 hd).1
      obtain rfl : d = s.nodeAt n := Option.some.inj (hd.symm.trans (hat h2))
      refine ⟨n, ⟨hnsym ▸ h1, h2, hch⟩, fun m hm1 hm2 hm => ?_⟩
      exact hf.unique c m _ n _ (hnsym ▸ hm1) h1 (hat hm2) hd hm hch
  case weight =>
    intro n h1 h2
    obtain ⟨-, -, hleft, hright, -, l, r, hdl, hdr, hw⟩ := hinner n h1 h2
    rw [hat (hleft.trans h2)] at hdl
    rw [hat (hright.trans h2)] at hdr
    cases hdl
    cases hdr
    exact hw

/-! ## The commands that own a field of the invariant -/

/-- BUILD leaves no tree (R98) or a tree of the shape of R97, and NODE keeps to its 511 entries (R37). -/
theorem execBuild_tree {s t : State} (h : exec .build s = .next t) (hs : s.node.length ≤ 511) :
    (NoTree t ∨ TreeShape t) ∧ t.node.length ≤ 511 := by
  simp only [exec, execBuild] at h
  split at h
  · cases h
    exact ⟨.inl ⟨rfl, rfl, rfl⟩, hs⟩
  · next hlen =>
    cases h
    have hne : leavesOf s.freq ≠ [] := fun h0 => hlen (by rw [h0]; rfl)
    have hk := leavesOf_length_le s.freq
    obtain ⟨r, hroot, hr, hl, hf⟩ := buildTree_spec hne hk (totalWeight_leavesOf_lt s.freq)
    refine ⟨.inr (hf.treeShape hne hk hr (fun _ => isLeaf_of_mem_leavesOf) (leavesOf_pairwise s.freq)
      (List.prefix_append _ _) ?_ ?_ ?_), ?_⟩
    · simp; omega
    · simp [hroot]; omega
    · simp; omega
    · simp; omega

/-- ENCODE stores within PAY, or PAY is drawn anew (R110, R111). -/
theorem execEncode_payBuf {s t : State} (h : exec .encode s = .next t)
    (hs : BufferOk s.payBuf s.params.payDepth s.draws) : BufferOk t.payBuf s.params.payDepth t.draws := by
  have keep := hs.mono (Nat.le_succ _)
  simp only [exec, execEncode] at h
  split at h
  · cases h; exact keep
  · split at h
    · cases h; exact keep
    · split at h
      · cases h; exact bufferOk_drawn _ _
      · next bits hbits =>
        cases h
        obtain ⟨-, hfit, rfl⟩ := (encodeLoop_eq_ok (Nat.zero_le _)).1 hbits
        refine keep.writeBytes ?_
        rw [packBits_length, Nat.zero_add, ceilDiv8_le]
        simpa using hfit

/-- DECODE stores within OUT or OUT is drawn anew, and OUT_LEN stays within OUT_DEPTH (R120, R122). -/
theorem execDecode_out {s t : State} (h : exec .decode s = .next t)
    (hs : BufferOk s.outBuf s.params.outDepth s.draws) :
    BufferOk t.outBuf s.params.outDepth t.draws ∧ t.outLen.toNat ≤ s.params.outDepth := by
  have keep := hs.mono (Nat.le_succ _)
  simp only [exec, execDecode] at h
  split at h
  · cases h; exact ⟨keep, Nat.zero_le _⟩
  · split at h
    · cases h; exact ⟨keep, Nat.zero_le _⟩
    · split at h
      · cases h; exact ⟨keep, Nat.zero_le _⟩
      · split at h
        · cases h; exact ⟨bufferOk_drawn _ _, Nat.zero_le _⟩
        · next out hout =>
          cases h
          obtain ⟨-, -, -, -, hfit⟩ := decodeLoop_eq_ok hout (Nat.zero_le _)
          exact ⟨keep.writeBytes (by simpa using hfit), (Nat.mod_le _ _).trans hfit⟩

/-! ## The invariant in two parts -/

/-- The part of the invariant that speaks of the status fields and the phase. -/
structure StatusInv (s : State) : Prop where
  busy   : s.busyBit = true → s.done = false ∧ s.errCode = 0#4
  undone : s.done = false → s.errCode = 0#4
  code   : s.errCode.toNat ≤ 8
  info   : s.done = true → s.errCode = 0#4 → s.errInfo = 0#32
  init   : s.phase = .init → InitRegs s

/-- The part of the invariant that speaks of the depths, the tree and the buffers. -/
structure DataInv (s : State) : Prop where
  params : s.params.wf = true
  tree   : NoTree s ∨ TreeShape s
  nodes  : s.node.length ≤ 511
  out    : s.outLen.toNat ≤ s.params.outDepth
  inBuf  : BufferOk s.inBuf s.params.inDepth s.draws
  payBuf : BufferOk s.payBuf s.params.payDepth s.draws
  outBuf : BufferOk s.outBuf s.params.outDepth s.draws

theorem inv_iff {s : State} : Inv s ↔ StatusInv s ∧ DataInv s :=
  ⟨fun h => ⟨⟨h.busy, h.undone, h.code, h.info, h.init⟩,
      ⟨h.params, h.tree, h.nodes, h.out, h.inBuf, h.payBuf, h.outBuf⟩⟩,
    fun ⟨hs, hd⟩ => ⟨hd.params, hs.busy, hs.undone, hs.code, hs.info, hs.init, hd.tree, hd.nodes, hd.out, hd.inBuf,
      hd.payBuf, hd.outBuf⟩⟩

/-- A valid tree, or none, depends only on the four fields that hold it. -/
theorem tree_of_same {s t : State} (h : NoTree s ∨ TreeShape s) (hn : t.node = s.node) (hk : t.nsym = s.nsym)
    (hr : t.root = s.root) (hc : t.nodeCount = s.nodeCount) : NoTree t ∨ TreeShape t :=
  h.imp (·.of_same hk hr hc) (·.of_same hn hk hr hc)

/-! ## Completion, acceptance, the end of INIT, reset -/

theorem statusInv_complete (u : State) (op : Byte) (e : Option Raised) : StatusInv (u.complete op e) where
  busy   := nofun
  undone := nofun
  code   := errCodeOf_le e
  info _ h := by
    obtain rfl : e = none := errCodeOf_eq_zero.1 h
    rfl
  init   := nofun

theorem statusInv_accept (s : State) (w : Word) : StatusInv (s.accept w) :=
  ⟨fun _ => ⟨rfl, rfl⟩, fun _ => rfl, Nat.zero_le 8, nofun, nofun⟩

theorem StatusInv.finishInit {s : State} (h : StatusInv s) (hp : s.phase = .init) : StatusInv s.finishInit where
  busy   := nofun
  undone := h.undone
  code   := h.code
  info hd _ := by
    have hb : s.busyBit = true := by rw [State.busyBit, hp]; rfl
    exact absurd (hd.symm.trans (h.busy hb).1) nofun
  init   := nofun

/-- Reset gives every register its value of R140 and draws the buffers anew (R142). -/
theorem inv_applyReset {s : State} (hp : s.params.wf = true) : Inv s.applyReset where
  params := hp
  busy _ := ⟨rfl, rfl⟩
  undone _ := rfl
  code   := Nat.zero_le 8
  info   := nofun
  init _ := ⟨rfl, rfl, rfl, rfl, rfl, ⟨rfl, rfl, rfl⟩, rfl, rfl⟩
  tree   := .inl ⟨rfl, rfl, rfl⟩
  nodes  := Nat.zero_le 511
  out    := Nat.zero_le _
  inBuf  := bufferOk_drawn _ _
  payBuf := bufferOk_drawn _ _
  outBuf := bufferOk_drawn _ _

/-- The power-on state is a reset of itself, so it needs no argument of its own. -/
theorem State.powerOn_eq_applyReset (p : Params) :
    State.powerOn p = State.applyReset { State.powerOn p with draws := 0 } := rfl

theorem inv_powerOn {p : Params} (hp : p.wf = true) : Inv (State.powerOn p) := by
  rw [State.powerOn_eq_applyReset]
  exact inv_applyReset hp

/-- Settles O57: both states are the power-on state of legal depths. -/
theorem resetMeetsInvariant : Obligations.ResetMeetsInvariant := by
  unfold Obligations.ResetMeetsInvariant
  exact ⟨fun _ => inv_powerOn, inv_powerOn (by decide)⟩

/-! ## Moves that keep the tree and the output -/

/-- What acceptance, the end of INIT and every host write leave alone: the depths, the tree, the output. -/
structure SameTreeAndOut (s t : State) : Prop where
  params    : t.params = s.params
  node      : t.node = s.node
  nsym      : t.nsym = s.nsym
  root      : t.root = s.root
  nodeCount : t.nodeCount = s.nodeCount
  outLen    : t.outLen = s.outLen
  outBuf    : t.outBuf = s.outBuf
  draws     : s.draws ≤ t.draws

/-- Such a move keeps the data part when the host's buffers stay in order. -/
theorem DataInv.of_same {s t : State} (h : DataInv s) (hs : SameTreeAndOut s t)
    (hin : BufferOk t.inBuf s.params.inDepth t.draws) (hpay : BufferOk t.payBuf s.params.payDepth t.draws) :
    DataInv t where
  params := by rw [hs.params]; exact h.params
  tree   := tree_of_same h.tree hs.node hs.nsym hs.root hs.nodeCount
  nodes  := by rw [hs.node]; exact h.nodes
  out    := by rw [hs.outLen, hs.params]; exact h.out
  inBuf  := by rw [hs.params]; exact hin
  payBuf := by rw [hs.params]; exact hpay
  outBuf := by rw [hs.outBuf, hs.params]; exact h.outBuf.mono hs.draws

theorem DataInv.accept {s : State} (h : DataInv s) (w : Word) : DataInv (s.accept w) :=
  h.of_same ⟨rfl, rfl, rfl, rfl, rfl, rfl, rfl, Nat.le_succ _⟩ (h.inBuf.mono (Nat.le_succ _))
    (h.payBuf.mono (Nat.le_succ _))

theorem DataInv.finishInit {s : State} (h : DataInv s) : DataInv s.finishInit :=
  h.of_same ⟨rfl, rfl, rfl, rfl, rfl, rfl, rfl, Nat.le_succ _⟩ (h.inBuf.mono (Nat.le_succ _))
    (h.payBuf.mono (Nat.le_succ _))

theorem DataInv.complete {s : State} (h : DataInv s) (op : Byte) (e : Option Raised) :
    DataInv (s.complete op e) :=
  h.of_same ⟨rfl, rfl, rfl, rfl, rfl, rfl, rfl, Nat.le_succ _⟩ (h.inBuf.mono (Nat.le_succ _))
    (h.payBuf.mono (Nat.le_succ _))

/-! ## Host transactions -/

/-- An accepted write other than CMD's keeps the status fields, the tree and the output (R15, R51). -/
theorem State.writeLoc_same {s t : State} {v : Word} {l : Loc} (h : s.writeLoc v l = .ok t) :
    t = s.accept v ∨
    (SameTreeAndOut s t ∧ t.phase = s.phase ∧ t.done = s.done ∧ t.errCode = s.errCode ∧ t.errInfo = s.errInfo) := by
  rcases State.writeLoc_eq_ok h with ⟨-, -, rfl⟩ | ⟨-, -, rfl⟩ | ⟨-, -, rfl⟩ | ⟨-, -, rfl⟩ | ⟨-, rfl⟩ | ⟨-, rfl⟩ |
    ⟨x, -, -, rfl⟩ | ⟨x, w, -, -, rfl⟩ | ⟨o, -, -, rfl⟩ | ⟨o, -, -, rfl⟩
  · exact .inl rfl
  all_goals
    exact .inr ⟨⟨rfl, rfl, rfl, rfl, rfl, rfl, rfl, Nat.le_succ _⟩, rfl, rfl, rfl, rfl⟩

/-- While INIT runs a write reaches only INT_EN and INT_STAT, so the registers keep their reset values (R52). -/
theorem InitRegs.writeLoc {s t : State} {v : Word} {l : Loc} (h : s.writeLoc v l = .ok t) (hp : s.phase = .init)
    (hi : InitRegs s) : InitRegs t := by
  have hidle : s.phase ≠ .idle := by rw [hp]; exact nofun
  rcases State.writeLoc_eq_ok h with ⟨-, h', -⟩ | ⟨-, h', -⟩ | ⟨-, h', -⟩ | ⟨-, h', -⟩ | ⟨-, rfl⟩ | ⟨-, rfl⟩ |
    ⟨-, -, h', -⟩ | ⟨-, -, -, h', -⟩ | ⟨-, -, h', -⟩ | ⟨-, -, h', -⟩
  iterate 4 exact absurd h' hidle
  · exact hi
  · obtain ⟨hop, hin, hbits, hbytes, hout, htree, hinfo, hip⟩ := hi
    exact ⟨hop, hin, hbits, hbytes, hout, htree, hinfo, by simp [hip]⟩
  all_goals exact absurd h' hidle

/-- An accepted write changes IN or PAY by one mapped word at most (R54, R55). -/
theorem State.writeLoc_buffers {s t : State} {v : Word} {l : Loc} {a : BusAddr} (hl : locate s.params a = .ok l)
    (h : s.writeLoc v l = .ok t) (hin : BufferOk s.inBuf s.params.inDepth s.draws)
    (hpay : BufferOk s.payBuf s.params.payDepth s.draws) :
    BufferOk t.inBuf s.params.inDepth t.draws ∧ BufferOk t.payBuf s.params.payDepth t.draws := by
  have keepIn := hin.mono (Nat.le_succ _)
  have keepPay := hpay.mono (Nat.le_succ _)
  rcases State.writeLoc_eq_ok h with ⟨-, -, rfl⟩ | ⟨-, -, rfl⟩ | ⟨-, -, rfl⟩ | ⟨-, -, rfl⟩ | ⟨-, rfl⟩ | ⟨-, rfl⟩ |
    ⟨x, -, -, rfl⟩ | ⟨x, w, -, -, rfl⟩ | ⟨o, rfl, -, rfl⟩ | ⟨o, rfl, -, rfl⟩
  iterate 8 exact ⟨keepIn, keepPay⟩
  · exact ⟨keepIn.writeWord (locate_inWord hl) v, keepPay⟩
  · exact ⟨keepIn, keepPay.writeWord (locate_payWord hl) v⟩

theorem StatusInv.of_same {s t : State} (h : StatusInv s) (hp : t.phase = s.phase) (hd : t.done = s.done)
    (he : t.errCode = s.errCode) (hi : t.errInfo = s.errInfo) (hinit : s.phase = .init → InitRegs t) :
    StatusInv t where
  busy   := by rw [State.busyBit, hp, hd, he]; exact h.busy
  undone := by rw [hd, he]; exact h.undone
  code   := by rw [he]; exact h.code
  info   := by rw [hd, he, hi]; exact h.info
  init   := by rw [hp]; exact hinit

theorem Inv.writeLoc {s t : State} {v : Word} {l : Loc} {a : BusAddr} (hs : Inv s)
    (hl : locate s.params a = .ok l) (h : s.writeLoc v l = .ok t) : Inv t := by
  obtain ⟨hst, hd⟩ := inv_iff.1 hs
  rcases State.writeLoc_same h with rfl | ⟨same, hp, hdone, he, hi⟩
  · exact inv_iff.2 ⟨statusInv_accept s v, hd.accept v⟩
  · obtain ⟨hin, hpay⟩ := State.writeLoc_buffers hl h hd.inBuf hd.payBuf
    have hinit : s.phase = .init → InitRegs t := fun hp => InitRegs.writeLoc h hp (hst.init hp)
    exact inv_iff.2 ⟨hst.of_same hp hdone he hi hinit, hd.of_same same hin hpay⟩

theorem Inv.transact {s : State} (hs : Inv s) (x : Txn) : Inv (s.transact x).2 := by
  cases x with
  | read a => rw [State.transact_read]; exact hs
  | write a v =>
    rcases State.transact_write s a v with h | ⟨l, t, hl, hw, h⟩
    · rw [h]; exact hs
    · rw [h]; exact hs.writeLoc hl hw

/-- The invariant does not read the listed moves or the bus port. -/
theorem Inv.with_events_resp {s : State} (h : Inv s) (es : List Event) (r : Option Resp) :
    Inv { s with events := es, resp := r } := by
  obtain ⟨hst, hd⟩ := inv_iff.1 h
  exact inv_iff.2 ⟨hst.of_same rfl rfl rfl rfl hst.init,
    hd.of_same ⟨rfl, rfl, rfl, rfl, rfl, rfl, rfl, le_rfl⟩ hd.inBuf hd.payBuf⟩

theorem Inv.busStep {s : State} (hs : Inv s) (x : Txn) : Inv (s.busStep x) :=
  (hs.transact x).with_events_resp _ _

/-! ## The engine's event -/

/-- A command keeps the data part: what it does not own it leaves alone (R68), and BUILD, ENCODE and DECODE keep
what they own in order. -/
theorem DataInv.of_exec {i : Instr} {s t : State} (hs : DataInv s) (h : exec i s = .next t) : DataInv t := by
  obtain ⟨u, e, rfl, host, res⟩ := exec_eq_next h
  have hdraws : s.draws ≤ (u.complete i.opcode e).draws := by
    rw [State.complete_draws, host.draws]; exact Nat.le_succ _
  have htree : (NoTree (u.complete i.opcode e) ∨ TreeShape (u.complete i.opcode e)) ∧
      (u.complete i.opcode e).node.length ≤ 511 := by
    by_cases hi : i = .build
    · subst hi
      exact execBuild_tree h hs.nodes
    · obtain ⟨hn, hk, hr, hc⟩ := res.tree hi
      exact ⟨tree_of_same hs.tree hn hk hr hc, by rw [State.complete_node, hn]; exact hs.nodes⟩
  have hpay : BufferOk (u.complete i.opcode e).payBuf s.params.payDepth (u.complete i.opcode e).draws := by
    by_cases hi : i = .encode
    · subst hi
      exact execEncode_payBuf h hs.payBuf
    · rw [State.complete_payBuf, (res.pay hi).1]
      exact hs.payBuf.mono hdraws
  have hout : BufferOk (u.complete i.opcode e).outBuf s.params.outDepth (u.complete i.opcode e).draws ∧
      (u.complete i.opcode e).outLen.toNat ≤ s.params.outDepth := by
    by_cases hi : i = .decode
    · subst hi
      exact execDecode_out h hs.outBuf
    · obtain ⟨hb, hl⟩ := res.out hi
      rw [State.complete_outBuf, State.complete_outLen, hb, hl]
      exact ⟨hs.outBuf.mono hdraws, hs.out⟩
  rw [← host.params] at hpay hout
  refine ⟨?_, htree.1, htree.2, hout.2, ?_, hpay, hout.1⟩
  · rw [State.complete_params, host.params]; exact hs.params
  · rw [State.complete_params, State.complete_inBuf, host.params, host.inBuf]; exact hs.inBuf.mono hdraws

theorem Inv.of_exec {i : Instr} {s t : State} (hs : Inv s) (h : exec i s = .next t) : Inv t := by
  obtain ⟨u, e, rfl, -, -⟩ := exec_eq_next h
  exact inv_iff.2 ⟨statusInv_complete u i.opcode e, (inv_iff.1 hs).2.of_exec h⟩

theorem Inv.of_engineStep {s t : State} (hs : Inv s) (h : engineStep s = .next t) : Inv t := by
  obtain ⟨hst, hd⟩ := inv_iff.1 hs
  rcases engineStep_eq_next h with ⟨hp, rfl⟩ | ⟨-, rfl⟩ | ⟨w, i, -, -, hx⟩ | ⟨w, r, -, -, rfl⟩
  · exact inv_iff.2 ⟨hst.finishInit hp, hd.finishInit⟩
  · exact hs
  · exact hs.of_exec hx
  · exact inv_iff.2 ⟨statusInv_complete s _ _, hd.complete _ _⟩

/-- Settles O58: a step is the engine's event, a host transaction or reset, and each keeps the invariant. -/
theorem everyStepKeepsInvariant : Obligations.EveryStepKeepsInvariant := by
  unfold Obligations.EveryStepKeepsInvariant
  intro s t hs h
  have hpop : ∀ es, Inv { s with events := es } := fun es => hs.with_events_resp es s.resp
  rcases step_eq_next h with ⟨-, he⟩ | ⟨es, -, he⟩ | ⟨x, es, -, rfl⟩ | ⟨es, -, rfl⟩
  · exact hs.of_engineStep he
  · exact (hpop es).of_engineStep he
  · exact (hpop es).busStep x
  · exact inv_applyReset hs.params

end Sys2Proof.Machine
end

section
/-! The registers on the bus, and the status fields under host accesses and engine events (10_state.md R15 to
R34). -/

namespace Sys2Proof.Machine

/-! ## The register map (R15) -/

/-- Every row of the map is an aligned offset of REGS and the only row with its offset. -/
theorem regAt_of_mem_regMap :
    ∀ row ∈ regMap, row.1 % 4 = 0 ∧ row.1 < 0x01000 ∧ regAt row.1 = some row.2 := by decide

theorem locate_of_mem_regMap {off : Nat} {r : RegName} (h : (off, r) ∈ regMap) (p : Params) :
    locate p (BitVec.ofNat 20 off) = .ok (.reg r) := by
  obtain ⟨haligned, hregs, hrow⟩ := regAt_of_mem_regMap _ h
  have haddr : (BitVec.ofNat 20 off).toNat = off := by
    rw [BitVec.toNat_ofNat]
    exact Nat.mod_eq_of_lt (Nat.lt_trans hregs (by decide))
  simp [locate, haddr, haligned, hregs, hrow]

/-- A register read gets OK in every phase and changes nothing (R52, R60). -/
theorem State.transact_read_reg (s : State) {off : Nat} {r : RegName} (h : (off, r) ∈ regMap) :
    s.transact (.read (BitVec.ofNat 20 off)) = (.read .ok (s.readReg r), s) := by
  simp [State.transact, State.busRead, locate_of_mem_regMap h, State.readLoc]

theorem State.transact_write_reg {s t : State} {v : Word} {off : Nat} {r : RegName} (h : (off, r) ∈ regMap)
    (hw : s.writeReg v r = .ok t) : s.transact (.write (BitVec.ofNat 20 off) v) = (.write .ok, t) := by
  simp [State.transact, State.busWrite, locate_of_mem_regMap h, State.writeLoc, hw]

/-! ## Register reads -/

theorem State.errBit_eq_false {s : State} : s.errBit = false ↔ s.errCode = 0#4 := by simp [State.errBit]

/-- A legal depth fits its register (R7, R32). -/
theorem toNat_ofNat_of_depthOk {d : Nat} (h : Params.depthOk d = true) : (BitVec.ofNat 32 d).toNat = d := by
  simp only [Params.depthOk, Bool.and_eq_true, decide_eq_true_eq] at h
  obtain ⟨-, hmax⟩ := h
  rw [BitVec.toNat_ofNat]
  exact Nat.mod_eq_of_lt (Nat.lt_of_le_of_lt hmax (by decide))

/-- Settles O21: each of the 17 offsets is a row of the map, so its read gives `readReg` in every phase, and each
assembled word has the number the rules give its fields. -/
theorem registerReads : Obligations.RegisterReads := by
  unfold Obligations.RegisterReads
  intro s
  have read {off : Nat} {r : RegName} (h : (off, r) ∈ regMap) := s.transact_read_reg h
  refine ⟨read (r := .id) (by decide), read (r := .version) (by decide), read (r := .cmd) (by decide),
    ⟨_, read (r := .status) (by decide), s.statusWord_toNat, State.busyBit_eq_false, State.errBit_eq_false⟩,
    read (r := .inLen) (by decide), read (r := .bitLen) (by decide), read (r := .payBytes) (by decide),
    read (r := .outLen) (by decide),
    ⟨_, read (r := .nsym) (by decide), BitVec.toNat_setWidth_of_le (by decide)⟩,
    ⟨_, read (r := .root) (by decide), BitVec.toNat_setWidth_of_le (by decide)⟩,
    ⟨_, read (r := .nodeCount) (by decide), BitVec.toNat_setWidth_of_le (by decide)⟩,
    read (r := .errInfo) (by decide),
    ⟨_, read (r := .intEn) (by decide), s.intEnWord_toNat⟩,
    ⟨_, read (r := .intStat) (by decide), s.intStatWord_toNat⟩, fun hwf => ?_⟩
  simp only [Params.wf, Bool.and_eq_true] at hwf
  obtain ⟨⟨hin, hpay⟩, hout⟩ := hwf
  exact ⟨⟨_, read (r := .inDepth) (by decide), toNat_ofNat_of_depthOk hin⟩,
    ⟨_, read (r := .payDepth) (by decide), toNat_ofNat_of_depthOk hpay⟩,
    ⟨_, read (r := .outDepth) (by decide), toNat_ofNat_of_depthOk hout⟩⟩

/-! ## Register writes -/

/-- Settles O22: while IDLE each length register stores the word written, INT_EN stores its bit 0 in every phase, and
only the draw counter moves beside. -/
theorem lengthRegisterWrites : Obligations.LengthRegisterWrites := by
  unfold Obligations.LengthRegisterWrites
  refine ⟨fun s v hidle => ⟨?_, ?_, ?_⟩, fun s v => ?_⟩
  · exact ⟨_, State.transact_write_reg (r := .inLen) (by decide) (State.whenIdle_idle hidle _), rfl⟩
  · exact ⟨_, State.transact_write_reg (r := .bitLen) (by decide) (State.whenIdle_idle hidle _), rfl⟩
  · exact ⟨_, State.transact_write_reg (r := .payBytes) (by decide) (State.whenIdle_idle hidle _), rfl⟩
  · exact ⟨_, State.transact_write_reg (r := .intEn) (by decide) rfl, rfl⟩

theorem State.clearDoneIp_eq (s : State) (v : Word) :
    s.clearDoneIp v = { s with doneIp := s.doneIp && !v.getLsbD 0 } := by
  unfold State.clearDoneIp
  cases v.getLsbD 0 <;> simp

/-- A write to INT_STAT in any phase (R34, R52). -/
theorem State.transact_write_intStat (s : State) (v : Word) : s.transact (.write 0x00034#20 v) =
    (.write .ok, { s with doneIp := s.doneIp && !v.getLsbD 0, draws := s.draws + 1 }) := by
  rw [State.transact_write_reg (r := .intStat) (by decide) rfl, State.clearDoneIp_eq]
  rfl

/-- An accepted write other than CMD's leaves the four fields of STATUS that a completion sets (R22). -/
theorem State.writeLoc_status {s t : State} {v : Word} {l : Loc} (h : s.writeLoc v l = .ok t) :
    (l = .reg .cmd ∧ s.phase = .idle ∧ t = s.accept v) ∨
    (t.errCode = s.errCode ∧ t.errBit = s.errBit ∧ t.done = s.done ∧ t.lastOp = s.lastOp) := by
  rcases State.writeLoc_eq_ok h with hcmd | ⟨-, -, rfl⟩ | ⟨-, -, rfl⟩ | ⟨-, -, rfl⟩ | ⟨-, rfl⟩ | ⟨-, rfl⟩ |
    ⟨x, -, -, rfl⟩ | ⟨x, w, -, -, rfl⟩ | ⟨o, -, -, rfl⟩ | ⟨o, -, -, rfl⟩
  · exact .inl hcmd
  all_goals exact .inr ⟨rfl, rfl, rfl, rfl⟩

/-! ## The engine's event -/

/-- While a word is pending the engine's event is the completion of a state (R80, R85). -/
theorem engineStep_completes {s t : State} {w : Word} (hp : s.phase = .busy w) (h : engineStep s = .next t) :
    ∃ (u : State) (op : Byte) (e : Option Raised), t = u.complete op e := by
  rcases engineStep_eq_next h with ⟨hinit, -⟩ | ⟨hidle, -⟩ | ⟨w', i, -, -, hx⟩ | ⟨w', r, -, -, rfl⟩
  · exact absurd (hp.symm.trans hinit) nofun
  · exact absurd (hp.symm.trans hidle) nofun
  · obtain ⟨u, e, rfl, -, -⟩ := exec_eq_next hx
    exact ⟨u, _, e, rfl⟩
  · exact ⟨s, _, _, rfl⟩

theorem engineStep_sets_doneIp {s t : State} {w : Word} (hp : s.phase = .busy w) (h : engineStep s = .next t) :
    t.doneIp = true := by
  obtain ⟨u, op, e, rfl⟩ := engineStep_completes hp h
  rfl

/-- Settles O23: a write of INT_STAT clears DONE_IP by bit 0 and leaves the phase, so the completion that follows it
sets DONE_IP like every other, and the end of INIT does not write it. -/
theorem interruptStatusRule : Obligations.InterruptStatusRule := by
  unfold Obligations.InterruptStatusRule
  intro s
  refine ⟨fun v => ⟨_, s.transact_write_intStat v, rfl, fun h => ?_, fun h => ?_⟩,
    fun w t => engineStep_sets_doneIp, fun w v t hp h => ?_, fun t hp h => ?_⟩
  · simp only [h, Bool.not_true, Bool.and_false]
  · simp only [h, Bool.not_false, Bool.and_true]
  · refine engineStep_sets_doneIp (w := w) ?_ h
    rw [State.transact_write_intStat]
    exact hp
  · rw [engineStep_init hp] at h
    cases h
    rfl

/-- Settles O25: a read changes nothing, a refused write neither, and of the accepted writes only CMD's touches the
status fields, in phase IDLE and at the one address of CMD. -/
theorem hostAccessKeepsErrorCode : Obligations.HostAccessKeepsErrorCode := by
  unfold Obligations.HostAccessKeepsErrorCode
  refine ⟨fun s x => ?_, fun s hp => ?_⟩
  · cases x with
    | read a =>
      rw [State.transact_read]
      exact .inr ⟨rfl, rfl, rfl, rfl⟩
    | write a v =>
      rcases State.transact_write s a v with h | ⟨l, t, hl, hw, h⟩
      · rw [h]
        exact .inr ⟨rfl, rfl, rfl, rfl⟩
      · rw [h]
        rcases State.writeLoc_status hw with ⟨rfl, hidle, rfl⟩ | hkept
        · obtain rfl := locate_cmd hl
          exact .inl ⟨v, rfl, hidle, rfl, rfl, rfl, rfl⟩
        · exact .inr hkept
  · rcases hp with hp | hp
    · exact ⟨_, engineStep_init hp, rfl, rfl⟩
    · exact ⟨_, engineStep_idle hp, rfl, rfl⟩

end Sys2Proof.Machine
end

section
/-! The tree is written by BUILD and reset only (10_state.md R28 to R30, R37). -/

namespace Sys2Proof.Machine

theorem opcodeRow_eq_some {op : Byte} {i : Instr} (h : opcodeRow op = some i) : op = i.opcode := by
  simp only [opcodeRow] at h
  repeat' split at h
  all_goals cases h
  all_goals assumption

/-- The two fields of a command word make it up (R67). -/
theorem commandRsvd_append_commandOpcode (w : Word) : commandRsvd w ++ commandOpcode w = w :=
  (BitVec.extractLsb'_append_extractLsb'_eq_extractLsb' (start₁ := 0) (len₁ := 8) rfl).trans
    BitVec.extractLsb'_eq_self

/-- A word that decodes is the word of its command: RSVD 0, then OPCODE (R67, R70). -/
theorem eq_encode_of_decodeWord {w : Word} {i : Instr} (h : decodeWord w = .ok i) : w = encode i := by
  simp only [decodeWord] at h
  split at h
  · exact nomatch h
  · next hrsvd =>
    split at h
    · next j hrow =>
      cases h
      rw [← commandRsvd_append_commandOpcode w, not_not.1 hrsvd, opcodeRow_eq_some hrow]
      rfl
    · exact nomatch h

theorem KeepsTree.refl (s : State) : KeepsTree s s := ⟨rfl, rfl, rfl, fun _ => rfl⟩

theorem KeepsTree.of_same {s t : State} (hn : t.node = s.node) (hk : t.nsym = s.nsym) (hr : t.root = s.root)
    (hc : t.nodeCount = s.nodeCount) : KeepsTree s t :=
  ⟨hk, hr, hc, fun n => by rw [hn]⟩

theorem exec_keeps_tree {i : Instr} {s t : State} (hi : i ≠ .build) (h : exec i s = .next t) : KeepsTree s t := by
  obtain ⟨u, e, rfl, -, res⟩ := exec_eq_next h
  obtain ⟨hn, hk, hr, hc⟩ := res.tree hi
  exact .of_same hn hk hr hc

/-- Every engine event but the completion of BUILD's word keeps the tree. -/
theorem engineStep_keeps_tree {s t : State} (hw : s.phase ≠ .busy (encode .build)) (h : engineStep s = .next t) :
    KeepsTree s t := by
  rcases engineStep_eq_next h with ⟨-, rfl⟩ | ⟨-, rfl⟩ | ⟨w, i, hp, hdec, hx⟩ | ⟨w, r, -, -, rfl⟩
  · exact .of_same rfl rfl rfl rfl
  · exact .refl t
  · refine exec_keeps_tree (fun hi => hw ?_) hx
    rw [hp, eq_encode_of_decodeWord hdec, hi]
  · exact .of_same rfl rfl rfl rfl

theorem State.transact_keeps_tree (s : State) (x : Txn) : KeepsTree s (s.transact x).2 := by
  cases x with
  | read a => rw [State.transact_read]; exact .refl s
  | write a v =>
    rcases State.transact_write s a v with h | ⟨l, t, -, hw, h⟩
    · rw [h]; exact .refl s
    · rw [h]
      rcases State.writeLoc_same hw with rfl | ⟨same, -⟩
      · exact .of_same rfl rfl rfl rfl
      · exact .of_same same.node same.nsym same.root same.nodeCount

/-- Settles O27: only the word 0x00000002 decodes to BUILD, and no other engine event and no transaction has the tree
among its writes. -/
theorem onlyBuildWritesTree : Obligations.OnlyBuildWritesTree := by
  unfold Obligations.OnlyBuildWritesTree
  refine ⟨fun s w t hp hw h => ?_, fun s hp => ?_, State.transact_keeps_tree⟩
  · refine engineStep_keeps_tree (fun hbuild => hw ?_) h
    rw [hp] at hbuild
    exact Phase.busy.inj hbuild
  · exact ⟨_, engineStep_init hp, .of_same rfl rfl rfl rfl⟩

end Sys2Proof.Machine
end

section
/-! Every command reads CTAB only through the codes: the CODE bits at LEN and above are ignored (10_state.md R39,
44_encoder.md R108, 45_decoder.md R114, R119). -/

namespace Sys2Proof.Machine

/-- Two tables with the same codes. They may differ in the CODE bits at LEN and above. -/
def SameCodes (ct ct' : CodeTable) : Prop := ∀ x, (tableGet ct' x).bits = (tableGet ct x).bits

theorem CodeEntry.bits_eq_of_bit_eq {e f : CodeEntry} (hl : f.len = e.len)
    (hb : ∀ i, i < e.len.toNat → f.bit i = e.bit i) : f.bits = e.bits := by
  unfold CodeEntry.bits
  rw [hl]
  exact List.map_congr_left fun i hi => hb i (List.mem_range.1 hi)

/-- A code has the length LEN, so equal codes have equal LEN. -/
theorem CodeEntry.len_eq_of_bits_eq {e f : CodeEntry} (h : f.bits = e.bits) : f.len = e.len := by
  apply BitVec.eq_of_toNat_eq
  rw [← CodeEntry.bits_length, h, CodeEntry.bits_length]

theorem CodeEntry.clash_congr {e e' f f' : CodeEntry} (he : e'.bits = e.bits) (hf : f'.bits = f.bits) :
    e'.clash f' = e.clash f := by
  rw [Bool.eq_iff_iff, CodeEntry.clash_iff_prefix, CodeEntry.clash_iff_prefix, he, hf,
    CodeEntry.len_eq_of_bits_eq he, CodeEntry.len_eq_of_bits_eq hf]

theorem CodeEntry.matches_congr {e f : CodeEntry} (h : f.bits = e.bits) (acc : Bits) :
    f.matches acc = e.matches acc := by
  rw [Bool.eq_iff_iff, CodeEntry.matches_iff, CodeEntry.matches_iff, h]

/-- The rows scanned by DECODE, as a search over the symbols. -/
theorem symbolOf_eq_find? (ct : CodeTable) (acc : Bits) :
    symbolOf ct acc = allSymbols.find? fun x => (tableGet ct x).matches acc := by
  simp [symbolOf, tableRows_eq, List.find?_map, Function.comp_def]

namespace SameCodes

variable {ct ct' : CodeTable} (h : SameCodes ct ct')
include h

theorem conflict_iff (x y : Byte) : Conflict ct' x y ↔ Conflict ct x y := by
  rw [Machine.conflict_iff, Machine.conflict_iff, CodeEntry.clash_congr (h x) (h y)]

theorem firstPair_eq : firstPair ct' = firstPair ct := by
  apply Option.ext
  rintro ⟨x, y⟩
  rw [firstPair_eq_some, firstPair_eq_some]
  simp only [FirstPair, h.conflict_iff]

theorem symbolOf_eq (acc : Bits) : symbolOf ct' acc = symbolOf ct acc := by
  simp only [symbolOf_eq_find?, CodeEntry.matches_congr (h _)]

theorem encodeLoop_eq (cap i : Nat) (xs : List Byte) (bits : Bits) :
    encodeLoop ct' cap i xs bits = encodeLoop ct cap i xs bits := by
  induction xs generalizing i bits with
  | nil => rfl
  | cons x rest ih => simp only [encodeLoop, CodeEntry.len_eq_of_bits_eq (h x), h x, ih]

theorem decodeLoop_eq (depth p start : Nat) (acc rest : Bits) (out : List Byte) :
    decodeLoop ct' depth p start acc out rest = decodeLoop ct depth p start acc out rest := by
  induction rest generalizing p start acc out with
  | nil => rfl
  | cons b rest ih => simp only [decodeLoop, h.symbolOf_eq, ih]

end SameCodes

/-- A command that reads CTAB answers the same on a table with the same codes, and keeps the table it was given. -/
theorem exec_of_sameCodes {s : State} {ct : CodeTable} (h : SameCodes s.ctab ct) {i : Instr}
    (hi : i ∈ [Instr.encode, .validate, .decode]) :
    ∃ t, exec i s = .next t ∧ exec i { s with ctab := ct } = .next { t with ctab := ct } := by
  simp only [List.mem_cons, List.not_mem_nil, or_false] at hi
  rcases hi with rfl | rfl | rfl
  · have hin : State.inSymbols { s with ctab := ct } = s.inSymbols := rfl
    simp only [exec, execEncode, hin, h.encodeLoop_eq]
    repeat' split
    all_goals exact ⟨_, rfl, rfl⟩
  · simp only [exec, execValidate, h.firstPair_eq]
    exact ⟨_, rfl, rfl⟩
  · have hpay : State.payBits { s with ctab := ct } = s.payBits := rfl
    simp only [exec, execDecode, hpay, h.firstPair_eq, h.decodeLoop_eq]
    repeat' split
    all_goals exact ⟨_, rfl, rfl⟩

/-- Settles O55: equal LEN and equal CODE bits below LEN are equal codes, and on equal codes the two runs end in
states that differ in CTAB only. -/
theorem codeTailIsIgnored : Obligations.CodeTailIsIgnored := by
  unfold Obligations.CodeTailIsIgnored
  intro s ct hsame i hi
  have hcodes : SameCodes s.ctab ct := fun x => CodeEntry.bits_eq_of_bit_eq (hsame x).1 (hsame x).2
  obtain ⟨t, ht, ht'⟩ := exec_of_sameCodes hcodes hi
  exact ⟨t, _, ht, ht', rfl, rfl, rfl, rfl, rfl, fun _ => ⟨fun _ => rfl, fun _ => rfl⟩⟩

end Sys2Proof.Machine
end

section
/-! The address map in full and the transactions it gives (20_memory.md R45 to R53, R60 to R62). -/

namespace Sys2Proof.Machine

/-! ## Transactions by the outcome of the map and of the location (R47, R49) -/

theorem State.transact_of_locate_error {s : State} {a : BusAddr} {c : BusCause} (hl : locate s.params a = .error c) :
    s.transact (.read a) = (.read .err 0#32, s) ∧ ∀ v, s.transact (.write a v) = (.write .err, s) := by
  simp [State.transact, State.busRead, State.busWrite, hl]

section
variable {s : State} {a : BusAddr} {l : Loc} (hl : locate s.params a = .ok l)
include hl

theorem State.transact_read_ok {d : Word} (hr : s.readLoc l = .ok d) :
    s.transact (.read a) = (.read .ok d, s) := by
  simp [State.transact, State.busRead, hl, hr]

theorem State.transact_read_err {c : BusCause} (hr : s.readLoc l = .error c) :
    s.transact (.read a) = (.read .err 0#32, s) := by
  simp [State.transact, State.busRead, hl, hr]

theorem State.transact_write_ok {v : Word} {t : State} (hw : s.writeLoc v l = .ok t) :
    s.transact (.write a v) = (.write .ok, t) := by
  simp [State.transact, State.busWrite, hl, hw]

theorem State.transact_write_err {v : Word} {c : BusCause} (hw : s.writeLoc v l = .error c) :
    s.transact (.write a v) = (.write .err, s) := by
  simp [State.transact, State.busWrite, hl, hw]

end

/-- A read either gets OK and a word, or ERR and the word 0 (R49). -/
theorem State.transact_read_cases (s : State) (a : BusAddr) :
    (∃ d, s.transact (.read a) = (.read .ok d, s)) ∨ s.transact (.read a) = (.read .err 0#32, s) := by
  simp only [State.transact]
  cases s.busRead a with
  | ok d => exact .inl ⟨d, rfl⟩
  | error c => exact .inr rfl

/-- Settles O20: a read answers from the state and hands the same state on. -/
theorem readsHaveNoSideEffect : Obligations.ReadsHaveNoSideEffect := by
  unfold Obligations.ReadsHaveNoSideEffect
  intro s a b
  rw [State.transact_read]
  exact ⟨rfl, rfl⟩

/-- Settles O12: the ERR outcome of a read is the word 0 with the state as it was, and that of a write is the state as
it was. -/
theorem errResponseChangesNothing : Obligations.ErrResponseChangesNothing := by
  unfold Obligations.ErrResponseChangesNothing
  intro s x
  cases x with
  | read a =>
    rcases s.transact_read_cases a with ⟨d, h⟩ | h
    · rw [h]; exact ⟨nofun, nofun⟩
    · rw [h]
      refine ⟨fun d hd => ⟨rfl, ?_⟩, nofun⟩
      cases hd
      rfl
  | write a v =>
    rcases s.transact_write a v with h | ⟨l, t, -, -, h⟩
    · rw [h]; exact ⟨nofun, fun _ => rfl⟩
    · rw [h]; exact ⟨nofun, nofun⟩

/-- Settles O6: the step takes the first listed move, a transaction or the engine's event, and the engine's event
while IDLE is the identity. -/
theorem stepMakesListedMove : Obligations.StepMakesListedMove := by
  unfold Obligations.StepMakesListedMove
  refine ⟨fun s x es he => ?_, fun s es he hidle => ?_, fun s he hidle => ?_⟩
  · simp only [step, he, State.busStep]
  · simp only [step, he]
    exact engineStep_idle hidle
  · simp only [step, he]
    exact engineStep_idle hidle

/-! ## The address map (R46, R48, R50, R55) -/

/-- The address of a location in a block with the depths `p`, read from the rules R15, R46 and R55 to R58. -/
def Loc.HasAddr (p : Params) (a : Nat) : Loc → Prop
  | .reg r     => (a, r) ∈ regMap
  | .freq x    => a = 0x01000 + 4 * x.toNat
  | .node n w  => n ≤ 510 ∧ w < 4 ∧ a = 0x04000 + 16 * n + 4 * w
  | .ctab x w  => w ≤ 8 ∧ a = 0x08000 + 64 * x.toNat + 4 * w
  | .inWord o  => o % 4 = 0 ∧ o + 3 < p.inDepth ∧ o < 0x10000 ∧ a = 0x10000 + o
  | .payWord o => o % 4 = 0 ∧ o + 3 < p.payDepth ∧ o < 0x10000 ∧ a = 0x20000 + o
  | .outWord o => o % 4 = 0 ∧ o + 3 < p.outDepth ∧ o < 0x10000 ∧ a = 0x30000 + o

theorem mem_regMap_of_regAt {off : Nat} {r : RegName} (h : regAt off = some r) : (off, r) ∈ regMap := by
  simp only [regAt, Option.map_eq_some_iff] at h
  obtain ⟨⟨off', r'⟩, hfind, rfl⟩ := h
  obtain rfl : off' = off := by simpa using List.find?_some hfind
  exact List.mem_of_find?_eq_some hfind

/-- The registers lie below the windows (R46). -/
theorem lt_of_mem_regMap {off : Nat} {r : RegName} (h : (off, r) ∈ regMap) : off < 0x01000 :=
  (regAt_of_mem_regMap _ h).2.1

theorem locate_misaligned (p : Params) {a : BusAddr} (ha : a.toNat % 4 ≠ 0) : locate p a = .error .misaligned := by
  simp [locate, ha]

/-- The map answers with a location only at the address of that location. -/
theorem hasAddr_of_locate {p : Params} {a : BusAddr} {l : Loc} (h : locate p a = .ok l) : l.HasAddr p a.toNat := by
  simp only [locate] at h
  split at h
  · exact nomatch h
  split at h
  · split at h
    · next r hr => cases h; exact mem_regMap_of_regAt hr
    · exact nomatch h
  split at h
  · cases h; simp only [Loc.HasAddr, BitVec.toNat_ofNat]; omega
  split at h
  · exact nomatch h
  split at h
  · cases h; simp only [Loc.HasAddr]; omega
  split at h
  · exact nomatch h
  split at h
  · split at h
    · cases h; simp only [Loc.HasAddr, BitVec.toNat_ofNat]; omega
    · exact nomatch h
  split at h
  · exact nomatch h
  split at h
  · obtain ⟨ho, rfl⟩ := bufferLoc_eq_ok.1 h; simp only [Loc.HasAddr]; omega
  split at h
  · obtain ⟨ho, rfl⟩ := bufferLoc_eq_ok.1 h; simp only [Loc.HasAddr]; omega
  split at h
  · obtain ⟨ho, rfl⟩ := bufferLoc_eq_ok.1 h; simp only [Loc.HasAddr]; omega
  · exact nomatch h

/-- At the address of a location the map answers with that location. -/
theorem locate_of_hasAddr {p : Params} {l : Loc} {a : BusAddr} (h : l.HasAddr p a.toNat) : locate p a = .ok l := by
  cases l with
  | reg r =>
    obtain ⟨haligned, hregs, hrow⟩ := regAt_of_mem_regMap _ h
    simp only at haligned hregs hrow
    simp [locate, haligned, hregs, hrow]
  | freq x =>
    simp only [Loc.HasAddr] at h
    have hx := x.isLt
    have hidx : (a.toNat - 0x01000) / 4 = x.toNat := by omega
    simp (disch := omega) only [locate, if_pos, if_neg, hidx, BitVec.ofNat_toNat, BitVec.setWidth_eq]
  | node n w =>
    obtain ⟨hn, hw, ha⟩ := h
    have hidx : (a.toNat - 0x04000) / 16 = n ∧ (a.toNat - 0x04000) % 16 / 4 = w := by omega
    simp (disch := omega) only [locate, if_pos, if_neg, hidx]
  | ctab x w =>
    obtain ⟨hw, ha⟩ := h
    have hx := x.isLt
    have hidx : (a.toNat - 0x08000) / 64 = x.toNat ∧ (a.toNat - 0x08000) % 64 / 4 = w := by omega
    simp (disch := omega) only [locate, if_pos, if_neg, hidx, BitVec.ofNat_toNat, BitVec.setWidth_eq]
  | inWord o =>
    obtain ⟨haligned, ho, hlt, ha⟩ := h
    have hidx : a.toNat - 0x10000 = o := by omega
    simp (disch := omega) only [locate, bufferLoc, if_pos, if_neg, hidx]
  | payWord o =>
    obtain ⟨haligned, ho, hlt, ha⟩ := h
    have hidx : a.toNat - 0x20000 = o := by omega
    simp (disch := omega) only [locate, bufferLoc, if_pos, if_neg, hidx]
  | outWord o =>
    obtain ⟨haligned, ho, hlt, ha⟩ := h
    have hidx : a.toNat - 0x30000 = o := by omega
    simp (disch := omega) only [locate, bufferLoc, if_pos, if_neg, hidx]

/-- The list of unmapped addresses (R50) holds the address of no location. -/
theorem Loc.HasAddr.not_unmapped {p : Params} {a : Nat} {l : Loc} (h : l.HasAddr p a) : ¬ Unmapped p a := by
  cases l with
  | reg r =>
    have hregs := lt_of_mem_regMap h
    have hrow : a ∈ regMap.map (·.1) := List.mem_map_of_mem h
    rintro (⟨-, hmem⟩ | hrest)
    · exact hmem hrow
    · omega
  | _ =>
    simp only [Loc.HasAddr] at h
    rintro (⟨hlow, -⟩ | hrest) <;> omega

theorem Params.depthOk_iff {d : Nat} : Params.depthOk d = true ↔ d % 4 = 0 ∧ 4 ≤ d ∧ d ≤ 0x10000 := by
  simp only [Params.depthOk, Bool.and_eq_true, beq_iff_eq, decide_eq_true_eq, and_assoc]
  rfl

/-- With legal depths, every aligned address off the list of R50 is the address of a location. -/
theorem exists_hasAddr {p : Params} {a : Nat} (hwf : p.wf = true) (haligned : a % 4 = 0) (h : ¬ Unmapped p a) :
    ∃ l : Loc, l.HasAddr p a := by
  simp only [Params.wf, Bool.and_eq_true, Params.depthOk_iff] at hwf
  simp only [Unmapped, not_or, not_and, not_not] at h
  obtain ⟨hreg, hnode, hctab, hin, hpay, hout, hrest⟩ := h
  rcases Nat.lt_or_ge a 0x01000 with hlow | hlow
  · have hrow : a ∈ regMap.map (·.1) := hreg hlow
    obtain ⟨⟨_, r⟩, hmem, rfl⟩ := List.mem_map.1 hrow
    exact ⟨.reg r, hmem⟩
  rcases Nat.lt_or_ge a 0x01400 with hfreq | hfreq
  · refine ⟨.freq (BitVec.ofNat 8 ((a - 0x01000) / 4)), ?_⟩
    simp only [Loc.HasAddr, BitVec.toNat_ofNat]
    omega
  rcases Nat.lt_or_ge a 0x08000 with hlt | hge
  · refine ⟨.node ((a - 0x04000) / 16) ((a - 0x04000) % 16 / 4), ?_⟩
    simp only [Loc.HasAddr]
    omega
  rcases Nat.lt_or_ge a 0x10000 with hlt | hge
  · refine ⟨.ctab (BitVec.ofNat 8 ((a - 0x08000) / 64)) ((a - 0x08000) % 64 / 4), ?_⟩
    simp only [Loc.HasAddr, BitVec.toNat_ofNat]
    omega
  rcases Nat.lt_or_ge a 0x20000 with hlt | hge
  · exact ⟨.inWord (a - 0x10000), by simp only [Loc.HasAddr]; omega⟩
  rcases Nat.lt_or_ge a 0x30000 with hlt | hge
  · exact ⟨.payWord (a - 0x20000), by simp only [Loc.HasAddr]; omega⟩
  · exact ⟨.outWord (a - 0x30000), by simp only [Loc.HasAddr]; omega⟩

/-- Settles O11: the map tests the alignment before anything else. -/
theorem misalignedAccessGetsErr : Obligations.MisalignedAccessGetsErr := by
  unfold Obligations.MisalignedAccessGetsErr
  exact fun s a ha => State.transact_of_locate_error (locate_misaligned s.params ha)

/-- Settles O13: a location answered by the map would have its address on the list. -/
theorem unmappedAddressGetsErr : Obligations.UnmappedAddressGetsErr := by
  unfold Obligations.UnmappedAddressGetsErr
  intro s a ha
  cases hl : locate s.params a with
  | error c => exact State.transact_of_locate_error hl
  | ok l => exact absurd ha (hasAddr_of_locate hl).not_unmapped

/-! ## Access rights and the busy phase (R51, R52) -/

/-- The registers a host may write: CMD and the RW rows of R15. -/
def writableRegs : List RegName := [.cmd, .inLen, .bitLen, .payBytes, .intEn, .intStat]

/-- The read-only addresses are those of the other rows of the map. -/
theorem readOnlyRegs_eq :
    readOnlyRegs = (regMap.filter fun row => row.2 ∉ writableRegs).map fun row => BitVec.ofNat 20 row.1 := by decide

theorem mem_readOnlyRegs {a : BusAddr} :
    a ∈ readOnlyRegs ↔ ∃ off r, (off, r) ∈ regMap ∧ r ∉ writableRegs ∧ BitVec.ofNat 20 off = a := by
  simp only [readOnlyRegs_eq, List.mem_map, List.mem_filter, decide_eq_true_eq, Prod.exists, and_assoc]

theorem State.writeReg_of_not_mem_writableRegs {r : RegName} (hr : r ∉ writableRegs) (s : State) (v : Word) :
    s.writeReg v r = .error .readOnly := by
  cases r
  case id | version | status | outLen | nsym | root | nodeCount | errInfo | inDepth | payDepth | outDepth => rfl
  all_goals exact absurd (by decide) hr

theorem State.writeReg_of_mem_writableRegs {s : State} {r : RegName} (hidle : s.phase = .idle)
    (hr : r ∈ writableRegs) (v : Word) : ∃ t, s.writeReg v r = .ok t := by
  cases r
  case cmd | inLen | bitLen | payBytes => exact ⟨_, State.whenIdle_idle hidle _⟩
  case intEn | intStat => exact ⟨_, rfl⟩
  all_goals exact absurd hr (by decide)

theorem State.readLoc_idle {s : State} (hidle : s.phase = .idle) (l : Loc) : ∃ d, s.readLoc l = .ok d := by
  cases l with
  | reg r => exact ⟨_, rfl⟩
  | _ => exact ⟨_, State.whenIdle_idle hidle _⟩

/-- While the phase is not IDLE no window can be read or written (R52). -/
theorem State.window_busy {s : State} (hbusy : s.phase ≠ .idle) {l : Loc} (hl : ∀ r, l ≠ .reg r) :
    s.readLoc l = .error .busy ∧ ∀ v, ∃ c, s.writeLoc v l = .error c := by
  cases l with
  | reg r => exact absurd rfl (hl r)
  | node _ _ | outWord _ => exact ⟨State.whenIdle_busy hbusy _, fun _ => ⟨_, rfl⟩⟩
  | _ => exact ⟨State.whenIdle_busy hbusy _, fun _ => ⟨_, State.whenIdle_busy hbusy _⟩⟩

theorem State.transact_write_readOnlyReg {a : BusAddr} (ha : a ∈ readOnlyRegs) (s : State) (v : Word) :
    s.transact (.write a v) = (.write .err, s) := by
  obtain ⟨off, r, hrow, hr, rfl⟩ := mem_readOnlyRegs.1 ha
  exact State.transact_write_err (locate_of_mem_regMap hrow _) (State.writeReg_of_not_mem_writableRegs hr s v)

/-- Only NODE and OUT locations have an address in these two windows, and neither is written (R51). -/
theorem State.transact_write_readOnlyWindow {a : BusAddr}
    (ha : (0x04000 ≤ a.toNat ∧ a.toNat < 0x05FF0) ∨ (0x30000 ≤ a.toNat ∧ a.toNat < 0x40000)) (s : State) (v : Word) :
    s.transact (.write a v) = (.write .err, s) := by
  cases hl : locate s.params a with
  | error c => exact (State.transact_of_locate_error hl).2 v
  | ok l =>
    have haddr := hasAddr_of_locate hl
    cases l with
    | node n w => exact State.transact_write_err hl rfl
    | outWord o => exact State.transact_write_err hl rfl
    | reg r =>
      have hregs := lt_of_mem_regMap haddr
      omega
    | _ => simp only [Loc.HasAddr] at haddr; omega

/-- While IDLE a write to a location that is not read-only gets OK. -/
theorem State.writeLoc_idle {s : State} (hidle : s.phase = .idle) {l : Loc}
    (hreg : ∀ r, l = .reg r → r ∈ writableRegs) (hnode : ∀ n w, l ≠ .node n w) (hout : ∀ o, l ≠ .outWord o)
    (v : Word) : ∃ t, s.writeLoc v l = .ok t := by
  cases l with
  | reg r => exact State.writeReg_of_mem_writableRegs hidle (hreg r rfl) v
  | node n w => exact absurd rfl (hnode n w)
  | outWord o => exact absurd rfl (hout o)
  | _ => exact ⟨_, State.whenIdle_idle hidle _⟩

/-- Settles O14: a read-only place is refused whatever the phase, and with legal depths an aligned mapped address is
that of a location, which while IDLE is read, and written unless it is read-only. -/
theorem accessRights : Obligations.AccessRights := by
  unfold Obligations.AccessRights
  refine fun s => ⟨fun a ha => s.transact_write_readOnlyReg ha, fun a ha => s.transact_write_readOnlyWindow ha,
    s.transact_read_reg (r := .cmd) (by decide), fun hidle a haligned hmapped hwf => ?_⟩
  obtain ⟨l, haddr⟩ := exists_hasAddr hwf haligned hmapped
  have hl := locate_of_hasAddr haddr
  refine ⟨?read, fun hro hnode hout v => ?write⟩
  case read =>
    obtain ⟨d, hd⟩ := State.readLoc_idle hidle l
    exact ⟨d, State.transact_read_ok hl hd⟩
  case write =>
    obtain ⟨t, ht⟩ : ∃ t, s.writeLoc v l = .ok t := by
      refine State.writeLoc_idle hidle ?_ ?_ ?_ v
      · rintro r rfl
        by_contra hr
        exact hro (mem_readOnlyRegs.2 ⟨_, r, haddr, hr, by simp⟩)
      · rintro n w rfl
        simp only [Loc.HasAddr] at haddr
        omega
      · rintro o rfl
        simp only [Loc.HasAddr] at haddr
        omega
    rw [State.transact_write_ok hl ht]

/-- While the phase is not IDLE every access to a window gets ERR, mapped or not (R52). -/
theorem State.transact_window_busy {s : State} (hbusy : s.phase ≠ .idle) {a : BusAddr} (ha : InWindow a.toNat) :
    s.transact (.read a) = (.read .err 0#32, s) ∧ ∀ v, s.transact (.write a v) = (.write .err, s) := by
  cases hl : locate s.params a with
  | error c => exact State.transact_of_locate_error hl
  | ok l =>
    have hwindow : ∀ r, l ≠ .reg r := by
      rintro r rfl
      have hregs := lt_of_mem_regMap (hasAddr_of_locate hl)
      simp only [InWindow] at ha
      omega
    obtain ⟨hr, hw⟩ := State.window_busy hbusy hwindow
    refine ⟨State.transact_read_err hl hr, fun v => ?_⟩
    obtain ⟨c, hc⟩ := hw v
    exact State.transact_write_err hl hc

/-- While the phase is not IDLE a write to CMD or a length register gets ERR (R52). -/
theorem State.transact_write_reg_busy {s : State} (hbusy : s.phase ≠ .idle) {off : Nat} {r : RegName}
    (hrow : (off, r) ∈ regMap) (hr : r ∈ [RegName.cmd, .inLen, .bitLen, .payBytes]) (v : Word) :
    s.transact (.write (BitVec.ofNat 20 off) v) = (.write .err, s) := by
  have hw : s.writeReg v r = .error .busy := by
    simp only [List.mem_cons, List.not_mem_nil, or_false] at hr
    rcases hr with rfl | rfl | rfl | rfl <;> exact State.whenIdle_busy hbusy _
  exact State.transact_write_err (locate_of_mem_regMap hrow _) hw

/-- Settles O15: the windows and the four registers wait for IDLE; register reads and the two interrupt registers do
not. -/
theorem busyPhaseRestrictions : Obligations.BusyPhaseRestrictions := by
  unfold Obligations.BusyPhaseRestrictions
  refine fun s hbusy => ⟨fun a ha v => ?_, fun a => State.transact_window_busy hbusy,
    fun row hrow => s.transact_read_reg hrow,
    fun v => ⟨_, State.transact_write_reg (r := .intEn) (by decide) rfl, rfl⟩,
    fun v => ⟨_, s.transact_write_intStat v, rfl⟩⟩
  simp only [List.mem_cons, List.not_mem_nil, or_false] at ha
  rcases ha with rfl | rfl | rfl | rfl
  · exact State.transact_write_reg_busy (r := .cmd) hbusy (by decide) (by decide) v
  · exact State.transact_write_reg_busy (r := .inLen) hbusy (by decide) (by decide) v
  · exact State.transact_write_reg_busy (r := .bitLen) hbusy (by decide) (by decide) v
  · exact State.transact_write_reg_busy (r := .payBytes) hbusy (by decide) (by decide) v

end Sys2Proof.Machine
end

section
/-! The windows of memory on the bus while IDLE: FREQ, NODE, CTAB and the byte buffers (20_memory.md R54 to R58). -/

namespace Sys2Proof.Machine

/-- The map at a location's address, given as a number: every such address fits the bus. -/
theorem locate_ofNat {p : Params} {l : Loc} {a : Nat} (h : l.HasAddr p a) : locate p (BitVec.ofNat 20 a) = .ok l := by
  apply locate_of_hasAddr
  have hfits : a < 2 ^ 20 := by
    cases l with
    | reg r => exact Nat.lt_trans (lt_of_mem_regMap h) (by decide)
    | freq x => simp only [Loc.HasAddr] at h; omega
    | ctab x w => simp only [Loc.HasAddr] at h; omega
    | _ => simp only [Loc.HasAddr] at h; omega
  rwa [BitVec.toNat_ofNat, Nat.mod_eq_of_lt hfits]

/-! ## FREQ (R56) -/

theorem tableGet_tableSet_self {α : Type} (t : Vector α 256) (x : Byte) (a : α) : tableGet (tableSet t x a) x = a := by
  rw [tableGet_tableSet, if_pos rfl]

theorem tableGet_tableSet_ne {α : Type} {x y : Byte} (h : y ≠ x) (t : Vector α 256) (a : α) :
    tableGet (tableSet t x a) y = tableGet t y := by
  rw [tableGet_tableSet, if_neg h.symm]

/-- Settles O16: the address is that of FREQ[s], and a table write is read back at its own index only. -/
theorem freqWindowReadsAndWrites : Obligations.FreqWindowReadsAndWrites := by
  unfold Obligations.FreqWindowReadsAndWrites
  intro s x v hidle
  have hl : locate s.params (BitVec.ofNat 20 (0x01000 + 4 * x.toNat)) = .ok (.freq x) := locate_ofNat rfl
  exact ⟨State.transact_read_ok hl (State.whenIdle_idle hidle _), _,
    State.transact_write_ok hl (State.whenIdle_idle hidle _), tableGet_tableSet_self _ x v,
    fun y hy => tableGet_tableSet_ne hy _ v, rfl⟩

/-! ## NODE (R57) -/

theorem Node.word_zero_toNat (d : Node) : (d.word 0).toNat = d.weight.toNat % 2 ^ 32 := by
  simp [Node.word]

theorem Node.word_one_toNat (d : Node) : (d.word 1).toNat = d.weight.toNat / 2 ^ 32 := by
  have hw := d.weight.isLt
  change BitVec.toNat (w := 24 + 8) (0#24 ++ d.weight.extractLsb' 32 8) = _
  simp only [toNat_append_add, BitVec.extractLsb'_toNat, Nat.shiftRight_eq_div_pow, BitVec.toNat_ofNat]
  omega

theorem Node.word_two_toNat (d : Node) : (d.word 2).toNat = 2 ^ 31 * d.isLeaf.toNat + d.sym.toNat := by
  change BitVec.toNat (w := 1 + 23 + 8) (BitVec.ofBool d.isLeaf ++ 0#23 ++ d.sym) = _
  simp only [toNat_append_add, BitVec.toNat_ofBool, BitVec.toNat_ofNat]
  omega

theorem Node.word_three_toNat (d : Node) : (d.word 3).toNat = 2 ^ 16 * d.right.toNat + d.left.toNat := by
  change BitVec.toNat (w := 7 + 9 + 7 + 9) (0#7 ++ d.right ++ 0#7 ++ d.left) = _
  simp only [toNat_append_add, BitVec.toNat_ofNat]
  omega

/-- Settles O17: the four addresses are those of the four words of NODE[n], whose numbers the layout lemmas give, and no
NODE location is written. -/
theorem nodeWindowLayout : Obligations.NodeWindowLayout := by
  unfold Obligations.NodeWindowLayout
  intro s n hidle hn
  have hl {w : Nat} (hw : w < 4) :
      locate s.params (BitVec.ofNat 20 (0x04000 + 16 * n + 4 * w)) = .ok (.node n w) := locate_ofNat ⟨hn, hw, rfl⟩
  have read {w : Nat} (hw : w < 4) := State.transact_read_ok (hl hw) (State.whenIdle_idle hidle _)
  exact ⟨_, _, _, _, read (w := 0) (by decide), read (w := 1) (by decide), read (w := 2) (by decide),
    read (w := 3) (by decide), Node.word_zero_toNat _, Node.word_one_toNat _, Node.word_two_toNat _,
    Node.word_three_toNat _, fun w hw v => State.transact_write_err (hl hw) rfl⟩

/-! ## CTAB (R58) -/

theorem CodeEntry.word_zero_toNat (e : CodeEntry) : (e.word 0).toNat = e.len.toNat := by
  change BitVec.toNat (w := 24 + 8) (0#24 ++ e.len) = _
  simp only [toNat_append_add, BitVec.toNat_ofNat]
  omega

theorem CodeEntry.len_setWord_zero_toNat (e : CodeEntry) (v : Word) :
    (e.setWord 0 v).len.toNat = v.toNat % 256 := by
  simp [CodeEntry.setWord]

theorem CodeEntry.bit_setWord_zero (e : CodeEntry) (v : Word) (i : Nat) : (e.setWord 0 v).bit i = e.bit i := rfl

theorem CodeEntry.bit_of_le (e : CodeEntry) {i : Nat} (hi : 255 ≤ i) : e.bit i = false :=
  BitVec.getMsbD_of_ge _ _ hi

/-- The bit a word write stores (R58). -/
theorem CodeEntry.bit_setWord_inside (e : CodeEntry) {j m : Nat} (hj : 1 ≤ j) (hm : m < 32)
    (hi : 32 * (j - 1) + m < 255) (v : Word) : (e.setWord j v).bit (32 * (j - 1) + m) = v.getLsbD (31 - m) := by
  have hword : (32 * (j - 1) + m) / 32 = j - 1 := by omega
  have hbit : (32 * (j - 1) + m) % 32 = m := by omega
  simp [CodeEntry.bit_setWord _ _ _ _ hj, hi, hword, hbit, BitVec.getMsbD, hm]

theorem CodeEntry.bit_setWord_outside (e : CodeEntry) {j i : Nat} (hj : 1 ≤ j) (hi : i < 32 * (j - 1) ∨ 32 * j ≤ i)
    (v : Word) : (e.setWord j v).bit i = e.bit i := by
  have hword : i / 32 ≠ j - 1 := by omega
  rcases Nat.lt_or_ge i 255 with hlt | hge
  · simp [CodeEntry.bit_setWord _ _ _ _ hj, hlt, hword]
  · rw [CodeEntry.bit_of_le _ hge, CodeEntry.bit_of_le _ hge]

section
variable {s : State} (hidle : s.phase = .idle) (x : Byte) {w : Nat} (hw : w ≤ 8)
include hidle hw

theorem State.transact_read_ctab : s.transact (.read (BitVec.ofNat 20 (0x08000 + 64 * x.toNat + 4 * w))) =
    (.read .ok ((s.codeOf x).word w), s) :=
  State.transact_read_ok (l := .ctab x w) (locate_ofNat ⟨hw, rfl⟩) (State.whenIdle_idle hidle _)

/-- A write to a word of CTAB[x] sets that entry and no other. -/
theorem State.transact_write_ctab (v : Word) :
    ∃ t, s.transact (.write (BitVec.ofNat 20 (0x08000 + 64 * x.toNat + 4 * w)) v) = (.write .ok, t) ∧
      t.codeOf x = (s.codeOf x).setWord w v ∧ (∀ y, y ≠ x → t.codeOf y = s.codeOf y) ∧
      t = { s with ctab := t.ctab, draws := t.draws } :=
  ⟨_, State.transact_write_ok (l := .ctab x w) (locate_ofNat ⟨hw, rfl⟩) (State.whenIdle_idle hidle _),
    tableGet_tableSet_self _ x _, fun _ hy => tableGet_tableSet_ne hy _ _, rfl⟩

end

/-- Settles O18: the nine addresses are those of the words of CTAB[s], and a word write is read back bit by bit. -/
theorem ctabWindowReadsAndWrites : Obligations.CtabWindowReadsAndWrites := by
  unfold Obligations.CtabWindowReadsAndWrites
  intro s x v hidle
  refine ⟨⟨_, State.transact_read_ctab hidle x (w := 0) (by decide), CodeEntry.word_zero_toNat _⟩,
    fun j hj hj8 => ⟨_, State.transact_read_ctab hidle x hj8, fun m hm => ?_⟩, ?_, fun j hj hj8 => ?_⟩
  · rw [← CodeEntry.word_getMsbD _ _ _ hj hm]
    simp [BitVec.getMsbD, hm]
  · obtain ⟨t, ht, hx, hother, hframe⟩ := State.transact_write_ctab hidle x (w := 0) (by decide) v
    refine ⟨t, ht, ?_⟩
    rw [hx]
    exact ⟨CodeEntry.len_setWord_zero_toNat _ v, CodeEntry.bit_setWord_zero _ v, hother, hframe⟩
  · obtain ⟨t, ht, hx, hother, hframe⟩ := State.transact_write_ctab hidle x hj8 v
    refine ⟨t, ht, ?_⟩
    rw [hx]
    exact ⟨CodeEntry.len_setWord _ _ _ hj, fun m hm hi => CodeEntry.bit_setWord_inside _ hj hm hi v,
      fun i hi => CodeEntry.bit_setWord_outside _ hj hi v, CodeEntry.bit_of_le _ le_rfl, hother, hframe⟩

/-! ## The byte buffers (R54) -/

theorem wordOfBytes_toNat (b₀ b₁ b₂ b₃ : Byte) : (wordOfBytes b₀ b₁ b₂ b₃).toNat =
    b₀.toNat + 2 ^ 8 * b₁.toNat + 2 ^ 16 * b₂.toNat + 2 ^ 24 * b₃.toNat := by
  change BitVec.toNat (w := 8 + 8 + 8 + 8) (b₃ ++ b₂ ++ b₁ ++ b₀) = _
  simp only [toNat_append_add]
  omega

theorem byteOfWord_toNat (v : Word) (k : Nat) : (byteOfWord v k).toNat = v.toNat / 2 ^ (8 * k) % 256 := by
  simp [byteOfWord, Nat.shiftRight_eq_div_pow]

section
variable (m : Memory) (free : Nat → Nat → Byte) (v : Word) {o : Nat}

/-- A stored byte is read back whatever the free values of the buffer are. -/
theorem Memory.writeWord_byte_inside {k : Nat} (hk : k < 4) :
    (((m.writeWord o v).get? (o + k)).getD (free (m.writeWord o v).draw (o + k))).toNat =
      v.toNat / 2 ^ (8 * k) % 256 := by
  have hget : (m.writeWord o v).get? (o + k) = some (byteOfWord v k) := by
    rw [Memory.writeWord, Memory.writeBytes_get?, if_pos (by simp [hk])]
    interval_cases k <;> simp
  rw [hget, Option.getD_some, byteOfWord_toNat]

/-- A store keeps the draw, so the bytes outside its word read as before, listed or free. -/
theorem Memory.writeWord_byte_outside {i : Nat} (hi : i < o ∨ o + 4 ≤ i) :
    ((m.writeWord o v).get? i).getD (free (m.writeWord o v).draw i) = (m.get? i).getD (free m.draw i) := by
  have hget : (m.writeWord o v).get? i = m.get? i := by
    rw [Memory.writeWord, Memory.writeBytes_get?, if_neg (by simp; omega)]
  rw [hget, Memory.writeWord_draw]

end

/-- Settles O19: an aligned offset inside a buffer of legal depth is a whole word of it, whose four bytes a read puts
together and a write stores. -/
theorem byteBufferLanes : Obligations.ByteBufferLanes := by
  unfold Obligations.ByteBufferLanes
  intro s o v hidle hwf haligned
  simp only [Params.wf, Bool.and_eq_true, Params.depthOk_iff] at hwf
  obtain ⟨⟨hin, hpay⟩, hout⟩ := hwf
  have word {d : Nat} (hd : d % 4 = 0 ∧ 4 ≤ d ∧ d ≤ 0x10000) (ho : o < d) :
      o % 4 = 0 ∧ o + 3 < d ∧ o < 0x10000 := by omega
  refine ⟨fun ho => ?_, fun ho => ?_, fun ho => ?_⟩
  · obtain ⟨h4, hfit, hlt⟩ := word hin ho
    have hl : locate s.params (BitVec.ofNat 20 (0x10000 + o)) = .ok (.inWord o) := locate_ofNat ⟨h4, hfit, hlt, rfl⟩
    exact ⟨⟨_, State.transact_read_ok hl (State.whenIdle_idle hidle _), wordOfBytes_toNat _ _ _ _⟩, _,
      State.transact_write_ok hl (State.whenIdle_idle hidle _),
      fun k => Memory.writeWord_byte_inside s.inBuf Config.freeIn v,
      fun i => Memory.writeWord_byte_outside s.inBuf Config.freeIn v, rfl⟩
  · obtain ⟨h4, hfit, hlt⟩ := word hpay ho
    have hl : locate s.params (BitVec.ofNat 20 (0x20000 + o)) = .ok (.payWord o) := locate_ofNat ⟨h4, hfit, hlt, rfl⟩
    exact ⟨⟨_, State.transact_read_ok hl (State.whenIdle_idle hidle _), wordOfBytes_toNat _ _ _ _⟩, _,
      State.transact_write_ok hl (State.whenIdle_idle hidle _),
      fun k => Memory.writeWord_byte_inside s.payBuf Config.freePay v,
      fun i => Memory.writeWord_byte_outside s.payBuf Config.freePay v, rfl⟩
  · obtain ⟨h4, hfit, hlt⟩ := word hout ho
    have hl : locate s.params (BitVec.ofNat 20 (0x30000 + o)) = .ok (.outWord o) := locate_ofNat ⟨h4, hfit, hlt, rfl⟩
    exact ⟨_, State.transact_read_ok hl (State.whenIdle_idle hidle _), wordOfBytes_toNat _ _ _ _⟩

end Sys2Proof.Machine
end

section
/-! The command words: decoding against encoding, and the three lines of the decoder as numbers (30_encoding.md R67 to
R71). -/

namespace Sys2Proof.Machine

/-! ## The opcode map (R69) -/

theorem opcodeRow_opcode (i : Instr) : opcodeRow i.opcode = some i := by cases i <;> rfl

/-- The opcode map ends at 0x06. -/
theorem opcodeRow_eq_none_iff {op : Byte} : opcodeRow op = none ↔ 6 < op.toNat := by
  simp only [opcodeRow, ← BitVec.toNat_inj]
  repeat' split
  all_goals
    simp only [BitVec.toNat_ofNat] at *
    simp only [reduceCtorEq, false_iff, true_iff]
    omega

/-! ## The fields of a command word as numbers (R67) -/

theorem commandRsvd_eq_zero_iff {w : Word} : commandRsvd w = 0#24 ↔ w.toNat / 256 = 0 := by
  have hw := w.isLt
  rw [← BitVec.toNat_inj, commandRsvd, BitVec.extractLsb'_toNat, Nat.shiftRight_eq_div_pow, BitVec.toNat_ofNat]
  omega

theorem commandOpcode_toNat (w : Word) : (commandOpcode w).toNat = w.toNat % 256 := by
  rw [commandOpcode, BitVec.extractLsb'_toNat, Nat.shiftRight_zero]

theorem commandOpcode_eq_ofNat (w : Word) : commandOpcode w = BitVec.ofNat 8 (w.toNat % 256) := by
  rw [← commandOpcode_toNat, BitVec.ofNat_toNat, BitVec.setWidth_eq]

/-! ## The three lines of the decoder (R70) -/

theorem decodeWord_reservedBits {w : Word} (h : w.toNat / 256 ≠ 0) : decodeWord w = .error .reservedBits :=
  if_pos fun h0 => h (commandRsvd_eq_zero_iff.1 h0)

theorem decodeWord_reservedOpcode {w : Word} (hrsvd : w.toNat / 256 = 0) (hop : 6 < w.toNat % 256) :
    decodeWord w = .error .reservedOpcode := by
  rw [← commandOpcode_toNat] at hop
  simp only [decodeWord, commandRsvd_eq_zero_iff.2 hrsvd, opcodeRow_eq_none_iff.2 hop, ne_eq, not_true_eq_false,
    if_false]

theorem decodeWord_of_opcode {w : Word} {i : Instr} (hrsvd : commandRsvd w = 0#24) (hop : commandOpcode w = i.opcode) :
    decodeWord w = .ok i := by
  simp only [decodeWord, hrsvd, hop, opcodeRow_opcode, ne_eq, not_true_eq_false, if_false]

theorem exists_opcode_eq {op : Byte} (h : op.toNat ≤ 6) : ∃ i : Instr, op = i.opcode := by
  obtain ⟨i, hrow⟩ := Option.ne_none_iff_exists'.1 fun hnone : opcodeRow op = none =>
    Nat.not_lt.2 h (opcodeRow_eq_none_iff.1 hnone)
  exact ⟨i, opcodeRow_eq_some hrow⟩

/-! ## Decoding inverts encoding -/

/-- The per-constructor laws of the command word, for every instruction. -/
theorem cmdwWord_statement (i : Instr) : Laws.CmdwWord.Statement i :=
  match i with
  | .nop      => Laws.CmdwWord.nop
  | .count    => Laws.CmdwWord.count
  | .build    => Laws.CmdwWord.build
  | .gencodes => Laws.CmdwWord.gencodes
  | .encode   => Laws.CmdwWord.encode
  | .validate => Laws.CmdwWord.validate
  | .decode   => Laws.CmdwWord.decode

theorem decodeWord_encode (i : Instr) : decodeWord (Sys2Proof.encode i) = .ok i := by
  obtain ⟨-, hrsvd, hop⟩ := cmdwWord_statement i
  exact decodeWord_of_opcode hrsvd hop

theorem decodeWord_eq_ok_iff {w : Word} {i : Instr} : decodeWord w = .ok i ↔ w = Sys2Proof.encode i :=
  ⟨eq_encode_of_decodeWord, fun h => h ▸ decodeWord_encode i⟩

/-- On a number that a word holds, the host's question is the decoder's answer (R72). -/
theorem decodeTableWord_eq_some_iff {w : Word} {i : Instr} :
    decodeTableWord 32 w.toNat = some i ↔ decodeWord w = .ok i := by
  simp only [decodeTableWord, Nat.mod_eq_of_lt w.isLt, w.isLt, if_true, BitVec.ofNat_toNat, BitVec.setWidth_eq]
  cases decodeWord w <;> simp

/-- Settles O3: the row of an opcode is the instruction it was taken from, and a word is its RSVD and OPCODE fields, so
encoding and decoding invert each other. -/
theorem decodeInvertsEncode : Obligations.DecodeInvertsEncode := by
  unfold Obligations.DecodeInvertsEncode
  intro i
  obtain ⟨hwf, -, -⟩ := cmdwWord_statement i
  exact ⟨hwf, fun _ => decodeWord_eq_ok_iff, fun _ => decodeTableWord_eq_some_iff.trans decodeWord_eq_ok_iff⟩

/-- Settles O1: the seven words are the encodings of the seven commands, and a number from 7 to 255 is a word with
RSVD = 0 and an OPCODE above 6. -/
theorem opcodeMapWordsDecode : Obligations.OpcodeMapWordsDecode := by
  unfold Obligations.OpcodeMapWordsDecode
  refine ⟨decodeWord_encode .nop, decodeWord_encode .count, decodeWord_encode .build, decodeWord_encode .gencodes,
    decodeWord_encode .encode, decodeWord_encode .validate, decodeWord_encode .decode, fun n h7 h255 => ?_⟩
  have hn : (BitVec.ofNat 32 n).toNat = n := by
    rw [BitVec.toNat_ofNat, Nat.mod_eq_of_lt (by omega)]
  exact decodeWord_reservedOpcode (by omega) (by omega)

/-! ## A command word on its way: accepted, then completed (R78, R80, R85) -/

theorem State.transact_write_cmd {s : State} (hidle : s.phase = .idle) (w : Word) :
    s.transact (.write cmdAddr w) = (.write .ok, s.accept w) :=
  State.transact_write_reg (r := .cmd) (by decide) (State.whenIdle_idle hidle _)

theorem engineStep_illegal {s : State} {w : Word} {r : DecodeError} (hp : s.phase = .busy w)
    (h : decodeWord w = .error r) : engineStep s = .next (illegalCompletion w s) := by
  rw [engineStep_busy hp, completePending, h]

theorem engineStep_command {s : State} {i : Instr} (hp : s.phase = .busy (Sys2Proof.encode i)) :
    engineStep s = exec i s := by
  rw [engineStep_busy hp, completePending, decodeWord_encode]

theorem completed_illegalCompletion (w : Word) (s : State) :
    Completed (BitVec.ofNat 8 (w.toNat % 256)) (some ⟨.illegalCommand, w⟩) (illegalCompletion w s) := by
  rw [← commandOpcode_eq_ofNat]
  exact completed_complete s _ _

/-- Settles O2: the lines of the rule are tests on w / 256 and w mod 256, and an illegal word is accepted as every word
is and completes with IllegalCommand. -/
theorem commandWordDecodesByRule : Obligations.CommandWordDecodesByRule := by
  unfold Obligations.CommandWordDecodesByRule
  refine fun w => ⟨decodeWord_reservedBits, fun hrsvd hop => ?_, decodeWord_reservedOpcode, fun s r hidle hbad => ?_⟩
  · rw [← commandOpcode_toNat] at hop ⊢
    obtain ⟨i, hi⟩ := exists_opcode_eq hop
    exact ⟨i, decodeWord_of_opcode (commandRsvd_eq_zero_iff.2 hrsvd) hi, by rw [hi]⟩
  · exact ⟨s.accept w, _, State.transact_write_cmd hidle w, engineStep_illegal rfl hbad,
      completed_illegalCompletion w (s.accept w)⟩

end Sys2Proof.Machine
end

section
/-! The frames over all commands (30_encoding.md R68): equal fields read equal. -/

namespace Sys2Proof.Machine

theorem SameHostFields.keepsHostSide {s u : State} (h : SameHostFields s u) (op : Byte) (e : Option Raised) :
    KeepsHostSide s (u.complete op e) :=
  ⟨h.params, h.inLen, h.doneIe, fun i => by simp only [State.inByte, State.complete_inBuf, h.inBuf], h.events, h.resp⟩

theorem KeepsFreq.of_same {s t : State} (h : t.freq = s.freq) : KeepsFreq s t :=
  fun x => by simp only [State.freqOf, h]

theorem KeepsCtab.of_same {s t : State} (h : t.ctab = s.ctab) : KeepsCtab s t :=
  fun x => by simp only [State.codeOf, h]

theorem KeepsPay.of_same {s t : State} (h : t.payBuf = s.payBuf) : KeepsPay s t :=
  fun i => by simp only [State.payByte, h]

theorem KeepsOut.of_same {s t : State} (h : t.outBuf = s.outBuf) : KeepsOut s t :=
  fun i => by simp only [State.outByte, h]

/-- Settles O26: a command completes a state that differs from the one before in its own results only, and completion
writes no result. -/
theorem commandWritesOnlyItsResults : Obligations.CommandWritesOnlyItsResults := by
  unfold Obligations.CommandWritesOnlyItsResults
  intro i s t h
  obtain ⟨u, e, rfl, host, res⟩ := exec_eq_next h
  refine ⟨host.keepsHostSide _ _, fun hi => .of_same (res.freq hi), fun hi => exec_keeps_tree hi h,
    fun hi => .of_same (res.ctab hi), fun hi => ?_, fun hi => ?_, e, completed_complete u i.opcode e⟩
  · obtain ⟨hbuf, hlengths⟩ := res.pay hi
    exact ⟨.of_same hbuf, hlengths⟩
  · obtain ⟨hbuf, hlen⟩ := res.out hi
    exact ⟨.of_same hbuf, hlen⟩

end Sys2Proof.Machine
end

section
/-! RUN, move by move (30_encoding.md R74 to R76). -/

namespace Sys2Proof.Machine

/-! ## STATUS, bit by bit (R19) -/

theorem State.statusWord_getLsbD_zero (s : State) : s.statusWord.getLsbD 0 = s.busyBit := by
  rw [BitVec.getLsbD, Nat.testBit_eq_decide_div_mod_eq, State.statusWord_toNat]
  cases s.busyBit <;> simp <;> omega

theorem State.statusWord_getLsbD_one (s : State) : s.statusWord.getLsbD 1 = s.done := by
  have hbusy := Bool.toNat_le s.busyBit
  rw [BitVec.getLsbD, Nat.testBit_eq_decide_div_mod_eq, State.statusWord_toNat]
  cases s.done <;> simp <;> omega

theorem State.statusWord_lastOp (s : State) : s.statusWord.toNat / 2 ^ 16 % 256 = s.lastOp.toNat := by
  have hop := s.lastOp.isLt
  have hcode := s.errCode.isLt
  have hbusy := Bool.toNat_le s.busyBit
  have hdone := Bool.toNat_le s.done
  have herr := Bool.toNat_le s.errBit
  rw [State.statusWord_toNat]
  omega

/-! ## Commands on a tree (R83) -/

/-- Only a NODE content that is no tree could stop a command. -/
theorem exec_completes {s : State} (h : NoTree s ∨ TreeShape s) (i : Instr) :
    ∃ u e, exec i s = .next (u.complete i.opcode e) ∧ SameHostFields s u := by
  rcases exec_cases i s with ⟨u, e, hx, host, -⟩ | ⟨-, hcount, hnone, -⟩
  · exact ⟨u, e, hx, host⟩
  · rcases h with ⟨hzero, -⟩ | htree
    · exact absurd hzero hcount
    · obtain ⟨ct, hct, -⟩ := generatedTable_spec htree
      exact nomatch hnone.symm.trans hct

/-- A pending command completes at the engine's event, and the host's side stays as it was. -/
theorem engineStep_completes_command {s : State} {i : Instr} (hp : s.phase = .busy (Sys2Proof.encode i))
    (htree : NoTree s ∨ TreeShape s) :
    ∃ u e, engineStep s = .next (u.complete i.opcode e) ∧ SameHostFields s u := by
  rw [engineStep_command hp]
  exact exec_completes htree i

theorem State.transact_read_status (s : State) :
    s.transact (.read statusAddr) = (.read .ok s.statusWord, s) :=
  s.transact_read_reg (r := .status) (off := 0x00C) (by decide)

/-! ## Playing listed moves -/

theorem playEvents_nil (s : State) : playEvents [] s = .next { s with events := [] } := rfl

/-- The first move is a step, and the rest is played after it. -/
theorem playEvents_cons {m : Event} {es : List Event} {s t : State} (h : step { s with events := m :: es } = .next t)
    (hes : t.events = es) : playEvents (m :: es) s = playEvents es t := by
  subst hes
  have hstep : Sys2Proof.core.step { s with events := m :: t.events } = .next t := h
  simp only [playEvents, List.length_cons, Host.Core.run, hstep]
  rfl

theorem playEvents_bus {x : Txn} {es : List Event} {s t : State} {r : Resp}
    (h : State.transact { s with events := es } x = (r, t)) (hes : t.events = es) :
    playEvents (.bus x :: es) s = playEvents es { t with resp := some r } :=
  playEvents_cons (by simp only [step, State.busStep, h]) hes

theorem playEvents_write_cmd {s : State} (hidle : s.phase = .idle) (i : Instr) (es : List Event) :
    playEvents ((cmdLine i).event :: es) s =
      playEvents es { s.accept (Sys2Proof.encode i) with resp := some (.write .ok) } :=
  (playEvents_bus (State.transact_write_cmd (s := { s with events := es }) hidle _) rfl :)

theorem playEvents_read_status (es : List Event) (s : State) :
    playEvents (.bus (.read statusAddr) :: es) s = playEvents es { s with resp := some (.read .ok s.statusWord) } :=
  (playEvents_bus (State.transact_read_status { s with events := es }) rfl :)

theorem playEvents_engine {es : List Event} {s t : State} (h : engineStep { s with events := es } = .next t)
    (hes : t.events = es) : playEvents (.engine :: es) s = playEvents es t :=
  playEvents_cons h hes

/-- Polls of STATUS leave nothing but a response on the bus port. -/
theorem playEvents_polls (polls : Nat) (es : List Event) (s : State) :
    ∃ r, playEvents (List.replicate polls (.bus (.read statusAddr)) ++ es) s = playEvents es { s with resp := r } := by
  induction polls generalizing s with
  | zero => exact ⟨s.resp, rfl⟩
  | succ n ih =>
    obtain ⟨r, hr⟩ := ih { s with resp := some (.read .ok s.statusWord) }
    exact ⟨r, (playEvents_read_status _ s).trans hr⟩

/-- WAIT while a command is pending ends in the completion of the command (R75). -/
theorem playEvents_wait {s : State} {i : Instr} (hp : s.phase = .busy (Sys2Proof.encode i))
    (htree : NoTree s ∨ TreeShape s) (polls : Nat) (es : List Event) :
    ∃ (u : State) (e : Option Raised), playEvents (waitEvents polls ++ es) s = playEvents es
      { u.complete i.opcode e with resp := some (.read .ok (u.complete i.opcode e).statusWord) } := by
  obtain ⟨r, hpolls⟩ := playEvents_polls polls (.engine :: .bus (.read statusAddr) :: es) s
  obtain ⟨u, e, hstep, host⟩ := engineStep_completes_command
    (s := { s with events := .bus (.read statusAddr) :: es, resp := r }) hp (tree_of_same htree rfl rfl rfl rfl)
  refine ⟨u, e, ?_⟩
  calc playEvents (waitEvents polls ++ es) s
    _ = playEvents (.engine :: .bus (.read statusAddr) :: es) { s with resp := r } := by
      rw [waitEvents, List.append_assoc]
      exact hpolls
    _ = playEvents (.bus (.read statusAddr) :: es) (u.complete i.opcode e) :=
      playEvents_engine hstep host.events
    _ = _ := playEvents_read_status es _

/-- Settles O60: the CMD write is accepted, the polls change nothing but the response, the engine's event completes the
command, and the last read shows the STATUS of that completion. -/
theorem runReadsItsCommandDone : Obligations.RunReadsItsCommandDone := by
  unfold Obligations.RunReadsItsCommandDone
  intro s i polls hinv hidle
  obtain ⟨u, e, hwait⟩ := playEvents_wait (s := { s.accept (Sys2Proof.encode i) with resp := some (.write .ok) }) rfl
    (tree_of_same hinv.tree rfl rfl rfl rfl) polls [.bus (.read statusAddr)]
  refine ⟨_, (u.complete i.opcode e).statusWord,
    (playEvents_write_cmd hidle i _).trans (hwait.trans (playEvents_read_status [] _)), rfl, rfl,
    State.statusWord_getLsbD_zero _, State.statusWord_getLsbD_one _, State.statusWord_lastOp _⟩

end Sys2Proof.Machine
end

section
/-! Command control: acceptance, completion of the pending word, NOP, and that no step stops the machine
(40_command_control.md R78 to R85). -/

namespace Sys2Proof.Machine

/-! ## Acceptance and a bare completion write no result (R78, R84, R85) -/

theorem KeepsAll.accept (s : State) (w : Word) : KeepsAll s (s.accept w) :=
  ⟨⟨rfl, rfl, rfl, fun _ => rfl, rfl, rfl⟩, .of_same rfl, .of_same rfl rfl rfl rfl, .of_same rfl, ⟨rfl, rfl⟩,
    .of_same rfl, .of_same rfl, rfl⟩

theorem KeepsAll.complete (s : State) (op : Byte) (e : Option Raised) : KeepsAll s (s.complete op e) :=
  ⟨(SameHostFields.refl s).keepsHostSide op e, .of_same rfl, .of_same rfl rfl rfl rfl, .of_same rfl, ⟨rfl, rfl⟩,
    .of_same rfl, .of_same rfl, rfl⟩

/-- Settles O28: NOP is the completion of the state itself. -/
theorem nopCompletes : Obligations.NopCompletes := by
  unfold Obligations.NopCompletes
  exact ⟨decodeWord_encode .nop, fun s => ⟨_, rfl, completed_complete s _ none, .complete s _ none⟩⟩

/-- Settles O10: the CMD register takes every word while IDLE, by `State.accept`, and none in another phase. -/
theorem acceptanceOfCommandWord : Obligations.AcceptanceOfCommandWord := by
  unfold Obligations.AcceptanceOfCommandWord
  refine fun s w => ⟨fun hidle => ⟨s.accept w, State.transact_write_cmd hidle w, ?_⟩, fun hbusy => ?_⟩
  · exact ⟨rfl, rfl, rfl, State.errBit_eq_false.2 rfl, rfl, rfl, rfl, rfl, .accept s w⟩
  · exact State.transact_write_reg_busy (off := 0x008) (r := .cmd) hbusy (by decide) (by decide) w

/-! ## The engine's event as a step (R62, R80; log 1, 2) -/

theorem step_of_no_events {s : State} (he : s.events = []) : step s = engineStep s := by
  simp only [step, he]

theorem step_of_engine_listed {s : State} {es : List Event} (he : s.events = .engine :: es) :
    step s = engineStep { s with events := es } := by
  simp only [step, he]

theorem engineStep_of_decodeWord {s : State} {w : Word} {i : Instr} (hp : s.phase = .busy w)
    (hdec : decodeWord w = .ok i) : engineStep s = exec i s := by
  rw [engineStep_busy hp, completePending, hdec]

/-- Settles O4: listed or not, the engine's event executes the command that the pending word decodes to. -/
theorem stepCompletesDecodedCommand : Obligations.StepCompletesDecodedCommand := by
  unfold Obligations.StepCompletesDecodedCommand
  refine fun s w i hp hdec => ⟨fun he => ?_, fun es he => ?_⟩
  · rw [step_of_no_events he, engineStep_of_decodeWord hp hdec]
  · rw [step_of_engine_listed he]
    exact engineStep_of_decodeWord hp hdec

/-! ## Illegal words (R85) -/

theorem decodeWord_illegal {w : Word} (h : w.toNat / 256 ≠ 0 ∨ 7 ≤ w.toNat % 256) :
    ∃ r, decodeWord w = .error r := by
  by_cases hrsvd : w.toNat / 256 = 0
  · exact ⟨_, decodeWord_reservedOpcode hrsvd (h.resolve_left (not_not.2 hrsvd))⟩
  · exact ⟨_, decodeWord_reservedBits hrsvd⟩

/-- Settles O5: no word with RSVD ≠ 0 or OPCODE ≥ 7 decodes, and an undecodable word completes the state itself with
IllegalCommand. -/
theorem illegalWordCompletes : Obligations.IllegalWordCompletes := by
  unfold Obligations.IllegalWordCompletes
  intro s w es hp hbad he
  obtain ⟨r, hr⟩ := decodeWord_illegal hbad
  refine ⟨illegalCompletion w { s with events := es }, ?_, completed_illegalCompletion w _, .complete _ _ _⟩
  rw [step_of_engine_listed he]
  exact engineStep_illegal hp hr

/-! ## Progress (R83) -/

/-- On a valid tree, or none, the pending word completes, whether it decodes or not. -/
theorem engineStep_completes_pending {s : State} {w : Word} (htree : NoTree s ∨ TreeShape s)
    (hp : s.phase = .busy w) : ∃ u e, engineStep s = .next (State.complete u (commandOpcode w) e) := by
  cases hdec : decodeWord w with
  | ok i =>
    obtain ⟨-, -, hop⟩ := cmdwWord_statement i
    obtain ⟨u, e, hx, -⟩ := exec_completes htree i
    rw [engineStep_of_decodeWord hp hdec, hx, eq_encode_of_decodeWord hdec, hop]
    exact ⟨u, e, rfl⟩
  | error r => exact ⟨s, _, engineStep_illegal hp hdec⟩

theorem exists_engineStep_eq_next {s : State} (htree : NoTree s ∨ TreeShape s) : ∃ t, engineStep s = .next t := by
  cases hp : s.phase with
  | init => exact ⟨_, engineStep_init hp⟩
  | idle => exact ⟨s, engineStep_idle hp⟩
  | busy w =>
    obtain ⟨u, e, h⟩ := engineStep_completes_pending htree hp
    exact ⟨_, h⟩

theorem exists_step_eq_next {s : State} (htree : NoTree s ∨ TreeShape s) : ∃ t, step s = .next t := by
  match he : s.events with
  | [] =>
    rw [step_of_no_events he]
    exact exists_engineStep_eq_next htree
  | .engine :: es =>
    rw [step_of_engine_listed he]
    exact exists_engineStep_eq_next (tree_of_same htree rfl rfl rfl rfl)
  | .bus x :: es => exact ⟨State.busStep { s with events := es } x, by simp only [step, he]⟩
  | .reset :: es => exact ⟨State.applyReset { s with events := es }, by simp only [step, he]⟩

/-- The one fault there is: GENCODES with NODE_COUNT ≠ 0 on a content that is no tree (log 7). -/
theorem exec_eq_fault {i : Instr} {s : State} {f : Fault} (h : exec i s = .fault f) :
    i = .gencodes ∧ ¬ TreeShape s ∧ s.nodeCount ≠ 0#9 := by
  rcases exec_cases i s with ⟨u, e, hx, -⟩ | ⟨hi, hcount, -, -⟩
  · exact nomatch hx.symm.trans h
  · refine ⟨hi, fun htree => ?_, hcount⟩
    obtain ⟨u, e, hx, -⟩ := exec_completes (.inr htree) i
    exact nomatch hx.symm.trans h

/-- Settles O59: the invariant holds a valid tree or none, which is all that GENCODES needs, and no other command, no
illegal word, no transaction and no reset can stop. -/
theorem noStepStops : Obligations.NoStepStops := by
  unfold Obligations.NoStepStops
  refine ⟨fun s hinv => exists_step_eq_next hinv.tree, fun s w hinv hp => ?_, fun i s f => exec_eq_fault⟩
  obtain ⟨u, e, h⟩ := engineStep_completes_pending hinv.tree hp
  exact ⟨_, h, rfl, rfl, commandOpcode_toNat w⟩

end Sys2Proof.Machine
end

section
/-! COUNT, the frequency counter (41_frequency.md R87 to R89). -/

namespace Sys2Proof.Machine

/-! ## The two outcomes of COUNT (R87) -/

/-- The state a successful COUNT leaves. -/
def State.counted (s : State) : State :=
  State.complete { s with freq := histogram s.inSymbols } Instr.count.opcode none

theorem exec_count_of_le {s : State} (h : s.inLen.toNat ≤ s.params.inDepth) : exec .count s = .next s.counted :=
  if_neg (Nat.not_lt.2 h)

theorem exec_count_of_lt {s : State} (h : s.params.inDepth < s.inLen.toNat) :
    exec .count s = .next (s.complete Instr.count.opcode (some ⟨.capacityExceeded, s.inLen⟩)) :=
  if_pos h

/-! ## What a successful COUNT leaves -/

theorem State.counted_completed (s : State) : Completed 0x01#8 none s.counted := completed_complete _ _ _

@[simp] theorem State.counted_freqOf (s : State) (x : Byte) :
    s.counted.freqOf x = BitVec.ofNat 32 (s.inSymbols.count x) :=
  tableGet_histogram s.inSymbols x

/-- COUNT writes nothing but FREQ and the completion fields (R88). -/
theorem State.counted_keeps (s : State) :
    KeepsHostSide s s.counted ∧ KeepsTree s s.counted ∧ KeepsCtab s s.counted ∧ KeepsPayLengths s s.counted ∧
      KeepsPay s s.counted ∧ KeepsOut s s.counted ∧ s.counted.outLen = s.outLen :=
  ⟨⟨rfl, rfl, rfl, fun _ => rfl, rfl, rfl⟩, .of_same rfl rfl rfl rfl, .of_same rfl, ⟨rfl, rfl⟩, .of_same rfl,
    .of_same rfl, rfl⟩

/-- Settles O29: COUNT tests IN_LEN against IN_DEPTH and completes with the histogram, or with the error on the state
as it was. -/
theorem countBuildsHistogram : Obligations.CountBuildsHistogram := by
  unfold Obligations.CountBuildsHistogram
  refine ⟨decodeWord_encode .count, fun s => ⟨fun hle => ?_, fun hlt => ?_⟩⟩
  · exact ⟨s.counted, exec_count_of_le hle, s.counted_freqOf, s.counted_completed, s.counted_keeps⟩
  · exact ⟨_, exec_count_of_lt hlt, completed_complete s _ _, .complete s _ _⟩

/-! ## The counts as numbers (R88, R89) -/

theorem State.count_inSymbols_le (s : State) (x : Byte) : s.inSymbols.count x ≤ s.inLen.toNat :=
  s.inSymbols_length ▸ List.count_le_length

/-- No count overflows: IN_LEN itself fits in 32 bits (R88). -/
@[simp] theorem State.counted_freqOf_toNat (s : State) (x : Byte) :
    (s.counted.freqOf x).toNat = s.inSymbols.count x := by
  rw [State.counted_freqOf, BitVec.toNat_ofNat, Nat.mod_eq_of_lt]
  exact (s.count_inSymbols_le x).trans_lt s.inLen.isLt

/-- The first law of R89. -/
theorem State.counted_sum (s : State) : sumSymbols (fun x => (s.counted.freqOf x).toNat) = s.inLen.toNat := by
  simp only [sumSymbols, State.counted_freqOf_toNat, sum_count_allSymbols, State.inSymbols_length]

/-- The second law of R89. -/
theorem State.counted_pos_iff (s : State) (x : Byte) : 1 ≤ (s.counted.freqOf x).toNat ↔ x ∈ s.inSymbols := by
  rw [State.counted_freqOf_toNat]
  exact List.count_pos_iff

/-- COUNT depends only on the multiset of its input symbols (R89). -/
theorem State.counted_freqOf_of_perm {s s' : State} (h : s'.inSymbols.Perm s.inSymbols) (x : Byte) :
    s'.counted.freqOf x = s.counted.freqOf x := by
  rw [State.counted_freqOf, State.counted_freqOf, h.count_eq]

/-- Settles O30: the entries are the counts of the symbols in the input, and counts ignore order. -/
theorem countLaws : Obligations.CountLaws := by
  unfold Obligations.CountLaws
  intro s _ hle
  exact ⟨s.counted, exec_count_of_le hle, s.counted_sum, s.counted_pos_iff,
    fun s' hle' hperm => ⟨s'.counted, exec_count_of_le hle', State.counted_freqOf_of_perm hperm⟩⟩

/-! ## What COUNT reads (R88) -/

/-- The input symbols depend only on IN_LEN and the bytes below it. -/
theorem State.inSymbols_congr {s s' : State} (hlen : s'.inLen = s.inLen)
    (hin : ∀ i, i < s.inLen.toNat → s'.inByte i = s.inByte i) : s'.inSymbols = s.inSymbols := by
  rw [State.inSymbols, State.inSymbols, hlen]
  exact List.map_congr_left fun i hi => hin i (List.mem_range.1 hi)

/-- Settles O31: both states hold the same input symbols, and no count is above their number. -/
theorem countReadsOnlyItsInput : Obligations.CountReadsOnlyItsInput := by
  unfold Obligations.CountReadsOnlyItsInput
  intro s s' _ hle hdepth hlen hin
  have hle' : s'.inLen.toNat ≤ s'.params.inDepth := by
    rw [hlen, hdepth]
    exact hle
  have hsame : s'.inSymbols = s.inSymbols := State.inSymbols_congr hlen hin
  refine ⟨s.counted, s'.counted, exec_count_of_le hle, exec_count_of_le hle',
    State.counted_freqOf_of_perm (.of_eq hsame), fun x => ⟨s.counted_freqOf_toNat x, ?_⟩, s.counted_keeps⟩
  rw [State.counted_freqOf_toNat]
  exact s.count_inSymbols_le x

end Sys2Proof.Machine
end

section
/-! BUILD, the tree builder (42_tree_builder.md R90 to R98): the queue's pop, the two outcomes of BUILD, and the tree it
makes. -/

namespace Sys2Proof.Machine

/-! ## pop (R92) -/

/-- Settles O32: `Queue.pop_eq_some` says which key pop takes, and what is left is a permutation of the rest. -/
theorem queuePopsLeastKey : Obligations.QueuePopsLeastKey := by
  unfold Obligations.QueuePopsLeastKey
  refine fun q => ⟨?_, fun m q' h => ?_⟩
  · cases q <;> simp [Queue.pop]
  · obtain ⟨hperm, hleast⟩ := Queue.pop_eq_some h
    exact ⟨hperm, hperm.length_eq, fun k hk => QueueKey.before_false_iff.1 (hleast k hk)⟩

/-! ## The leaves (R95) -/

/-- The leaf BUILD makes for a symbol. -/
def State.leafOf (s : State) (x : Byte) : Node :=
  { isLeaf := true, sym := x, weight := (s.freqOf x).setWidth 40, left := 0#9, right := 0#9 }

theorem leavesOf_freq (s : State) : leavesOf s.freq = s.presentSymbols.map s.leafOf := leavesOf_eq s.freq

theorem State.leafOf_weight (s : State) (x : Byte) : (s.leafOf x).weight.toNat = (s.freqOf x).toNat :=
  BitVec.toNat_setWidth_of_le (by decide)

theorem State.mem_presentSymbols {s : State} {x : Byte} : x ∈ s.presentSymbols ↔ s.freqOf x ≠ 0#32 := by
  simp [State.presentSymbols, mem_allSymbols]

theorem leavesOf_freq_length (s : State) : (leavesOf s.freq).length = s.presentSymbols.length := by
  rw [leavesOf_freq, List.length_map]

theorem leavesOf_freq_eq_nil {s : State} (h : ∀ x, s.freqOf x = 0#32) : leavesOf s.freq = [] := by
  rw [leavesOf_freq, List.map_eq_nil_iff, List.eq_nil_iff_forall_not_mem]
  exact fun x hx => State.mem_presentSymbols.1 hx (h x)

theorem leavesOf_freq_ne_nil {s : State} {y : Byte} (h : s.freqOf y ≠ 0#32) : leavesOf s.freq ≠ [] := by
  rw [leavesOf_freq, Ne, List.map_eq_nil_iff]
  exact List.ne_nil_of_mem (State.mem_presentSymbols.2 h)

/-! ## The two outcomes of BUILD (R95, R98) -/

/-- The state BUILD leaves when no symbol is present. -/
def State.builtEmpty (s : State) : State :=
  State.complete { s with nodeCount := 0#9, root := 0#9, nsym := 0#9 } Instr.build.opcode (some ⟨.emptyInput, 0#32⟩)

/-- The state a successful BUILD leaves. -/
def State.built (s : State) : State :=
  State.complete
    { s with
      node      := (buildTree (leavesOf s.freq)).1 ++ s.node.drop (buildTree (leavesOf s.freq)).1.length
      nsym      := BitVec.ofNat 9 (leavesOf s.freq).length
      root      := BitVec.ofNat 9 (buildTree (leavesOf s.freq)).2
      nodeCount := BitVec.ofNat 9 (2 * (leavesOf s.freq).length - 1) } Instr.build.opcode none

theorem exec_build_of_eq_nil {s : State} (h : leavesOf s.freq = []) : exec .build s = .next s.builtEmpty :=
  if_pos (List.length_eq_zero_iff.2 h)

theorem exec_build_of_ne_nil {s : State} (h : leavesOf s.freq ≠ []) : exec .build s = .next s.built :=
  if_neg fun h0 => h (List.length_eq_zero_iff.1 h0)

/-- GENCODES without a tree (R106). -/
theorem exec_gencodes_of_noTree {s : State} (h : NoTree s) : exec .gencodes s =
    .next (s.complete Instr.gencodes.opcode (some ⟨.sequenceError, 0x00000003#32⟩)) :=
  if_pos h.1

/-- BUILD writes nothing but the tree and the completion fields (R68, R95). -/
theorem exec_build_keeps {s t : State} (h : exec .build s = .next t) :
    KeepsHostSide s t ∧ KeepsFreq s t ∧ KeepsCtab s t ∧ KeepsPayLengths s t ∧ KeepsPay s t ∧ KeepsOut s t ∧
      t.outLen = s.outLen := by
  obtain ⟨hhost, hfreq, -, hctab, hpay, hout, -⟩ := commandWritesOnlyItsResults .build s t h
  obtain ⟨hpayBytes, hlengths⟩ := hpay (by decide)
  obtain ⟨houtBytes, hlen⟩ := hout (by decide)
  exact ⟨hhost, hfreq (by decide), hctab (by decide), hlengths, hpayBytes, houtBytes, hlen⟩

/-- Settles O33: no symbol gets a leaf, so BUILD takes the branch of R98 and GENCODES finds no tree. -/
theorem buildOnEmptyInput : Obligations.BuildOnEmptyInput := by
  unfold Obligations.BuildOnEmptyInput
  intro s hzero
  have hexec := exec_build_of_eq_nil (leavesOf_freq_eq_nil hzero)
  have hno : NoTree s.builtEmpty := ⟨rfl, rfl, rfl⟩
  obtain ⟨hhost, hfreq, hctab, hlengths, hpay, hout, hlen⟩ := exec_build_keeps hexec
  exact ⟨_, _, hexec, hno, fun _ => rfl, completed_complete _ _ _, hhost, hfreq, hctab, hlengths, hpay, hout, hlen,
    exec_gencodes_of_noTree hno, completed_complete _ _ _⟩

/-! ## The pop order in the finished tree (R94) -/

theorem State.keyBefore_iff {s : State} {a b : Nat} : s.KeyBefore a b ↔
    QueueKey.before ⟨(s.nodeAt a).weight, a⟩ ⟨(s.nodeAt b).weight, b⟩ = true := by
  simp [State.KeyBefore, QueueKey.before]

section
variable {leaves nodes : List Node} {q : Queue} {s : State}
  (hat : ∀ n, n < nodes.length → nodes[n]? = some (s.nodeAt n)) (hnsym : s.nsym.toNat = leaves.length)
include hat hnsym

theorem State.parentless_iff {n c : Nat} (hn : n ≤ nodes.length) :
    s.Parentless n c ↔ ParentlessIn leaves.length nodes n c := by
  refine and_congr_right fun _ => ⟨fun h m d hm hlt hd => ?_, fun h m hm hlt => ?_⟩
  · obtain rfl : s.nodeAt m = d := Option.some.inj ((hat m (by omega)).symm.trans hd)
    exact h m (hnsym ▸ hm) hlt
  · exact h m _ (hnsym ▸ hm) hlt (hat m (by omega))

/-- A state that holds a forest's entries holds its pop order. -/
theorem Forest.greedyMerges (hf : Forest leaves nodes q) (hcount : s.nodeCount.toNat = nodes.length) :
    GreedyMerges s := by
  intro n hn hlt
  rw [hcount] at hlt
  rw [hnsym] at hn
  obtain ⟨hleft, hright, hleast⟩ := hf.greedy n _ hn (hat n hlt)
  have below : ∀ {c}, ParentlessIn leaves.length nodes n c → nodes[c]? = some (s.nodeAt c) := fun hc =>
    hat _ (hc.1.trans hlt)
  simp only [State.parentless_iff hat hnsym hlt.le, State.keyBefore_iff]
  exact ⟨hleft, hright, fun c hc => hleast _ _ _ c (below hleft) (below hright) (below hc) hc⟩

end

/-! ## The tree of a successful BUILD (R95 to R97) -/

theorem State.built_nsym (s : State) : s.built.nsym.toNat = (leavesOf s.freq).length := by
  have := leavesOf_length_le s.freq
  simp only [State.built, State.complete_nsym, BitVec.toNat_ofNat]
  omega

section
variable {s : State} (hne : leavesOf s.freq ≠ [])
include hne

theorem State.built_forest : ∃ r : QueueKey, (buildTree (leavesOf s.freq)).2 = r.index ∧
    r.index = 2 * (leavesOf s.freq).length - 2 ∧
    (buildTree (leavesOf s.freq)).1.length = 2 * (leavesOf s.freq).length - 1 ∧
    Forest (leavesOf s.freq) (buildTree (leavesOf s.freq)).1 [r] :=
  buildTree_spec hne (leavesOf_length_le s.freq) (totalWeight_leavesOf_lt s.freq)

theorem State.built_nodeCount : s.built.nodeCount.toNat = (buildTree (leavesOf s.freq)).1.length := by
  obtain ⟨-, -, -, hlen, -⟩ := State.built_forest hne
  have := leavesOf_length_le s.freq
  simp only [State.built, State.complete_nodeCount, BitVec.toNat_ofNat]
  omega

theorem State.built_nodeAt (n : Nat) (hn : n < (buildTree (leavesOf s.freq)).1.length) :
    (buildTree (leavesOf s.freq)).1[n]? = some (s.built.nodeAt n) := by
  have hd := List.getElem?_eq_getElem hn
  rw [State.nodeAt_of_getElem? (s := s.built) ((State.built_nodeCount hne).symm ▸ hn)
    ((List.getElem?_append_left hn).trans hd), hd]

theorem State.built_treeShape : TreeShape s.built := by
  obtain ⟨r, hroot, hr, hlen, hforest⟩ := State.built_forest hne
  have hk := leavesOf_length_le s.freq
  refine hforest.treeShape hne hk hr (fun _ => isLeaf_of_mem_leavesOf) (leavesOf_pairwise s.freq)
    (List.prefix_append _ _) s.built_nsym ?_ ((State.built_nodeCount hne).trans hlen)
  simp only [State.built, State.complete_root, hroot, BitVec.toNat_ofNat]
  omega

theorem State.built_greedyMerges : GreedyMerges s.built := by
  obtain ⟨r, -, -, -, hforest⟩ := State.built_forest hne
  exact hforest.greedyMerges (State.built_nodeAt hne) s.built_nsym (State.built_nodeCount hne)

/-- The leaves stand first, in the order of the present symbols (R97 (b)). -/
theorem State.built_leaf {n : Nat} (hn : n < s.built.nsym.toNat) :
    some (s.built.nodeAt n).sym = s.presentSymbols[n]? ∧
      (s.built.nodeAt n).weight.toNat = (s.freqOf (s.built.nodeAt n).sym).toNat := by
  obtain ⟨r, -, -, -, hforest⟩ := State.built_forest hne
  rw [State.built_nsym] at hn
  have hleaf : (leavesOf s.freq)[n] = s.built.nodeAt n := Option.some.inj
    ((List.prefix_iff_getElem?.1 hforest.pre n hn).symm.trans
      (State.built_nodeAt hne n (hn.trans_le hforest.pre.length_le)))
  have hsym : n < s.presentSymbols.length := leavesOf_freq_length s ▸ hn
  simp only [leavesOf_freq, List.getElem_map] at hleaf
  rw [← hleaf, State.leafOf_weight]
  exact ⟨(List.getElem?_eq_getElem hsym).symm, rfl⟩

/-- BUILD does not write the entries above its tree (R95). -/
theorem State.built_node_above {n : Nat} (hn : s.built.nodeCount.toNat ≤ n) : s.built.node[n]? = s.node[n]? := by
  rw [State.built_nodeCount hne] at hn
  simp only [State.built, State.complete_node]
  rw [List.getElem?_append_right hn, List.getElem?_drop, Nat.add_sub_cancel' hn]

theorem State.built_weight_le {n : Nat} (hn : n < s.built.nodeCount.toNat) :
    (s.built.nodeAt n).weight.toNat ≤ sumSymbols fun x => (s.freqOf x).toNat := by
  obtain ⟨r, -, -, -, hforest⟩ := State.built_forest hne
  exact (hforest.bound n _ (State.built_nodeAt hne n (State.built_nodeCount hne ▸ hn))).trans
    (totalWeight_leavesOf s.freq)

end

/-- Settles O34: BUILD's working copy ends as a forest of one tree, whose laws carry over to the state that holds it. -/
theorem buildMakesHuffmanTree : Obligations.BuildMakesHuffmanTree := by
  unfold Obligations.BuildMakesHuffmanTree
  intro s y hy
  have hne := leavesOf_freq_ne_nil hy
  have hexec := exec_build_of_ne_nil hne
  have htree := State.built_treeShape hne
  exact ⟨s.built, hexec, completed_complete _ _ _, htree, State.built_greedyMerges hne,
    s.built_nsym.trans (leavesOf_freq_length s), fun n => State.built_leaf hne, fun p n => htree.path_length,
    fun n => State.built_node_above hne, exec_build_keeps hexec⟩

/-- Settles O35: a weight is part of the sum of the counts, so no addition of 40 bits wraps. -/
theorem buildWeightsNeverOverflow : Obligations.BuildWeightsNeverOverflow := by
  unfold Obligations.BuildWeightsNeverOverflow
  intro s y hy
  have hne := leavesOf_freq_ne_nil hy
  have htree := State.built_treeShape hne
  refine ⟨sum_counts_lt s.freq, by norm_num, s.built, exec_build_of_ne_nil hne,
    fun n => State.built_weight_le hne, fun n hn hinner => ?_⟩
  exact htree.weight n ((htree.inner_iff hn).1 hinner) hn

end Sys2Proof.Machine
end

section
/-! Code lengths: Kraft's inequality, and the exchange that gives the two least weights the longest codes
(42_tree_builder.md R99). -/

namespace Sys2Proof.Machine

/-! ## Kraft's inequality -/

/-- The lengths `len` on `S` are at most `N` and meet Kraft's inequality, written in multiples of 2^-N. -/
def Kraft (S : Finset Nat) (len : Nat → Nat) (N : Nat) : Prop :=
  (∀ c ∈ S, len c ≤ N) ∧ ∑ c ∈ S, 2 ^ (N - len c) ≤ 2 ^ N

/-- No word of `C` begins another. -/
def PrefixCode (C : Set Bits) : Prop := ∀ u ∈ C, ∀ v ∈ C, u <+: v → u = v

theorem PrefixCode.uniquelyDecodable {C : Set Bits} (h : PrefixCode C) (hnil : [] ∉ C) :
    InformationTheory.UniquelyDecodable C := by
  intro us
  induction us with
  | nil =>
    intro vs _ hvs heq
    cases vs with
    | nil => rfl
    | cons v vs =>
      obtain ⟨rfl, -⟩ := List.append_eq_nil_iff.1 heq.symm
      exact absurd (hvs [] (by simp)) hnil
  | cons u us ih =>
    intro vs hus hvs heq
    cases vs with
    | nil =>
      obtain ⟨rfl, -⟩ := List.append_eq_nil_iff.1 heq
      exact absurd (hus [] (by simp)) hnil
    | cons v vs =>
      have hu := hus u (by simp)
      have hv := hvs v (by simp)
      simp only [List.flatten_cons] at heq
      have huv : u = v := by
        rcases List.prefix_or_prefix_of_prefix (List.prefix_append u us.flatten)
          (heq ▸ List.prefix_append v vs.flatten) with hp | hp
        · exact h u hu v hv hp
        · exact (h v hv u hu hp).symm
      subst huv
      rw [ih vs (fun w hw => hus w (by simp [hw])) (fun w hw => hvs w (by simp [hw])) (List.append_cancel_left heq)]

section
variable {S : Finset Nat} {code : Nat → Bits} (h : ∀ c ∈ S, ∀ d ∈ S, c ≠ d → ¬ code c <+: code d)
include h

theorem injOn_of_prefixFree : Set.InjOn code S := fun c hc d hd heq => by
  by_contra hne
  exact h c hc d hd hne (heq ▸ List.prefix_rfl)

theorem prefixCode_image : PrefixCode (S.image code : Finset Bits) := by
  intro u hu v hv hp
  obtain ⟨c, hc, rfl⟩ := Finset.mem_image.1 (Finset.mem_coe.1 hu)
  obtain ⟨d, hd, rfl⟩ := Finset.mem_image.1 (Finset.mem_coe.1 hv)
  by_contra hne
  exact h c hc d hd (fun hcd => hne (hcd ▸ rfl)) hp

/-- With two words or more none is empty: the empty one would begin the other. -/
theorem nil_notMem_image {a b : Nat} (ha : a ∈ S) (hb : b ∈ S) (hab : a ≠ b) :
    [] ∉ ((S.image code : Finset Bits) : Set Bits) := by
  intro hmem
  obtain ⟨c, hc, hempty⟩ := Finset.mem_image.1 (Finset.mem_coe.1 hmem)
  have hother : ∃ d ∈ S, c ≠ d := by
    by_cases hca : c = a
    · exact ⟨b, hb, hca ▸ hab⟩
    · exact ⟨a, ha, hca⟩
  obtain ⟨d, hd, hcd⟩ := hother
  exact h c hc d hd hcd (hempty ▸ List.nil_prefix)

/-- The lengths of two or more words, none of which begins another, meet Kraft's inequality. -/
theorem kraft_of_prefixFree {a b : Nat} (ha : a ∈ S) (hb : b ∈ S) (hab : a ≠ b) :
    Kraft S (fun c => (code c).length) (∑ c ∈ S, (code c).length) := by
  set N := ∑ c ∈ S, (code c).length with hN
  have hle : ∀ c ∈ S, (code c).length ≤ N := fun c hc =>
    Finset.single_le_sum (f := fun c => (code c).length) (fun _ _ => Nat.zero_le _) hc
  have hkraft := InformationTheory.kraft_mcmillan_inequality
    ((prefixCode_image h).uniquelyDecodable (nil_notMem_image h ha hb hab))
  rw [Finset.sum_image (injOn_of_prefixFree h), Fintype.card_bool] at hkraft
  -- Mathlib's sum, of powers of 1/2, in multiples of 2^-N
  have hscale : ((∑ c ∈ S, 2 ^ (N - (code c).length) : Nat) : ℝ) =
      2 ^ N * ∑ c ∈ S, (1 / ((2 : Nat) : ℝ)) ^ (code c).length := by
    push_cast
    rw [Finset.mul_sum]
    refine Finset.sum_congr rfl fun c hc => ?_
    rw [pow_sub₀ _ two_ne_zero (hle c hc), one_div, inv_pow]
  have hreal : ((∑ c ∈ S, 2 ^ (N - (code c).length) : Nat) : ℝ) ≤ ((2 ^ N : Nat) : ℝ) := by
    rw [hscale]
    push_cast
    exact mul_le_of_le_one_right (by positivity) (by exact_mod_cast hkraft)
  exact ⟨hle, by exact_mod_cast hreal⟩

end

/-! ## The two least weights take the longest codes -/

/-- The weighted length of a set of entries. -/
def cost (S : Finset Nat) (w len : Nat → Nat) : Nat := ∑ c ∈ S, w c * len c

section
variable {S : Finset Nat} {w len : Nat → Nat} {N a b : Nat}

theorem sum_split_two (f : Nat → Nat) (ha : a ∈ S) (hb : b ∈ S) (hab : a ≠ b) :
    ∑ c ∈ S, f c = f a + (f b + ∑ c ∈ (S.erase a).erase b, f c) := by
  rw [Finset.add_sum_erase _ f (Finset.mem_erase.2 ⟨hab.symm, hb⟩), Finset.add_sum_erase S f ha]

/-- Exchanging the lengths of two entries of `S`. -/
theorem Kraft.swap (h : Kraft S len N) (ha : a ∈ S) (hb : b ∈ S) : Kraft S (len ∘ Equiv.swap a b) N := by
  have hmem : ∀ c ∈ S, Equiv.swap a b c ∈ S := fun c hc => by
    rw [Equiv.swap_apply_def]
    split_ifs <;> assumption
  refine ⟨fun c hc => h.1 _ (hmem c hc), le_of_eq_of_le ?_ h.2⟩
  refine Equiv.Perm.sum_comp (Equiv.swap a b) S (fun c => 2 ^ (N - len c)) fun c hc => ?_
  rcases Equiv.swap_apply_ne_self_iff.1 hc with ⟨-, rfl | rfl⟩
  · exact ha
  · exact hb

/-- Moving a longer code to a lesser weight does not raise the cost. -/
theorem cost_swap_le (ha : a ∈ S) (hb : b ∈ S) (hw : w a ≤ w b) (hlen : len a ≤ len b) :
    cost S w (len ∘ Equiv.swap a b) ≤ cost S w len := by
  rcases eq_or_ne a b with rfl | hab
  · simp
  simp only [cost, sum_split_two _ ha hb hab]
  have hrest : ∑ c ∈ (S.erase a).erase b, w c * (len ∘ Equiv.swap a b) c =
      ∑ c ∈ (S.erase a).erase b, w c * len c := by
    refine Finset.sum_congr rfl fun c hc => ?_
    simp only [Finset.mem_erase] at hc
    rw [Function.comp_apply, Equiv.swap_apply_of_ne_of_ne hc.2.1 hc.1]
  rw [hrest]
  simp only [Function.comp_apply, Equiv.swap_apply_left, Equiv.swap_apply_right]
  have := mul_add_mul_le_mul_add_mul hw hlen
  omega

/-- The two least weights `a` and `b` can take two codes of the greatest length. -/
theorem Kraft.exists_longest_least {x y : Nat} (h : Kraft S len N) (ha : a ∈ S) (hb : b ∈ S) (hab : a ≠ b)
    (hleast : ∀ c ∈ S, w a ≤ w c) (hnext : ∀ c ∈ S, c ≠ a → w b ≤ w c)
    (hx : x ∈ S) (hy : y ∈ S) (hxy : x ≠ y) (hlx : len x = N) (hly : len y = N) :
    ∃ len', len' a = N ∧ len' b = N ∧ Kraft S len' N ∧ cost S w len' ≤ cost S w len := by
  -- first `a` takes the length of `x`; then `z` is another entry of the greatest length
  set len₁ := len ∘ Equiv.swap a x with hlen₁
  have h₁ : Kraft S len₁ N := h.swap ha hx
  have hcost₁ : cost S w len₁ ≤ cost S w len := cost_swap_le ha hx (hleast x hx) (hlx ▸ h.1 a ha)
  have ha₁ : len₁ a = N := by simp [hlen₁, hlx]
  obtain ⟨z, hz, hza, hlz⟩ : ∃ z ∈ S, z ≠ a ∧ len₁ z = N := by
    by_cases hya : y = a
    · exact ⟨x, hx, hya ▸ hxy, by simp [hlen₁, ← hya, hly]⟩
    · exact ⟨y, hy, hya, by simp [hlen₁, Equiv.swap_apply_of_ne_of_ne hya hxy.symm, hly]⟩
  refine ⟨len₁ ∘ Equiv.swap b z, ?_, ?_, h₁.swap hb hz,
    (cost_swap_le hb hz (hnext z hz hza) (hlz ▸ h₁.1 b hb)).trans hcost₁⟩
  · rw [Function.comp_apply, Equiv.swap_apply_of_ne_of_ne hab hza.symm, ha₁]
  · rw [Function.comp_apply, Equiv.swap_apply_left, hlz]

/-- With at most one code of the greatest length, that code can be cut by one bit. -/
theorem Kraft.cut (h : Kraft S len (N + 1))
    (hone : ∀ x ∈ S, ∀ y ∈ S, len x = N + 1 → len y = N + 1 → x = y) :
    Kraft S (fun c => min (len c) N) N := by
  refine ⟨fun c _ => min_le_right _ _, ?_⟩
  change ∑ c ∈ S, 2 ^ (N - min (len c) N) ≤ 2 ^ N
  have hcard : (S.filter fun c => len c = N + 1).card ≤ 1 := by
    rw [Finset.card_le_one]
    intro x hx y hy
    rw [Finset.mem_filter] at hx hy
    exact hone x hx.1 y hy.1 hx.2 hy.2
  have hterm : ∀ c ∈ S, 2 * 2 ^ (N - min (len c) N) = 2 ^ (N + 1 - len c) + if len c = N + 1 then 1 else 0 := by
    intro c hc
    have hle := h.1 c hc
    split_ifs with hmax
    · simp [hmax]
    · rw [min_eq_left (by omega), ← Nat.pow_succ', ← Nat.succ_sub (by omega)]; simp
  have hsum := Finset.sum_congr rfl hterm
  rw [← Finset.mul_sum, Finset.sum_add_distrib, ← Finset.card_filter] at hsum
  have hle := h.2
  rw [Nat.pow_succ'] at hle
  omega

/-- From lengths that meet Kraft's inequality come others, no dearer, in which the two least weights have equal
lengths, not 0. -/
theorem Kraft.exists_siblings (h : Kraft S len N) (ha : a ∈ S) (hb : b ∈ S) (hab : a ≠ b)
    (hleast : ∀ c ∈ S, w a ≤ w c) (hnext : ∀ c ∈ S, c ≠ a → w b ≤ w c) :
    ∃ len' M, len' a = M + 1 ∧ len' b = M + 1 ∧ Kraft S len' (M + 1) ∧ cost S w len' ≤ cost S w len := by
  induction N generalizing len with
  | zero =>
    have hcard : S.card ≤ 1 := by simpa using h.2
    exact absurd (Finset.card_le_one.1 hcard a ha b hb) hab
  | succ N ih =>
    by_cases hone : ∀ x ∈ S, ∀ y ∈ S, len x = N + 1 → len y = N + 1 → x = y
    · obtain ⟨len', M, hla, hlb, hkraft, hcost⟩ := ih (h.cut hone)
      refine ⟨len', M, hla, hlb, hkraft, hcost.trans (Finset.sum_le_sum fun c _ => ?_)⟩
      exact Nat.mul_le_mul_left _ (min_le_left _ _)
    · push Not at hone
      obtain ⟨x, hx, y, hy, hlx, hly, hxy⟩ := hone
      obtain ⟨len', hlen'⟩ := h.exists_longest_least ha hb hab hleast hnext hx hy hxy hlx hly
      exact ⟨len', N, hlen'⟩

/-! ## One merge (R95) -/

/-- `S` after the merge of `a` and `b` into the new entry `n`. -/
def merged (S : Finset Nat) (a b n : Nat) : Finset Nat := insert n ((S.erase a).erase b)

section
variable {n : Nat} {len' : Nat → Nat} (ha : a ∈ S) (hb : b ∈ S) (hab : a ≠ b) (hn : n ∉ S)
  (hla : len a = len' n + 1) (hlb : len b = len' n + 1) (hrest : ∀ c ∈ S, len' c = len c)
include ha hb hab hn hla hlb hrest

/-- If the merged entry's code is one bit shorter, the merge saves the sum of the weights. -/
theorem cost_merged (hw : w n = w a + w b) : cost S w len = cost (merged S a b n) w len' + w n := by
  have hout : n ∉ (S.erase a).erase b := fun h => hn (Finset.mem_of_mem_erase (Finset.mem_of_mem_erase h))
  rw [cost, cost, merged, Finset.sum_insert hout, sum_split_two _ ha hb hab, hla, hlb, hw]
  rw [Finset.sum_congr rfl fun c hc => by
    rw [← hrest c (Finset.mem_of_mem_erase (Finset.mem_of_mem_erase hc))]]
  ring

/-- Two codes of the greatest length give one that is one bit shorter. -/
theorem Kraft.merged (h : Kraft S len N) (hN : len a = N) : Kraft (merged S a b n) len' N := by
  have hrest' : ∀ c ∈ (S.erase a).erase b, len' c = len c := fun c hc =>
    hrest c (Finset.mem_of_mem_erase (Finset.mem_of_mem_erase hc))
  have hout : n ∉ (S.erase a).erase b := fun h => hn (Finset.mem_of_mem_erase (Finset.mem_of_mem_erase h))
  refine ⟨fun c hc => ?_, ?_⟩
  · rcases Finset.mem_insert.1 hc with rfl | hc
    · omega
    · rw [hrest' c hc]
      exact h.1 c (Finset.mem_of_mem_erase (Finset.mem_of_mem_erase hc))
  · have hsum := h.2
    rw [sum_split_two _ ha hb hab, hlb, ← hla, hN, Nat.sub_self] at hsum
    rw [Machine.merged, Finset.sum_insert hout, Finset.sum_congr rfl fun c hc => by rw [hrest' c hc],
      show N - len' n = 1 by omega]
    omega

end

end

end Sys2Proof.Machine
end

section
/-! The optimality of the tree BUILD makes (42_tree_builder.md R99): by the pop order, from the last merge to the first,
no lengths that meet Kraft's inequality cost less than the depths. -/

namespace Sys2Proof.Machine

/-! ## Depths in a tree -/

/-- The length of the path from the root to an entry (R97 (f)). -/
noncomputable def State.depth (s : State) (c : Nat) : Nat :=
  sInf {l | ∃ p, s.descend s.root.toNat p = some c ∧ p.length = l}

/-- The weight of an entry, as a number. -/
def State.weightAt (s : State) (c : Nat) : Nat := (s.nodeAt c).weight.toNat

namespace TreeShape

variable {s : State} (h : TreeShape s)
include h

theorem depth_eq {c : Nat} {p : Bits} (hp : s.descend s.root.toNat p = some c) : s.depth c = p.length := by
  obtain ⟨q, hq, hlen⟩ := Nat.sInf_mem (s := {l | ∃ p, s.descend s.root.toNat p = some c ∧ p.length = l})
    ⟨_, p, hp, rfl⟩
  rw [State.depth, ← hlen, h.path_unique hp hq]

theorem depth_root : s.depth s.root.toNat = 0 := h.depth_eq (p := []) rfl

theorem depth_child {n : Nat} (hn : n < s.nodeCount.toNat) (hi : (s.nodeAt n).isLeaf = false) (b : Bool) :
    s.depth (s.child n b) = s.depth n + 1 := by
  obtain ⟨p, hp⟩ := h.path_exists hn
  rw [h.depth_eq hp, h.depth_eq ((State.descend_snoc s _ _ p b).2 ⟨n, hp, hi, rfl⟩), List.length_append,
    List.length_singleton]

end TreeShape

/-! ## The queue before each merge -/

/-- The entries in BUILD's queue when it makes entry `n` (R90, R95). -/
noncomputable def State.queueAt (s : State) (n : Nat) : Finset Nat :=
  have := Classical.decPred (s.Parentless n)
  (Finset.range n).filter (s.Parentless n)

theorem State.mem_queueAt {s : State} {n c : Nat} : c ∈ s.queueAt n ↔ s.Parentless n c := by
  simp only [State.queueAt, Finset.mem_filter, Finset.mem_range]
  exact and_iff_right_of_imp fun h => h.1

/-- The queue of the first merge holds the leaves. -/
theorem State.queueAt_nsym (s : State) : s.queueAt s.nsym.toNat = Finset.range s.nsym.toNat := by
  ext c
  rw [State.mem_queueAt, Finset.mem_range]
  exact ⟨fun h => h.1, fun hc => ⟨hc, fun m hm hlt => absurd hlt (Nat.not_lt.2 hm)⟩⟩

namespace TreeShape

variable {s : State} (h : TreeShape s)
include h

/-- After the last merge only the root is in the queue. -/
theorem eq_root_of_mem_queueAt {c : Nat} (hc : c ∈ s.queueAt s.nodeCount.toNat) : c = s.root.toNat := by
  obtain ⟨hlt, hfree⟩ := State.mem_queueAt.1 hc
  rcases Nat.lt_or_ge c s.root.toNat with hbelow | hge
  · obtain ⟨n, ⟨hn, hlt', hchild⟩, -⟩ := h.parent c hbelow
    obtain ⟨hleft, hright⟩ := hfree n hn hlt'
    exact absurd hchild (not_or.2 ⟨hleft, hright⟩)
  · have := h.count_eq
    omega

/-- A merge takes the two children out of the queue and puts the new entry in. -/
theorem queueAt_succ {n : Nat} (hn : s.nsym.toNat ≤ n) (hlt : n < s.nodeCount.toNat) :
    s.queueAt (n + 1) = merged (s.queueAt n) (s.child n false) (s.child n true) n := by
  have hinner := (h.inner_iff hlt).2 hn
  ext c
  simp only [merged, Finset.mem_insert, Finset.mem_erase, State.mem_queueAt]
  constructor
  · rintro ⟨hc, hfree⟩
    rcases Nat.lt_succ_iff_lt_or_eq.1 hc with hc | rfl
    · obtain ⟨hleft, hright⟩ := hfree n hn n.lt_succ_self
      exact .inr ⟨Ne.symm hright, Ne.symm hleft, hc, fun m hm hmn => hfree m hm (hmn.trans n.lt_succ_self)⟩
    · exact .inl rfl
  · rintro (rfl | ⟨hright, hleft, hc, hfree⟩)
    · refine ⟨c.lt_succ_self, fun m hm hmc => ?_⟩
      have hm' : m < s.nodeCount.toNat := by omega
      obtain ⟨-, -, hleft, hright, -⟩ := h.inner m hm hm'
      omega
    · refine ⟨hc.trans n.lt_succ_self, fun m hm hmn => ?_⟩
      rcases Nat.lt_succ_iff_lt_or_eq.1 hmn with hmn | rfl
      · exact hfree m hm hmn
      · exact ⟨Ne.symm hleft, Ne.symm hright⟩

end TreeShape

/-! ## Optimality -/

theorem State.KeyBefore.weightAt_le {s : State} {a b : Nat} (h : s.KeyBefore a b) : s.weightAt a ≤ s.weightAt b :=
  h.elim le_of_lt fun h => h.1.le

section
variable {s : State} (h : GreedyMerges s) {n c : Nat} (hn : s.nsym.toNat ≤ n) (hlt : n < s.nodeCount.toNat)
include h hn hlt

/-- The entry merged on the left has the least weight of the queue (R94). -/
theorem GreedyMerges.weightAt_left_le (hc : c ∈ s.queueAt n) : s.weightAt (s.child n false) ≤ s.weightAt c := by
  obtain ⟨-, -, hleast⟩ := h n hn hlt
  by_cases hleft : c = s.child n false
  · rw [hleft]
  · exact (hleast c (State.mem_queueAt.1 hc) hleft).1.weightAt_le

/-- The entry merged on the right has the least weight of the others (R94). -/
theorem GreedyMerges.weightAt_right_le (hc : c ∈ s.queueAt n) (hleft : c ≠ s.child n false) :
    s.weightAt (s.child n true) ≤ s.weightAt c := by
  obtain ⟨-, -, hleast⟩ := h n hn hlt
  by_cases hright : c = s.child n true
  · rw [hright]
  · exact ((hleast c (State.mem_queueAt.1 hc) hleft).2 hright).weightAt_le

end

section
variable {s : State} (h : TreeShape s) (hgreedy : GreedyMerges s)
include h hgreedy

/-- The entries in the queue before any merge cost least at their depths. -/
theorem depth_cost_le {n : Nat} (hn : s.nsym.toNat ≤ n) (hle : n ≤ s.nodeCount.toNat) {len : Nat → Nat} {N : Nat}
    (hkraft : Kraft (s.queueAt n) len N) :
    cost (s.queueAt n) s.weightAt s.depth ≤ cost (s.queueAt n) s.weightAt len := by
  induction hle using Nat.decreasingInduction generalizing len N with
  | self =>
    refine le_of_eq_of_le (Finset.sum_eq_zero fun c hc => ?_) (Nat.zero_le _)
    rw [h.eq_root_of_mem_queueAt hc, h.depth_root, Nat.mul_zero]
  | of_succ n hlt ih =>
    have hinner := (h.inner_iff hlt).2 hn
    obtain ⟨hleft, hright, -⟩ := hgreedy n hn hlt
    have ha : s.child n false ∈ s.queueAt n := State.mem_queueAt.2 hleft
    have hb : s.child n true ∈ s.queueAt n := State.mem_queueAt.2 hright
    have hab : s.child n false ≠ s.child n true := fun he => Bool.false_ne_true (h.child_inj hlt hinner he)
    have hout : n ∉ s.queueAt n := fun hmem => (State.mem_queueAt.1 hmem).1.ne rfl
    -- the two least weights become siblings of length `M + 1`
    obtain ⟨len₁, M, hla, hlb, hkraft₁, hcost⟩ := hkraft.exists_siblings (w := s.weightAt) ha hb hab
      (fun c => hgreedy.weightAt_left_le hn hlt) (fun c => hgreedy.weightAt_right_le hn hlt)
    -- and their parent takes length `M`
    set len₂ := Function.update len₁ n M with hlen₂
    have hself : len₂ n = M := Function.update_self ..
    have hrest : ∀ c ∈ s.queueAt n, len₂ c = len₁ c := fun c hc =>
      Function.update_of_ne (ne_of_mem_of_not_mem hc hout) ..
    have hw : s.weightAt n = s.weightAt (s.child n false) + s.weightAt (s.child n true) := h.weight n hn hlt
    rw [← hself] at hla hlb
    have hkraft₂ := hkraft₁.merged ha hb hab hout hla hlb hrest (hself ▸ hla)
    rw [← h.queueAt_succ hn hlt] at hkraft₂
    calc cost (s.queueAt n) s.weightAt s.depth
        = cost (s.queueAt (n + 1)) s.weightAt s.depth + s.weightAt n := by
          rw [h.queueAt_succ hn hlt]
          exact cost_merged ha hb hab hout (h.depth_child hlt hinner _) (h.depth_child hlt hinner _)
            (fun _ _ => rfl) hw
      _ ≤ cost (s.queueAt (n + 1)) s.weightAt len₂ + s.weightAt n :=
          Nat.add_le_add_right (ih (hn.trans n.le_succ) hkraft₂) _
      _ = cost (s.queueAt n) s.weightAt len₁ := by
          rw [h.queueAt_succ hn hlt]
          exact (cost_merged ha hb hab hout hla hlb hrest hw).symm
      _ ≤ cost (s.queueAt n) s.weightAt len := hcost

/-- The leaves of a tree made in pop order cost least at their depths. -/
theorem leaf_depth_cost_le {len : Nat → Nat} {N : Nat} (hkraft : Kraft (Finset.range s.nsym.toNat) len N) :
    cost (Finset.range s.nsym.toNat) s.weightAt s.depth ≤ cost (Finset.range s.nsym.toNat) s.weightAt len := by
  have hle : s.nsym.toNat ≤ s.nodeCount.toNat := by
    have := h.count
    have := h.nsym_pos
    omega
  rw [← State.queueAt_nsym] at hkraft ⊢
  exact depth_cost_le h hgreedy le_rfl hle hkraft

end

/-! ## The leaves of BUILD's tree and the present symbols -/

section
variable {s : State} (hne : leavesOf s.freq ≠ [])
include hne

/-- The leaf of a present symbol. -/
theorem State.exists_built_leaf {x : Byte} (hx : s.freqOf x ≠ 0#32) :
    ∃ n, n < s.built.nsym.toNat ∧ (s.built.nodeAt n).sym = x := by
  obtain ⟨n, hn, hget⟩ := List.mem_iff_getElem.1 (State.mem_presentSymbols.2 hx)
  have hlt : n < s.built.nsym.toNat := by rw [State.built_nsym, leavesOf_freq_length]; exact hn
  refine ⟨n, hlt, Option.some.inj ?_⟩
  rw [(State.built_leaf hne hlt).1, List.getElem?_eq_getElem hn, hget]

theorem State.built_sym_present {n : Nat} (hn : n < s.built.nsym.toNat) :
    s.freqOf (s.built.nodeAt n).sym ≠ 0#32 :=
  State.mem_presentSymbols.1 (List.mem_of_getElem? (State.built_leaf hne hn).1.symm)

/-- A leaf of a present symbol is at the end of a path. -/
theorem State.exists_built_path {x : Byte} (hx : s.freqOf x ≠ 0#32) :
    ∃ p n, s.built.descend s.built.root.toNat p = some n ∧ (s.built.nodeAt n).isLeaf = true ∧
      (s.built.nodeAt n).sym = x := by
  have htree := State.built_treeShape hne
  obtain ⟨n, hn, hsym⟩ := State.exists_built_leaf hne hx
  obtain ⟨p, hp⟩ := htree.path_exists (c := n) (by have := htree.count; omega)
  exact ⟨p, n, hp, (htree.leaf n hn).1, hsym⟩

theorem State.presentSymbols_eq_leaf_syms :
    s.presentSymbols = (List.range s.built.nsym.toNat).map fun n => (s.built.nodeAt n).sym := by
  have hlen : s.built.nsym.toNat = s.presentSymbols.length := s.built_nsym.trans (leavesOf_freq_length s)
  refine List.ext_getElem (by simp [hlen]) fun n hn _ => Option.some.inj ?_
  rw [List.getElem_map, List.getElem_range, (State.built_leaf hne (hlen ▸ hn)).1, List.getElem?_eq_getElem hn]

/-- Symbols that are not present cost nothing, so a weighted sum over the symbols is one over the leaves. -/
theorem State.sumSymbols_eq_leaf_cost (f : Byte → Nat) : sumSymbols (fun x => (s.freqOf x).toNat * f x) =
    cost (Finset.range s.built.nsym.toNat) s.built.weightAt fun n => f (s.built.nodeAt n).sym := by
  have habsent : sumSymbols (fun x => (s.freqOf x).toNat * f x) =
      (s.presentSymbols.map fun x => (s.freqOf x).toNat * f x).sum := by
    unfold sumSymbols State.presentSymbols
    induction allSymbols with
    | nil => rfl
    | cons x xs ih =>
      by_cases hx : s.freqOf x = 0#32 <;> simp [hx, ih]
  have hrange : cost (Finset.range s.built.nsym.toNat) s.built.weightAt (fun n => f (s.built.nodeAt n).sym) =
      ∑ n ∈ Finset.range s.built.nsym.toNat, (s.freqOf (s.built.nodeAt n).sym).toNat * f (s.built.nodeAt n).sym :=
    Finset.sum_congr rfl fun n hn => by
      rw [State.weightAt, (State.built_leaf hne (Finset.mem_range.1 hn)).2]
  rw [habsent, hrange, State.presentSymbols_eq_leaf_syms hne, List.map_map, ← List.toFinset_range,
    List.sum_toFinset _ List.nodup_range]
  rfl

end

/-- Settles O36: the lengths of such a code meet Kraft's inequality, and the leaves cost least at their depths. -/
theorem buildIsOptimal : Obligations.BuildIsOptimal := by
  unfold Obligations.BuildIsOptimal
  intro s y z hyz hy hz
  have hne := leavesOf_freq_ne_nil hy
  have htree := State.built_treeShape hne
  have hpaths : ∀ x, ∃ p, s.freqOf x ≠ 0#32 → ∃ n, s.built.descend s.built.root.toNat p = some n ∧
      (s.built.nodeAt n).isLeaf = true ∧ (s.built.nodeAt n).sym = x := by
    intro x
    by_cases hx : s.freqOf x = 0#32
    · exact ⟨[], fun hx' => absurd hx hx'⟩
    · obtain ⟨p, hp⟩ := State.exists_built_path hne hx
      exact ⟨p, fun _ => hp⟩
  choose path hpath using hpaths
  refine ⟨s.built, exec_build_of_ne_nil hne, path, hpath, fun code hcode => ?_⟩
  have hdepth : ∀ n, n < s.built.nsym.toNat → (path (s.built.nodeAt n).sym).length = s.built.depth n := by
    intro n hn
    obtain ⟨m, hm, hleaf, hsym⟩ := hpath _ (State.built_sym_present hne hn)
    obtain rfl : m = n := htree.sym_inj ((htree.isLeaf_iff (htree.path_valid hm)).1 hleaf) hn hsym
    exact (htree.depth_eq hm).symm
  obtain ⟨i, hi, rfl⟩ := State.exists_built_leaf hne hy
  obtain ⟨j, hj, rfl⟩ := State.exists_built_leaf hne hz
  have hfree : ∀ c ∈ Finset.range s.built.nsym.toNat, ∀ d ∈ Finset.range s.built.nsym.toNat, c ≠ d →
      ¬ code (s.built.nodeAt c).sym <+: code (s.built.nodeAt d).sym := by
    intro c hc d hd hcd
    rw [Finset.mem_range] at hc hd
    exact hcode _ _ (State.built_sym_present hne hc) (State.built_sym_present hne hd)
      fun he => hcd (htree.sym_inj hc hd he)
  have hkraft := kraft_of_prefixFree hfree (Finset.mem_range.2 hi) (Finset.mem_range.2 hj)
    fun hij => hyz (hij ▸ rfl)
  calc sumSymbols (fun x => (s.freqOf x).toNat * (path x).length)
      = cost (Finset.range s.built.nsym.toNat) s.built.weightAt s.built.depth := by
        rw [State.sumSymbols_eq_leaf_cost hne fun x => (path x).length]
        exact Finset.sum_congr rfl fun n hn => congrArg _ (hdepth n (Finset.mem_range.1 hn))
    _ ≤ cost (Finset.range s.built.nsym.toNat) s.built.weightAt fun n => (code (s.built.nodeAt n).sym).length :=
        leaf_depth_cost_le htree (State.built_greedyMerges hne) hkraft
    _ = sumSymbols (fun x => (s.freqOf x).toNat * (code x).length) :=
        (State.sumSymbols_eq_leaf_cost hne fun x => (code x).length).symm

end Sys2Proof.Machine
end

section
/-! GENCODES, the code-table generator (43_code_table.md R101 to R106): the paths to the leaves are the codes, and the
laws of the table. -/

namespace Sys2Proof.Machine

/-! ## GENCODES without a tree (R106) -/

/-- Settles O37: the first test of GENCODES completes the state as it is. -/
theorem gencodesWithoutTree : Obligations.GencodesWithoutTree := by
  unfold Obligations.GencodesWithoutTree
  exact fun s hzero => ⟨_, if_pos hzero, completed_complete s _ _, .complete s _ _⟩

/-! ## The paths to the leaves (R102) -/

/-- The bits `q` lead from the root to the leaf of `x`. -/
def State.LeafPath (s : State) (q : Bits) (x : Byte) : Prop :=
  ∃ n, s.descend s.root.toNat q = some n ∧ (s.nodeAt n).isLeaf = true ∧ (s.nodeAt n).sym = x

/-- No path goes on below a leaf. -/
theorem State.LeafPath.eq_of_prefix {s : State} {q r : Bits} {x y : Byte} (hq : s.LeafPath q x) (hr : s.LeafPath r y)
    (hp : q <+: r) : x = y := by
  obtain ⟨n, hn, hleaf, rfl⟩ := hq
  obtain ⟨m, hm, -, rfl⟩ := hr
  obtain ⟨e, rfl⟩ := hp
  rw [State.descend_append, hn] at hm
  obtain ⟨-, rfl⟩ := (s.descend_leaf hleaf e m).1 hm
  rfl

/-- The code of a symbol whose leaf the path `q` leads to: the path, or "0" in a single-leaf tree (R101, R103). -/
def State.leafCode (s : State) (q : Bits) : Bits := if s.nsym.toNat = 1 then [false] else q

theorem State.leafCode_single {s : State} (hk : s.nsym.toNat = 1) (q : Bits) : s.leafCode q = [false] := if_pos hk

theorem State.leafCode_inner {s : State} (hk : 2 ≤ s.nsym.toNat) (q : Bits) : s.leafCode q = q := if_neg (by omega)

namespace TreeShape

variable {s : State} (h : TreeShape s)
include h

theorem leafPath_iff {q : Bits} {x : Byte} : s.LeafPath q x ↔
    ∃ n, n < s.nsym.toNat ∧ s.descend s.root.toNat q = some n ∧ (s.nodeAt n).sym = x := by
  constructor
  · rintro ⟨n, hn, hleaf, hsym⟩
    exact ⟨n, (h.isLeaf_iff (h.path_valid hn)).1 hleaf, hn, hsym⟩
  · rintro ⟨n, hlt, hn, hsym⟩
    exact ⟨n, hn, (h.leaf n hlt).1, hsym⟩

theorem nsym_le_nodeCount : s.nsym.toNat ≤ s.nodeCount.toNat := by
  have := h.count
  have := h.nsym_pos
  omega

theorem nodeCount_ne_zero : s.nodeCount ≠ 0#9 := by
  intro hzero
  have := h.count_eq
  simp [hzero] at this

/-- The symbols with a path are those of the leaves. -/
theorem exists_leafPath_iff {x : Byte} : (∃ q, s.LeafPath q x) ↔ ∃ n, n < s.nsym.toNat ∧ (s.nodeAt n).sym = x := by
  constructor
  · rintro ⟨q, hq⟩
    obtain ⟨n, hn, -, hsym⟩ := h.leafPath_iff.1 hq
    exact ⟨n, hn, hsym⟩
  · rintro ⟨n, hn, hsym⟩
    obtain ⟨q, hq⟩ := h.path_exists (hn.trans_le h.nsym_le_nodeCount)
    exact ⟨q, h.leafPath_iff.2 ⟨n, hn, hq, hsym⟩⟩

theorem leafPath_unique {q r : Bits} {x : Byte} (hq : s.LeafPath q x) (hr : s.LeafPath r x) : q = r := by
  obtain ⟨n, hn, hqn, hx⟩ := h.leafPath_iff.1 hq
  obtain ⟨m, hm, hrm, rfl⟩ := h.leafPath_iff.1 hr
  obtain rfl := h.sym_inj hn hm hx
  exact h.path_unique hqn hrm

/-- With two symbols or more the root is no leaf. -/
theorem leafPath_ne_nil {q : Bits} {x : Byte} (hk : 2 ≤ s.nsym.toNat) (hq : s.LeafPath q x) : q ≠ [] := by
  rintro rfl
  obtain ⟨n, hn, hroot, -⟩ := h.leafPath_iff.1 hq
  obtain rfl : s.root.toNat = n := Option.some.inj hroot
  have := h.root
  omega

/-- A single leaf is the root. -/
theorem leafPath_single_iff {q : Bits} {x : Byte} (hk : s.nsym.toNat = 1) :
    s.LeafPath q x ↔ q = [] ∧ (s.nodeAt s.root.toNat).sym = x := by
  have hroot := h.root
  have hleaf : (s.nodeAt s.root.toNat).isLeaf = true := (h.leaf _ (by omega)).1
  simp only [State.LeafPath, s.descend_leaf hleaf]
  constructor
  · rintro ⟨n, ⟨rfl, rfl⟩, -, hsym⟩
    exact ⟨rfl, hsym⟩
  · rintro ⟨rfl, hsym⟩
    exact ⟨_, ⟨rfl, rfl⟩, hleaf, hsym⟩

/-- A code is never empty and fits its entry (R97 (f), R103). -/
theorem leafCode_length {q : Bits} {x : Byte} (hq : s.LeafPath q x) :
    1 ≤ (s.leafCode q).length ∧ (s.leafCode q).length ≤ 255 := by
  rcases h.nsym_pos.eq_or_lt with hk | hk
  · rw [State.leafCode_single hk.symm]
    decide
  · rw [State.leafCode_inner hk]
    refine ⟨List.length_pos_iff.2 (h.leafPath_ne_nil hk hq), ?_⟩
    obtain ⟨n, hn, -⟩ := hq
    have := h.path_length hn
    have := h.nsym_le
    omega

end TreeShape

/-! ## The table of a tree (R101, R103, R104) -/

/-- `ct` holds the code of each leaf's symbol of the tree of `s`, and no other code. -/
structure GeneratedTable (s : State) (ct : CodeTable) : Prop where
  leaf   : ∀ {x q}, s.LeafPath q x → tableGet ct x = CodeEntry.ofBits (s.leafCode q)
  absent : ∀ {x}, (¬ ∃ q, s.LeafPath q x) → tableGet ct x = CodeEntry.absent

/-- The state a GENCODES that makes the table `ct` leaves. -/
def State.generated (s : State) (ct : CodeTable) : State :=
  State.complete { s with ctab := ct } Instr.gencodes.opcode none

theorem exec_gencodes_of_eq_some {s : State} {ct : CodeTable} (hcount : s.nodeCount ≠ 0#9)
    (hct : generatedTable s = some ct) : exec .gencodes s = .next (s.generated ct) := by
  simp only [exec, execGencodes, if_neg hcount, hct, State.generated]

theorem TreeShape.exists_generatedTable {s : State} (h : TreeShape s) :
    ∃ ct, generatedTable s = some ct ∧ GeneratedTable s ct := by
  obtain ⟨ct, hct, hspec⟩ := generatedTable_spec h
  refine ⟨ct, hct, fun {x q} hq => ?_, fun {x} hx => ?_⟩
  · rcases hspec x with ⟨r, n, hn, hleaf, hsym, hget⟩ | ⟨hno, -⟩
    · rw [hget, h.leafPath_unique hq ⟨n, hn, hleaf, hsym⟩, State.leafCode, apply_ite CodeEntry.ofBits, singleLeafCode]
    · obtain ⟨n, hn, hsym⟩ := h.exists_leafPath_iff.1 ⟨q, hq⟩
      exact absurd hsym (hno n hn)
  · rcases hspec x with ⟨r, n, hn, hleaf, hsym, -⟩ | ⟨-, hget⟩
    · exact absurd ⟨r, n, hn, hleaf, hsym⟩ hx
    · exact hget

/-- GENCODES completes on every tree. -/
theorem TreeShape.exec_gencodes {s : State} (h : TreeShape s) :
    ∃ ct, exec .gencodes s = .next (s.generated ct) ∧ GeneratedTable s ct := by
  obtain ⟨ct, hct, g⟩ := h.exists_generatedTable
  exact ⟨ct, exec_gencodes_of_eq_some h.nodeCount_ne_zero hct, g⟩

namespace GeneratedTable

variable {s : State} {ct : CodeTable} (g : GeneratedTable s ct)
include g

/-- CODE bits at LEN and above are 0 (R104). -/
theorem bit_of_len_le (h : TreeShape s) {x : Byte} {i : Nat} (hi : (tableGet ct x).len.toNat ≤ i) :
    (tableGet ct x).bit i = false := by
  by_cases hx : ∃ q, s.LeafPath q x
  · obtain ⟨q, hq⟩ := hx
    rw [g.leaf hq, CodeEntry.len_ofBits _ (h.leafCode_length hq).2] at hi
    rw [g.leaf hq, CodeEntry.bit_ofBits, List.getD_eq_default _ _ hi, Bool.and_false]
  · rw [g.absent hx]
    simp [CodeEntry.absent, CodeEntry.bit]

theorem bits_leaf (h : TreeShape s) {x : Byte} {q : Bits} (hq : s.LeafPath q x) :
    (tableGet ct x).bits = s.leafCode q := by
  rw [g.leaf hq, CodeEntry.bits_ofBits _ (h.leafCode_length hq).2]

/-- The coded symbols are those of the leaves (R105 (a)). -/
theorem len_ne_zero_iff (h : TreeShape s) {x : Byte} : (tableGet ct x).len ≠ 0#8 ↔ ∃ q, s.LeafPath q x := by
  constructor
  · intro hlen
    by_contra hx
    exact hlen (congrArg CodeEntry.len (g.absent hx))
  · rintro ⟨q, hq⟩
    rw [Ne, ← CodeEntry.bits_eq_nil, g.bits_leaf h hq]
    exact List.length_pos_iff.1 (h.leafCode_length hq).1

/-- With two symbols or more the codes are the paths (R102). -/
theorem bits_eq_iff (h : TreeShape s) (hk : 2 ≤ s.nsym.toNat) {x : Byte} {p : Bits} (hp : p ≠ []) :
    (tableGet ct x).bits = p ↔ s.LeafPath p x := by
  constructor
  · rintro rfl
    obtain ⟨q, hq⟩ := (g.len_ne_zero_iff h).1 (mt CodeEntry.bits_eq_nil.2 hp)
    rwa [g.bits_leaf h hq, State.leafCode_inner hk]
  · intro hpath
    rw [g.bits_leaf h hpath, State.leafCode_inner hk]

/-- No code begins another (R105 (c)): a path to a leaf goes no further, and a single leaf has no other beside it. -/
theorem prefixFree (h : TreeShape s) : PrefixFree ct := by
  intro x y hconflict
  obtain ⟨hne, hclash⟩ := conflict_iff.1 hconflict
  obtain ⟨hx, hy, hprefix⟩ := CodeEntry.clash_iff_prefix.1 hclash
  obtain ⟨q, hq⟩ := (g.len_ne_zero_iff h).1 hx
  obtain ⟨r, hr⟩ := (g.len_ne_zero_iff h).1 hy
  rcases h.nsym_pos.eq_or_lt with hk | hk
  · exact hne (((h.leafPath_single_iff hk.symm).1 hq).2.symm.trans ((h.leafPath_single_iff hk.symm).1 hr).2)
  · rw [g.bits_leaf h hq, g.bits_leaf h hr, State.leafCode_inner hk, State.leafCode_inner hk] at hprefix
    rcases hprefix with hqr | hrq
    · exact hne (hq.eq_of_prefix hr hqr)
    · exact hne (hr.eq_of_prefix hq hrq).symm

end GeneratedTable

/-! ## The codes of one GENCODES (R101 to R104) -/

/-- Settles O38: the table holds the paths, and GENCODES writes no other result. -/
theorem gencodesCodesArePaths : Obligations.GencodesCodesArePaths := by
  unfold Obligations.GencodesCodesArePaths
  intro s h hk
  obtain ⟨ct, hexec, g⟩ := h.exec_gencodes
  obtain ⟨hhost, hfreq, htree, -, hpay, hout, -⟩ := commandWritesOnlyItsResults .gencodes s _ hexec
  obtain ⟨hpayBytes, hlengths⟩ := hpay (by decide)
  obtain ⟨houtBytes, hlen⟩ := hout (by decide)
  exact ⟨_, hexec, completed_complete _ _ _, fun x p hp => g.bits_eq_iff h hk hp, hhost, hfreq (by decide),
    htree (by decide), hlengths, hpayBytes, houtBytes, hlen⟩

/-- Settles O39: the empty path leads to the single leaf, whose code is "0". -/
theorem gencodesSingleLeaf : Obligations.GencodesSingleLeaf := by
  unfold Obligations.GencodesSingleLeaf
  intro s h hk
  obtain ⟨ct, hexec, g⟩ := h.exec_gencodes
  have hroot : tableGet ct (s.nodeAt s.root.toNat).sym = CodeEntry.ofBits [false] := by
    rw [g.leaf ((h.leafPath_single_iff hk).2 ⟨rfl, rfl⟩), State.leafCode_single hk]
  refine ⟨_, hexec, completed_complete _ _ _, ?_, ?_, fun x hx => ?_⟩
  · exact (congrArg (fun e => e.len.toNat) hroot).trans (CodeEntry.len_ofBits [false] (by decide))
  · exact (congrArg (fun e => e.bit 0) hroot).trans (CodeEntry.bit_ofBits [false] 0)
  · refine congrArg CodeEntry.len (g.absent ?_)
    rintro ⟨q, hq⟩
    exact hx ((h.leafPath_single_iff hk).1 hq).2.symm

/-! ## What GENCODES reads (R104) -/

section
variable {s s' : State} (h : TreeShape s) (hnode : ∀ n, n < s.nodeCount.toNat → s'.nodeAt n = s.nodeAt n)
include h hnode

/-- The walk from a valid entry meets valid entries only. -/
theorem walkTree_congr (fuel : Nat) {n : Nat} (hn : n < s.nodeCount.toNat) (p : Bits) (ct : CodeTable) :
    walkTree s' fuel n p ct = walkTree s fuel n p ct := by
  induction fuel generalizing n p ct with
  | zero => rfl
  | succ fuel ih =>
    simp only [walkTree, hnode n hn]
    cases hl : (s.nodeAt n).isLeaf with
    | true => rfl
    | false =>
      have hleft : (s.nodeAt n).left.toNat < n := h.child_lt hn hl false
      have hright : (s.nodeAt n).right.toNat < n := h.child_lt hn hl true
      simp only [ih (hleft.trans hn), ih (hright.trans hn)]

theorem generatedTable_congr (hroot : s'.root = s.root) : generatedTable s' = generatedTable s := by
  simp only [generatedTable, hroot, hnode _ h.root_lt, walkTree_congr h hnode _ h.root_lt]

end

/-- Settles O40: the table has no entry but the tree's, and it is computed from valid entries alone. -/
theorem gencodesWritesFreshTable : Obligations.GencodesWritesFreshTable := by
  unfold Obligations.GencodesWritesFreshTable
  intro s h
  obtain ⟨ct, hct, g⟩ := h.exists_generatedTable
  refine ⟨s.generated ct, exec_gencodes_of_eq_some h.nodeCount_ne_zero hct, .of_same rfl rfl rfl rfl, fun x hx => ?_,
    fun x i hi => g.bit_of_len_le h hi, fun s' hcount hroot hnode => ?_⟩
  · refine congrArg CodeEntry.len (g.absent fun hpath => ?_)
    obtain ⟨n, hn, hsym⟩ := h.exists_leafPath_iff.1 hpath
    exact hx n hn hsym
  · have hct' := (generatedTable_congr h hnode hroot).trans hct
    exact ⟨s'.generated ct, exec_gencodes_of_eq_some (hcount ▸ h.nodeCount_ne_zero) hct', fun _ => rfl⟩

/-! ## Kraft's equality (R105 (d)) -/

/-- A merge whose new term is the sum of the two it takes out keeps a sum over the queue. -/
theorem sum_merged {S : Finset Nat} {a b n : Nat} (ha : a ∈ S) (hb : b ∈ S) (hab : a ≠ b) (hn : n ∉ S) {f : Nat → Nat}
    (hf : f a + f b = f n) : ∑ c ∈ merged S a b n, f c = ∑ c ∈ S, f c := by
  have hout : n ∉ (S.erase a).erase b := fun h => hn (Finset.mem_of_mem_erase (Finset.mem_of_mem_erase h))
  rw [merged, Finset.sum_insert hout, sum_split_two f ha hb hab, ← hf, Nat.add_assoc]

namespace TreeShape

variable {s : State} (h : TreeShape s)
include h

/-- The children of an entry have no other parent, so they are in the queue before their merge. -/
theorem child_mem_queueAt {n : Nat} (hn : s.nsym.toNat ≤ n) (hlt : n < s.nodeCount.toNat) (b : Bool) :
    s.child n b ∈ s.queueAt n := by
  have hchild := h.child_lt hlt ((h.inner_iff hlt).2 hn) b
  have hcount := h.count_eq
  obtain ⟨i, -, honly⟩ := h.parent (s.child n b) (by omega)
  have hparent : (s.nodeAt n).left.toNat = s.child n b ∨ (s.nodeAt n).right.toNat = s.child n b := by
    cases b
    · exact .inl rfl
    · exact .inr rfl
  refine State.mem_queueAt.2 ⟨hchild, fun m hm hmn => not_or.1 fun hother => hmn.ne ?_⟩
  exact (honly m hm (hmn.trans hlt) hother).trans (honly n hn hlt hparent).symm

theorem queueAt_nodeCount : s.queueAt s.nodeCount.toNat = {s.root.toNat} := by
  refine Finset.eq_singleton_iff_unique_mem.2 ⟨State.mem_queueAt.2 ⟨h.root_lt, fun m hm hlt => ?_⟩, fun c =>
    h.eq_root_of_mem_queueAt⟩
  have := h.count_eq
  obtain ⟨-, -, hleft, hright, -⟩ := h.inner m hm hlt
  omega

theorem depth_le {c : Nat} (hc : c < s.nodeCount.toNat) : s.depth c ≤ 255 := by
  obtain ⟨p, hp⟩ := h.path_exists hc
  have := h.path_length hp
  have := h.nsym_le
  rw [h.depth_eq hp]
  omega

/-- Two siblings weigh as much as their parent, in multiples of 2^-255. -/
theorem kraft_child {n : Nat} (hn : s.nsym.toNat ≤ n) (hlt : n < s.nodeCount.toNat) :
    2 ^ (255 - s.depth (s.child n false)) + 2 ^ (255 - s.depth (s.child n true)) = 2 ^ (255 - s.depth n) := by
  have hinner := (h.inner_iff hlt).2 hn
  have hle := h.depth_le ((h.child_lt hlt hinner true).trans hlt)
  rw [h.depth_child hlt hinner] at hle
  rw [h.depth_child hlt hinner, h.depth_child hlt hinner, ← mul_two, ← pow_succ]
  congr 1
  omega

/-- No merge changes the Kraft sum of the queue. -/
theorem kraft_queueAt {n : Nat} (hn : s.nsym.toNat ≤ n) (hle : n ≤ s.nodeCount.toNat) :
    ∑ c ∈ s.queueAt n, 2 ^ (255 - s.depth c) = 2 ^ 255 := by
  induction hle using Nat.decreasingInduction with
  | self => rw [h.queueAt_nodeCount, Finset.sum_singleton, h.depth_root]
  | of_succ n hlt ih =>
    have hab : s.child n false ≠ s.child n true := fun he =>
      Bool.false_ne_true (h.child_inj hlt ((h.inner_iff hlt).2 hn) he)
    have hout : n ∉ s.queueAt n := fun hmem => (State.mem_queueAt.1 hmem).1.ne rfl
    rw [← ih (hn.trans n.le_succ), h.queueAt_succ hn hlt]
    exact (sum_merged (h.child_mem_queueAt hn hlt false) (h.child_mem_queueAt hn hlt true) hab hout
      (h.kraft_child hn hlt)).symm

/-- Kraft's equality: the sum of 2^-depth over the leaves is 1. -/
theorem kraft_leaves : ∑ n ∈ Finset.range s.nsym.toNat, 2 ^ (255 - s.depth n) = 2 ^ 255 := by
  rw [← State.queueAt_nsym]
  exact h.kraft_queueAt le_rfl h.nsym_le_nodeCount

/-- A sum over the symbols that only the leaves' symbols add to is one over the leaves. -/
theorem sumSymbols_eq_sum_leaves {f : Byte → Nat} (hf : ∀ x, (¬ ∃ q, s.LeafPath q x) → f x = 0) :
    sumSymbols f = ∑ n ∈ Finset.range s.nsym.toNat, f (s.nodeAt n).sym := by
  have hinj : Set.InjOn (fun n => (s.nodeAt n).sym) (Finset.range s.nsym.toNat) := fun m hm n hn =>
    h.sym_inj (by simpa using hm) (by simpa using hn)
  rw [sumSymbols, ← List.sum_toFinset f allSymbols_nodup, ← Finset.sum_image (f := f) hinj]
  refine (Finset.sum_subset (fun x _ => by simp [mem_allSymbols]) fun x _ hx => hf x fun hpath => hx ?_).symm
  obtain ⟨n, hn, hsym⟩ := h.exists_leafPath_iff.1 hpath
  exact Finset.mem_image.2 ⟨n, Finset.mem_range.2 hn, hsym⟩

end TreeShape

/-- The sum of 2^-LEN over the coded symbols, in multiples of 2^-255 (R105 (d)). -/
theorem GeneratedTable.kraft {s : State} {ct : CodeTable} (g : GeneratedTable s ct) (h : TreeShape s) :
    sumSymbols (fun x => if (tableGet ct x).len = 0#8 then 0 else 2 ^ (255 - (tableGet ct x).len.toNat)) =
      if 2 ≤ s.nsym.toNat then 2 ^ 255 else 2 ^ 254 := by
  rw [h.sumSymbols_eq_sum_leaves fun x hx => if_pos (by_contra fun hlen => hx ((g.len_ne_zero_iff h).1 hlen))]
  have hleaf : ∀ n ∈ Finset.range s.nsym.toNat, ∃ q, s.descend s.root.toNat q = some n ∧
      (tableGet ct (s.nodeAt n).sym).bits = s.leafCode q ∧ (tableGet ct (s.nodeAt n).sym).len ≠ 0#8 := by
    intro n hn
    have hn' := Finset.mem_range.1 hn
    obtain ⟨q, hq⟩ := h.path_exists (hn'.trans_le h.nsym_le_nodeCount)
    have hpath := h.leafPath_iff.2 ⟨n, hn', hq, rfl⟩
    exact ⟨q, hq, g.bits_leaf h hpath, (g.len_ne_zero_iff h).2 ⟨q, hpath⟩⟩
  by_cases hk : 2 ≤ s.nsym.toNat
  · rw [if_pos hk, ← h.kraft_leaves]
    refine Finset.sum_congr rfl fun n hn => ?_
    obtain ⟨q, hq, hbits, hlen⟩ := hleaf n hn
    rw [if_neg hlen, ← CodeEntry.bits_length, hbits, State.leafCode_inner hk, h.depth_eq hq]
  · have hone : s.nsym.toNat = 1 := by
      have := h.nsym_pos
      omega
    obtain ⟨q, -, hbits, hlen⟩ := hleaf 0 (by simp [hone])
    rw [if_neg hk, hone, Finset.sum_range_one, if_neg hlen, ← CodeEntry.bits_length, hbits, State.leafCode_single hone]
    rfl

/-! ## BUILD, GENCODES, VALIDATE (R105) -/

/-- A table in which no code begins another passes VALIDATE (R115). -/
theorem exec_validate_of_prefixFree {s : State} (h : PrefixFree s.ctab) :
    exec .validate s = .next (s.complete Instr.validate.opcode none) := by
  simp only [exec, execValidate, firstPair_eq_none.2 h, Option.map_none]

/-- The symbols with a leaf in BUILD's tree are those present. -/
theorem State.exists_built_leafPath_iff {s : State} (hne : leavesOf s.freq ≠ []) {x : Byte} :
    (∃ q, s.built.LeafPath q x) ↔ s.freqOf x ≠ 0#32 := by
  rw [(State.built_treeShape hne).exists_leafPath_iff]
  constructor
  · rintro ⟨n, hn, rfl⟩
    exact State.built_sym_present hne hn
  · exact State.exists_built_leaf hne

/-- Settles O41: each law holds of the table of every tree, and BUILD's tree has a leaf for each present symbol. -/
theorem generatedTableLaws : Obligations.GeneratedTableLaws := by
  unfold Obligations.GeneratedTableLaws
  intro s y hy
  have hne := leavesOf_freq_ne_nil hy
  have h := State.built_treeShape hne
  obtain ⟨ct, hexec, g⟩ := h.exec_gencodes
  have hfree := g.prefixFree h
  refine ⟨s.built, s.built.generated ct, _, exec_build_of_ne_nil hne, hexec, exec_validate_of_prefixFree hfree,
    completed_complete _ _ _, fun x => ?complete, fun hk x hx => ?depth, hfree, completed_complete _ _ _, g.kraft h⟩
  case complete =>
    rw [CodeEntry.len_pos, ← State.exists_built_leafPath_iff hne]
    exact g.len_ne_zero_iff h
  case depth =>
    obtain ⟨q, hq⟩ := (State.exists_built_leafPath_iff hne).2 hx
    have hbits : ((s.built.generated ct).codeOf x).bits = q := (g.bits_leaf h hq).trans (State.leafCode_inner hk q)
    rw [hbits]
    exact hq

end Sys2Proof.Machine
end

section
/-! ENCODE, the bitstream encoder and bit-packer (44_encoder.md R107 to R113). -/

namespace Sys2Proof.Machine

/-! ## The outcomes of ENCODE (R108, R110) -/

/-- The state ENCODE leaves when a pre-check raises `r`: PAY stays (R110). -/
def State.encodeRefused (s : State) (r : Raised) : State := s.clearPayload.complete Instr.encode.opcode (some r)

/-- The state ENCODE leaves when its loop raises `r`: every byte of PAY is drawn anew (R110). -/
def State.encodeFailed (s : State) (r : Raised) : State :=
  State.complete { s.clearPayload with payBuf := Memory.drawn s.draws } Instr.encode.opcode (some r)

/-- The state a successful ENCODE leaves (R110). -/
def State.encoded (s : State) : State :=
  State.complete { s with
    payBuf   := s.payBuf.writeBytes 0 (packBits (codeStream s.ctab s.inSymbols))
    bitLen   := BitVec.ofNat 32 (codeStream s.ctab s.inSymbols).length
    payBytes := BitVec.ofNat 32 (ceilDiv8 (codeStream s.ctab s.inSymbols).length) } Instr.encode.opcode none

/-- No error of R108 applies: IN_LEN passes the pre-checks, every input symbol has a code, and the stream fits PAY. -/
structure State.Encodable (s : State) : Prop where
  nonempty : 1 ≤ s.inLen.toNat
  within   : s.inLen.toNat ≤ s.params.inDepth
  coded    : AllCoded s.ctab s.inSymbols
  fits     : (codeStream s.ctab s.inSymbols).length ≤ 8 * s.params.payDepth

theorem State.one_le_inLen_iff {s : State} : 1 ≤ s.inLen.toNat ↔ s.inLen ≠ 0#32 := by
  rw [Ne, ← BitVec.toNat_inj]
  exact Nat.one_le_iff_ne_zero

theorem exec_encode_of_gt {s : State} (h : s.params.inDepth < s.inLen.toNat) :
    exec .encode s = .next (s.encodeRefused ⟨.capacityExceeded, s.inLen⟩) :=
  if_pos h

theorem exec_encode_of_empty {s : State} (h : s.inLen = 0#32) :
    exec .encode s = .next (s.encodeRefused ⟨.emptyInput, 0#32⟩) := by
  have hle : ¬ s.inLen.toNat > s.params.inDepth := by simp [h]
  exact (if_neg hle).trans (if_pos h)

section
variable {s : State} (hpos : 1 ≤ s.inLen.toNat) (hle : s.inLen.toNat ≤ s.params.inDepth)
include hpos hle

theorem exec_encode_of_error {r : Raised}
    (hloop : encodeLoop s.ctab (8 * s.params.payDepth) 0 s.inSymbols [] = .error r) :
    exec .encode s = .next (s.encodeFailed r) := by
  simp only [exec, execEncode, if_neg (Nat.not_lt.2 hle), if_neg (State.one_le_inLen_iff.1 hpos), hloop,
    State.encodeFailed]

theorem exec_encode_of_ok {bits : Bits}
    (hloop : encodeLoop s.ctab (8 * s.params.payDepth) 0 s.inSymbols [] = .ok bits) :
    s.Encodable ∧ exec .encode s = .next s.encoded := by
  obtain ⟨hcoded, hfits, rfl⟩ := (encodeLoop_eq_ok (Nat.zero_le _)).1 hloop
  rw [List.nil_append] at hloop
  refine ⟨⟨hpos, hle, hcoded, by simpa using hfits⟩, ?_⟩
  simp only [exec, execEncode, if_neg (Nat.not_lt.2 hle), if_neg (State.one_le_inLen_iff.1 hpos), hloop,
    State.encoded]

end

theorem State.Encodable.exec_encode {s : State} (h : s.Encodable) : exec .encode s = .next s.encoded := by
  have hloop : encodeLoop s.ctab (8 * s.params.payDepth) 0 s.inSymbols [] = .ok (codeStream s.ctab s.inSymbols) :=
    (encodeLoop_eq_ok (Nat.zero_le _)).2 ⟨h.coded, by simpa using h.fits, rfl⟩
  exact (exec_encode_of_ok h.nonempty h.within hloop).2

/-- ENCODE completes on every state: with the packed stream, or with an error (R110). -/
theorem exec_encode_cases (s : State) :
    (s.Encodable ∧ exec .encode s = .next s.encoded) ∨
    ∃ t, exec .encode s = .next t ∧ t.errCode ≠ 0#4 := by
  by_cases hle : s.inLen.toNat ≤ s.params.inDepth
  · by_cases hpos : 1 ≤ s.inLen.toNat
    · cases hloop : encodeLoop s.ctab (8 * s.params.payDepth) 0 s.inSymbols [] with
      | ok bits => exact .inl (exec_encode_of_ok hpos hle hloop)
      | error r => exact .inr ⟨_, exec_encode_of_error hpos hle hloop, r.error.code_ne_zero⟩
    · exact .inr ⟨_, exec_encode_of_empty (not_not.1 (mt State.one_le_inLen_iff.2 hpos)),
        CmdError.code_ne_zero .emptyInput⟩
  · exact .inr ⟨_, exec_encode_of_gt (Nat.lt_of_not_le hle), CmdError.code_ne_zero .capacityExceeded⟩

/-- ENCODE succeeds only where no error of R108 applies, and then leaves the packed stream. -/
theorem encodable_of_exec_encode {s t : State} (h : exec .encode s = .next t) (hok : t.errCode = 0#4) :
    s.Encodable ∧ t = s.encoded := by
  rcases exec_encode_cases s with ⟨henc, hexec⟩ | ⟨u, hexec, herr⟩
  · rw [hexec] at h
    cases h
    exact ⟨henc, rfl⟩
  · rw [hexec] at h
    cases h
    exact absurd hok herr

/-- ENCODE writes nothing but PAY, its lengths and the completion fields (R68, R110). -/
theorem exec_encode_keeps {s t : State} (h : exec .encode s = .next t) :
    KeepsHostSide s t ∧ KeepsFreq s t ∧ KeepsTree s t ∧ KeepsCtab s t ∧ KeepsOut s t ∧ t.outLen = s.outLen := by
  obtain ⟨hhost, hfreq, htree, hctab, -, hout, -⟩ := commandWritesOnlyItsResults .encode s t h
  obtain ⟨houtBytes, hlen⟩ := hout (by decide)
  exact ⟨hhost, hfreq (by decide), htree (by decide), hctab (by decide), houtBytes, hlen⟩

/-! ## The pre-checks (R110 to R112) -/

/-- Settles O45: both checks come before the loop, which alone draws PAY anew. -/
theorem encodePreChecks : Obligations.EncodePreChecks := by
  unfold Obligations.EncodePreChecks
  refine fun s => ⟨fun hempty => ?_, fun hgt => ?_⟩
  · have hexec := exec_encode_of_empty hempty
    exact ⟨_, hexec, completed_complete _ _ _, rfl, rfl, .of_same rfl, exec_encode_keeps hexec⟩
  · have hexec := exec_encode_of_gt hgt
    exact ⟨_, hexec, completed_complete _ _ _, rfl, rfl, .of_same rfl, exec_encode_keeps hexec⟩

/-! ## The packed stream in PAY (R107, R108) -/

/-- Bit (7 - m) of byte j of a packed stream (R107). -/
theorem packBits_getLsbD (bits : Bits) {j m : Nat} (hj : j < (packBits bits).length) (hm : m < 8) :
    ((packBits bits).getD j 0#8).getLsbD (7 - m) = bits.getD (8 * j + m) false := by
  rw [List.getD_eq_getElem _ _ hj, packBits_getElem, ← packByte_getMsbD bits j m hm]
  simp [BitVec.getMsbD, hm]

theorem State.encoded_payByte_of_lt (s : State) {j : Nat}
    (hj : j < (packBits (codeStream s.ctab s.inSymbols)).length) :
    s.encoded.payByte j = (packBits (codeStream s.ctab s.inSymbols)).getD j 0#8 := by
  simp [State.payByte, State.encoded, Memory.writeBytes_get?, hj]

theorem State.encoded_payByte_of_ge (s : State) {j : Nat}
    (hj : (packBits (codeStream s.ctab s.inSymbols)).length ≤ j) : s.encoded.payByte j = s.payByte j := by
  simp [State.payByte, State.encoded, Memory.writeBytes_get?, Nat.not_lt.2 hj]

section
variable {s : State} (hwf : s.params.wf = true) (h : s.Encodable)
include hwf h

/-- A stream that fits PAY has at most 524288 bits, so its length fits BITLEN (R111). -/
theorem State.Encodable.stream_lt : (codeStream s.ctab s.inSymbols).length < 2 ^ 32 := by
  have hfits := h.fits
  simp only [Params.wf, Bool.and_eq_true, Params.depthOk_iff] at hwf
  omega

theorem State.Encodable.encoded_bitLen : s.encoded.bitLen.toNat = (codeStream s.ctab s.inSymbols).length :=
  Nat.mod_eq_of_lt (h.stream_lt hwf)

theorem State.Encodable.encoded_payBytes :
    s.encoded.payBytes.toNat = (packBits (codeStream s.ctab s.inSymbols)).length := by
  have hlt := h.stream_lt hwf
  rw [packBits_length]
  refine Nat.mod_eq_of_lt ?_
  unfold ceilDiv8
  omega

end

/-- Settles O42: the bits of a packed byte are those of the stream, and a successful ENCODE leaves the packed bytes of
the code stream in PAY. -/
theorem payloadFormat : Obligations.PayloadFormat := by
  unfold Obligations.PayloadFormat
  refine ⟨fun bits => ⟨packBits_length bits, fun j m hj hm => ?_⟩, fun s t hwf hexec hok => ?_⟩
  · exact packBits_getLsbD bits (by rwa [packBits_length]) hm
  · obtain ⟨henc, rfl⟩ := encodable_of_exec_encode hexec hok
    rw [henc.encoded_payBytes hwf, henc.encoded_bitLen hwf]
    refine ⟨packBits_length _, fun j m hj hm => ?_⟩
    rw [s.encoded_payByte_of_lt hj, packBits_getLsbD _ hj hm]

/-- Settles O43: where no error of R108 applies ENCODE stores the packed code stream and its lengths. -/
theorem encodePacksCodes : Obligations.EncodePacksCodes := by
  unfold Obligations.EncodePacksCodes
  intro s hwf hpos hle hcoded hfits
  have henc : s.Encodable := ⟨hpos, hle, hcoded, hfits⟩
  have hexec := henc.exec_encode
  have hbytes := henc.encoded_payBytes hwf
  refine ⟨s.encoded, hexec, completed_complete _ _ _, henc.encoded_bitLen hwf, hbytes.trans (packBits_length _),
    fun j hj => s.encoded_payByte_of_lt (hbytes ▸ hj), fun j hj => s.encoded_payByte_of_ge (hbytes ▸ hj),
    exec_encode_keeps hexec⟩

/-! ## The first bad symbol (R109 to R111, R128) -/

section
variable {ct : CodeTable} {cap : Nat} {xs ys : List Byte} {x : Byte} (hcoded : AllCoded ct xs)
  (hfits : (codeStream ct xs).length ≤ cap)
include hcoded hfits

theorem encodeLoop_of_missing (hx : (tableGet ct x).len = 0#8) :
    encodeLoop ct cap 0 (xs ++ x :: ys) [] = .error ⟨.missingCode, symbolInfo x xs.length⟩ := by
  rw [encodeLoop_append hcoded (by simpa using hfits)]
  simp [encodeLoop, hx]

theorem encodeLoop_of_overflow (hx : (tableGet ct x).len ≠ 0#8)
    (hover : cap < (codeStream ct xs).length + (tableGet ct x).len.toNat) :
    encodeLoop ct cap 0 (xs ++ x :: ys) [] = .error ⟨.capacityExceeded, symbolInfo x xs.length⟩ := by
  rw [encodeLoop_append hcoded (by simpa using hfits)]
  simp [encodeLoop, hx, hover]

end

section
variable {s : State} {i : Nat} (hi : i < s.inLen.toNat)
include hi

theorem State.inSymbols_split :
    s.inSymbols = s.inSymbols.take i ++ s.inByte i :: s.inSymbols.drop (i + 1) := by
  have hlen : i < s.inSymbols.length := by simpa using hi
  have hget : s.inSymbols[i] = s.inByte i := by simp [State.inSymbols]
  rw [← hget, ← List.drop_eq_getElem_cons hlen, List.take_append_drop]

theorem State.inSymbols_take_length : (s.inSymbols.take i).length = i := by
  simpa using hi.le

/-- When the loop raises `e` at input index `i`, ENCODE completes with it and with the symbol and its index. -/
theorem exec_encode_of_error_at (hwf : s.params.wf = true) (hle : s.inLen.toNat ≤ s.params.inDepth) {e : CmdError}
    (hloop : encodeLoop s.ctab (8 * s.params.payDepth) 0 s.inSymbols [] = .error ⟨e, symbolInfo (s.inByte i) i⟩) :
    ∃ t info, exec .encode s = .next t ∧ Completed 0x04#8 (some ⟨e, info⟩) t ∧
      info.toNat = 65536 * (s.inByte i).toNat + i ∧ t.bitLen = 0#32 ∧ t.payBytes = 0#32 ∧
      KeepsHostSide s t ∧ KeepsFreq s t ∧ KeepsTree s t ∧ KeepsCtab s t ∧ KeepsOut s t ∧ t.outLen = s.outLen := by
  have hindex : i < 65536 := by
    simp only [Params.wf, Bool.and_eq_true, Params.depthOk_iff] at hwf
    omega
  have hexec := exec_encode_of_error (Nat.one_le_of_lt hi) hle hloop
  exact ⟨_, _, hexec, completed_complete _ _ _, symbolInfo_toNat _ i hindex, rfl, rfl, exec_encode_keeps hexec⟩

end

/-- Settles O44: the loop reaches index `i` with the codes of the symbols before it, and its two tests there decide. -/
theorem encodeStopsAtFirstBadSymbol : Obligations.EncodeStopsAtFirstBadSymbol := by
  unfold Obligations.EncodeStopsAtFirstBadSymbol
  intro s i hwf hle hi hcoded hfits
  have hsplit := State.inSymbols_split hi
  have hlen := State.inSymbols_take_length hi
  refine ⟨fun hmissing => ?_, fun hcode hover => ?_⟩
  · have hloop := encodeLoop_of_missing (ys := s.inSymbols.drop (i + 1)) hcoded hfits hmissing
    rw [← hsplit, hlen] at hloop
    exact exec_encode_of_error_at hi hwf hle hloop
  · have hloop := encodeLoop_of_overflow (ys := s.inSymbols.drop (i + 1)) hcoded hfits hcode hover
    rw [← hsplit, hlen] at hloop
    exact exec_encode_of_error_at hi hwf hle hloop

/-! ## The length laws (R113) -/

/-- A sum over a sequence of symbols, grouped by symbol. -/
theorem sum_map_eq_sumSymbols (l : List Byte) (f : Byte → Nat) :
    (l.map f).sum = sumSymbols fun x => l.count x * f x := by
  rw [sumSymbols, ← List.sum_toFinset _ allSymbols_nodup, Finset.sum_list_map_count]
  refine Finset.sum_subset (fun x _ => by simp [mem_allSymbols]) fun x _ hx => ?_
  simp [List.count_eq_zero_of_not_mem (mt List.mem_toFinset.2 hx)]

/-- The laws (a) and (c) of R113. -/
theorem encodeLengths {s t : State} (hwf : s.params.wf = true) (hexec : exec .encode s = .next t)
    (hok : t.errCode = 0#4) :
    t.bitLen.toNat = (s.inSymbols.map fun x => (s.codeOf x).len.toNat).sum ∧
      t.payBytes.toNat = (t.bitLen.toNat + 7) / 8 := by
  obtain ⟨henc, rfl⟩ := encodable_of_exec_encode hexec hok
  rw [henc.encoded_payBytes hwf, henc.encoded_bitLen hwf]
  exact ⟨codeStream_length _ _, packBits_length _⟩

/-- A COUNT of a non-empty input is followed by a BUILD and a GENCODES that complete (R105). -/
theorem State.exec_build_gencodes_counted {s : State} (hpos : 1 ≤ s.inLen.toNat) :
    ∃ ct, exec .build s.counted = .next s.counted.built ∧
      exec .gencodes s.counted.built = .next (s.counted.built.generated ct) := by
  have hfirst : s.inByte 0 ∈ s.inSymbols := List.mem_map_of_mem (List.mem_range.2 hpos)
  have hpresent : s.counted.freqOf (s.inByte 0) ≠ 0#32 := fun h0 => by
    simpa [h0] using (s.counted_pos_iff _).2 hfirst
  have hne := leavesOf_freq_ne_nil hpresent
  obtain ⟨ct, hgen, -⟩ := (State.built_treeShape hne).exec_gencodes
  exact ⟨ct, exec_build_of_ne_nil hne, hgen⟩

/-- Settles O46: the length of the code stream is the sum of LEN over the input, and grouped by symbol it is the sum
that COUNT's histogram weighs. -/
theorem encodeLengthLaws : Obligations.EncodeLengthLaws := by
  unfold Obligations.EncodeLengthLaws
  refine ⟨fun s t => encodeLengths, fun s hwf hpos hle => ?_⟩
  obtain ⟨ct, hbuild, hgen⟩ := State.exec_build_gencodes_counted hpos
  have hinput : (s.counted.built.generated ct).inSymbols = s.inSymbols := rfl
  obtain ⟨d, hencode⟩ : ∃ d, exec .encode (s.counted.built.generated ct) = .next d := by
    rcases exec_encode_cases (s.counted.built.generated ct) with ⟨-, h⟩ | ⟨d, h, -⟩
    · exact ⟨_, h⟩
    · exact ⟨d, h⟩
  refine ⟨_, _, _, d, exec_count_of_le hle, hbuild, hgen, hencode, fun hok => ?_⟩
  obtain ⟨hbits, -⟩ := encodeLengths (s := s.counted.built.generated ct) hwf hencode hok
  rw [hbits, hinput, sum_map_eq_sumSymbols]
  simp only [State.counted_freqOf_toNat]

end Sys2Proof.Machine
end

section
/-! VALIDATE and DECODE, the prefix-free check and the bitstream decoder (45_decoder.md R114 to R122), and the round trip
from ENCODE's input to DECODE's output (R124). -/

namespace Sys2Proof.Machine

/-! ## VALIDATE (R114, R115) -/

theorem exists_firstPair_of_not_prefixFree {ct : CodeTable} (h : ¬ PrefixFree ct) : ∃ x y, FirstPair ct x y := by
  obtain ⟨⟨x, y⟩, hpair⟩ := Option.ne_none_iff_exists'.1 (mt firstPair_eq_none.1 h)
  exact ⟨x, y, firstPair_eq_some.1 hpair⟩

theorem exec_validate_of_firstPair {s : State} {x y : Byte} (h : FirstPair s.ctab x y) :
    exec .validate s = .next (s.complete Instr.validate.opcode (some (invalidTable (x, y)))) := by
  simp only [exec, execValidate, firstPair_eq_some.2 h, Option.map_some]

/-- Settles O47: the scan of the rows finds the least clashing pair, and none exactly on a prefix-free table. -/
theorem validateReportsFirstPair : Obligations.ValidateReportsFirstPair := by
  unfold Obligations.ValidateReportsFirstPair
  refine ⟨decodeWord_encode .validate, fun s => ⟨fun hfree => ?_, fun x y hpair => ?_,
    exists_firstPair_of_not_prefixFree⟩⟩
  · exact ⟨_, exec_validate_of_prefixFree hfree, completed_complete _ _ _, .complete _ _ _⟩
  · exact ⟨_, _, exec_validate_of_firstPair hpair, completed_complete _ _ _, pairInfo_toNat x y, .complete _ _ _⟩

/-! ## The outcomes of DECODE (R118 to R120) -/

/-- The state DECODE leaves when a check before the loop raises `r`: OUT stays (R120). -/
def State.decodeRefused (s : State) (r : Raised) : State := s.clearOutput.complete Instr.decode.opcode (some r)

/-- The state DECODE leaves when its loop raises `r`: every byte of OUT is drawn anew (R120). -/
def State.decodeFailed (s : State) (r : Raised) : State :=
  State.complete { s.clearOutput with outBuf := Memory.drawn s.draws } Instr.decode.opcode (some r)

/-- The state a DECODE that yields the symbols `out` leaves (R120). -/
def State.decoded (s : State) (out : List Byte) : State :=
  State.complete { s with
    outBuf := s.outBuf.writeBytes 0 out
    outLen := BitVec.ofNat 32 out.length } Instr.decode.opcode none

theorem exec_decode_of_overfull {s : State} (h : s.params.payDepth < s.payBytes.toNat) :
    exec .decode s = .next (s.decodeRefused ⟨.capacityExceeded, s.payBytes⟩) :=
  if_pos h

theorem exec_decode_of_corrupt {s : State} (hle : s.payBytes.toNat ≤ s.params.payDepth)
    (h : 8 * s.payBytes.toNat < s.bitLen.toNat ∨ s.payBytes.toNat ≠ (s.bitLen.toNat + 7) / 8) :
    exec .decode s = .next (s.decodeRefused ⟨.corruptArtifact, s.bitLen⟩) :=
  (if_neg (Nat.not_lt.2 hle)).trans (if_pos h)

theorem lengthsOk_iff {s : State} : LengthsOk s ↔ ¬ s.payBytes.toNat > s.params.payDepth ∧
    ¬ (s.bitLen.toNat > 8 * s.payBytes.toNat ∨ s.payBytes.toNat ≠ ceilDiv8 s.bitLen.toNat) := by
  simp only [LengthsOk, ceilDiv8]
  omega

section
variable {s : State} (hlen : LengthsOk s)
include hlen

theorem exec_decode_of_firstPair {x y : Byte} (h : FirstPair s.ctab x y) :
    exec .decode s = .next (s.decodeRefused (invalidTable (x, y))) := by
  obtain ⟨hfull, hcorrupt⟩ := lengthsOk_iff.1 hlen
  simp only [exec, execDecode, if_neg hfull, if_neg hcorrupt, firstPair_eq_some.2 h, State.decodeRefused]

variable (hfree : PrefixFree s.ctab)
include hfree

theorem exec_decode_of_error {r : Raised}
    (hloop : decodeLoop s.ctab s.params.outDepth 0 0 [] [] s.payBits = .error r) :
    exec .decode s = .next (s.decodeFailed r) := by
  obtain ⟨hfull, hcorrupt⟩ := lengthsOk_iff.1 hlen
  simp only [exec, execDecode, if_neg hfull, if_neg hcorrupt, firstPair_eq_none.2 hfree, hloop, State.decodeFailed]

theorem exec_decode_of_ok {out : List Byte}
    (hloop : decodeLoop s.ctab s.params.outDepth 0 0 [] [] s.payBits = .ok out) :
    exec .decode s = .next (s.decoded out) := by
  obtain ⟨hfull, hcorrupt⟩ := lengthsOk_iff.1 hlen
  simp only [exec, execDecode, if_neg hfull, if_neg hcorrupt, firstPair_eq_none.2 hfree, hloop, State.decoded]

end

/-- DECODE completes on every state: with the symbols of its loop after all checks have passed, or with an error. -/
theorem exec_decode_cases (s : State) :
    (∃ out, LengthsOk s ∧ PrefixFree s.ctab ∧
      decodeLoop s.ctab s.params.outDepth 0 0 [] [] s.payBits = .ok out ∧ exec .decode s = .next (s.decoded out)) ∨
    ∃ t, exec .decode s = .next t ∧ t.errCode ≠ 0#4 := by
  by_cases hle : s.payBytes.toNat ≤ s.params.payDepth
  · by_cases hcorrupt : 8 * s.payBytes.toNat < s.bitLen.toNat ∨ s.payBytes.toNat ≠ (s.bitLen.toNat + 7) / 8
    · exact .inr ⟨_, exec_decode_of_corrupt hle hcorrupt, CmdError.code_ne_zero .corruptArtifact⟩
    · have hlen : LengthsOk s := lengthsOk_iff.2 ⟨Nat.not_lt.2 hle, hcorrupt⟩
      by_cases hfree : PrefixFree s.ctab
      · cases hloop : decodeLoop s.ctab s.params.outDepth 0 0 [] [] s.payBits with
        | ok out => exact .inl ⟨out, hlen, hfree, rfl, exec_decode_of_ok hlen hfree hloop⟩
        | error r => exact .inr ⟨_, exec_decode_of_error hlen hfree hloop, r.error.code_ne_zero⟩
      · obtain ⟨x, y, hpair⟩ := exists_firstPair_of_not_prefixFree hfree
        exact .inr ⟨_, exec_decode_of_firstPair hlen hpair, CmdError.code_ne_zero .invalidCodeTable⟩
  · exact .inr ⟨_, exec_decode_of_overfull (Nat.lt_of_not_le hle), CmdError.code_ne_zero .capacityExceeded⟩

/-- DECODE writes nothing but OUT, OUT_LEN and the completion fields (R68, R120). -/
theorem exec_decode_keeps {s t : State} (h : exec .decode s = .next t) :
    KeepsHostSide s t ∧ KeepsFreq s t ∧ KeepsTree s t ∧ KeepsCtab s t ∧ KeepsPayLengths s t ∧ KeepsPay s t := by
  obtain ⟨hhost, hfreq, htree, hctab, hpay, -⟩ := commandWritesOnlyItsResults .decode s t h
  obtain ⟨hpayBytes, hlengths⟩ := hpay (by decide)
  exact ⟨hhost, hfreq (by decide), htree (by decide), hctab (by decide), hlengths, hpayBytes⟩

/-! ## The checks before the loop (R118, R119) -/

/-- Settles O48: the two length checks come first, and only the loop draws OUT anew. -/
theorem decodeLengthCheck : Obligations.DecodeLengthCheck := by
  unfold Obligations.DecodeLengthCheck
  refine fun s => ⟨fun hfull => ?_, fun hle hcorrupt => ?_⟩
  · have hexec := exec_decode_of_overfull hfull
    exact ⟨_, hexec, completed_complete _ _ _, rfl, .of_same rfl, exec_decode_keeps hexec⟩
  · have hexec := exec_decode_of_corrupt hle hcorrupt
    exact ⟨_, hexec, completed_complete _ _ _, rfl, .of_same rfl, exec_decode_keeps hexec⟩

/-- Settles O49: the scan for a clashing pair comes before the loop, too. -/
theorem decodeRejectsBadTable : Obligations.DecodeRejectsBadTable := by
  unfold Obligations.DecodeRejectsBadTable
  intro s x y hlen hpair
  have hexec := exec_decode_of_firstPair hlen hpair
  exact ⟨_, _, hexec, completed_complete _ _ _, pairInfo_toNat x y, rfl, .of_same rfl, exec_decode_keeps hexec⟩

/-! ## The symbols in OUT (R119, R120) -/

@[simp] theorem State.payBits_length (s : State) : s.payBits.length = s.bitLen.toNat := by simp [State.payBits]

/-- Every symbol takes a bit at least, so the number of symbols fits OUT_LEN as the number of bits fits BITLEN. -/
theorem State.decoded_outLen {s : State} {xs : List Byte} (hcoded : AllCoded s.ctab xs)
    (hbits : s.payBits = codeStream s.ctab xs) : (s.decoded xs).outLen.toNat = xs.length := by
  have hle := length_le_codeStream hcoded
  rw [← hbits, State.payBits_length] at hle
  exact Nat.mod_eq_of_lt (hle.trans_lt s.bitLen.isLt)

theorem State.decoded_outByte_of_lt (s : State) {xs : List Byte} {j : Nat} (hj : j < xs.length) :
    (s.decoded xs).outByte j = xs.getD j 0#8 := by
  simp [State.outByte, State.decoded, Memory.writeBytes_get?, hj]

theorem State.decoded_outByte_of_ge (s : State) {xs : List Byte} {j : Nat} (hj : xs.length ≤ j) :
    (s.decoded xs).outByte j = s.outByte j := by
  simp [State.outByte, State.decoded, Memory.writeBytes_get?, Nat.not_lt.2 hj]

theorem State.decoded_outBytes (s : State) (xs : List Byte) :
    (List.range xs.length).map (s.decoded xs).outByte = xs := by
  apply List.ext_getElem
  · simp
  · intro j _ hj
    simp [s.decoded_outByte_of_lt hj, hj]

/-- DECODE of the codes of a sequence that OUT can hold (R119). -/
theorem exec_decode_of_codeStream {s : State} {xs : List Byte} (hlen : LengthsOk s) (hfree : PrefixFree s.ctab)
    (hcoded : AllCoded s.ctab xs) (hbits : s.payBits = codeStream s.ctab xs) (hfits : xs.length ≤ s.params.outDepth) :
    exec .decode s = .next (s.decoded xs) := by
  refine exec_decode_of_ok hlen hfree ?_
  have hloop := decodeLoop_codeStream hfree hcoded (p := 0) (out := []) (tail := [])
    (depth := s.params.outDepth) (by simpa using hfits)
  simpa [hbits, decodeLoop] using hloop

/-- Settles O50: the loop emits each symbol at the last bit of its code and starts anew behind it. -/
theorem decodeInvertsCodeStream : Obligations.DecodeInvertsCodeStream := by
  unfold Obligations.DecodeInvertsCodeStream
  intro s xs _ hlen hfree hcoded hbits hfits
  have hexec := exec_decode_of_codeStream hlen hfree hcoded hbits hfits
  exact ⟨_, hexec, completed_complete _ _ _, State.decoded_outLen hcoded hbits, fun j => s.decoded_outByte_of_lt,
    fun j => s.decoded_outByte_of_ge, exec_decode_keeps hexec⟩

/-- Settles O51: only a loop that ends without an error leaves ERRCODE 0, and such a loop is exact. -/
theorem decodeSuccessIsExact : Obligations.DecodeSuccessIsExact := by
  unfold Obligations.DecodeSuccessIsExact
  intro s t hexec hok
  rcases exec_decode_cases s with ⟨out, hlen, hfree, hloop, hexec'⟩ | ⟨u, hexec', herr⟩
  · obtain rfl : s.decoded out = t := Host.Outcome.next.inj (hexec'.symm.trans hexec)
    obtain ⟨xs, rfl, hcoded, hbits, hfits⟩ := decodeLoop_eq_ok hloop (Nat.zero_le _)
    simp only [List.nil_append] at hbits hfits ⊢
    rw [State.decoded_outLen hcoded hbits, State.decoded_outBytes]
    exact ⟨hlen, hfree, hfits, hcoded, hbits⟩
  · obtain rfl : u = t := Host.Outcome.next.inj (hexec'.symm.trans hexec)
    exact absurd hok herr

/-! ## The errors of the loop (R121, R122) -/

/-- When the loop, having emitted `xs`, raises `e` on the rest of the stream, DECODE completes with it and with the
position of the rest. -/
theorem exec_decode_of_error_behind {s : State} {xs : List Byte} {rest : Bits} {e : CmdError} (hlen : LengthsOk s)
    (hfree : PrefixFree s.ctab) (hcoded : AllCoded s.ctab xs) (hbits : s.payBits = codeStream s.ctab xs ++ rest)
    (hfits : xs.length ≤ s.params.outDepth)
    (hloop : ∀ p, decodeLoop s.ctab s.params.outDepth p p [] xs rest = .error ⟨e, BitVec.ofNat 32 p⟩) :
    ∃ t info, exec .decode s = .next t ∧ Completed 0x06#8 (some ⟨e, info⟩) t ∧
      info.toNat = (codeStream s.ctab xs).length ∧ t.outLen = 0#32 ∧
      KeepsHostSide s t ∧ KeepsFreq s t ∧ KeepsTree s t ∧ KeepsCtab s t ∧ KeepsPayLengths s t ∧ KeepsPay s t := by
  have hpos : (codeStream s.ctab xs).length < 2 ^ 32 := by
    have htotal := congrArg List.length hbits
    rw [State.payBits_length, List.length_append] at htotal
    exact (Nat.le_of_add_right_le htotal.ge).trans_lt s.bitLen.isLt
  have hexec := exec_decode_of_error hlen hfree <| by
    rw [hbits, decodeLoop_codeStream hfree hcoded (by simpa using hfits), List.nil_append]
    exact hloop _
  refine ⟨_, _, hexec, completed_complete _ _ _, ?_, rfl, exec_decode_keeps hexec⟩
  rw [Nat.zero_add]
  exact Nat.mod_eq_of_lt hpos

/-- Settles O52: no accumulator of the remainder is a code, so the loop ends inside it. -/
theorem decodeFailureAtUnmatchedEnd : Obligations.DecodeFailureAtUnmatchedEnd := by
  unfold Obligations.DecodeFailureAtUnmatchedEnd
  intro s xs rem _ hlen hfree hcoded hbits hrem hnone hfits
  refine exec_decode_of_error_behind hlen hfree hcoded hbits hfits fun p =>
    decodeLoop_unmatched hrem fun q hq hne => symbolOf_eq_none.2 fun x hx => ?_
  have hx' : (s.codeOf x).bits = q := hx
  refine hnone x (fun h0 => hne ?_) (hx' ▸ hq)
  rw [← hx', CodeEntry.bits_eq_nil.2 h0]

/-- Settles O53: the loop matches the code behind the symbols that fill OUT, and has no room for its symbol. -/
theorem decodeStopsWhenOutIsFull : Obligations.DecodeStopsWhenOutIsFull := by
  unfold Obligations.DecodeStopsWhenOutIsFull
  intro s xs x rest _ hlen hfree hcoded hx hbits hfull
  rw [List.append_assoc] at hbits
  refine exec_decode_of_error_behind hlen hfree hcoded hbits hfull.le fun p => ?_
  exact (decodeLoop_rest_of_code hfree hx (acc := []) rfl (mt CodeEntry.bits_eq_nil.1 hx)).trans (if_pos hfull)

/-! ## What DECODE reads of PAY (R117) -/

theorem State.payBits_congr {s s' : State} (hlen : s'.bitLen = s.bitLen)
    (hbits : ∀ p, p < s.bitLen.toNat → s'.payBit p = s.payBit p) : s'.payBits = s.payBits := by
  unfold State.payBits
  rw [hlen]
  exact List.map_congr_left fun p hp => hbits p (List.mem_range.1 hp)

/-- DECODE answers the same on a PAY with the same stream, and keeps the PAY it was given. -/
theorem exec_decode_of_payBits_eq {s : State} {m : Memory} (h : State.payBits { s with payBuf := m } = s.payBits) :
    ∃ t, exec .decode s = .next t ∧ exec .decode { s with payBuf := m } = .next { t with payBuf := m } := by
  simp only [exec, execDecode, h]
  repeat' split
  all_goals exact ⟨_, rfl, rfl⟩

/-- Settles O54: DECODE reads PAY through the stream alone, which ends at BITLEN. -/
theorem decodeReadsOnlyItsBits : Obligations.DecodeReadsOnlyItsBits := by
  unfold Obligations.DecodeReadsOnlyItsBits
  refine ⟨fun s p => ?_, fun s s' hsame hbits => ?_⟩
  · have hm : p % 8 < 8 := Nat.mod_lt _ (by decide)
    simp [State.payBit, BitVec.getMsbD, hm]
  · have hpay : s'.payBits = s.payBits := State.payBits_congr (by rw [hsame]) hbits
    rw [hsame] at hpay ⊢
    obtain ⟨t, ht, ht'⟩ := exec_decode_of_payBits_eq hpay
    exact ⟨t, _, ht, ht', rfl, rfl, rfl, fun _ _ _ => rfl⟩

/-! ## The round trip (R124) -/

/-- After COUNT, BUILD and GENCODES the table is prefix-free and every input symbol has a code (R105). -/
theorem State.exec_build_gencodes_codes {s : State} (hpos : 1 ≤ s.inLen.toNat) :
    ∃ ct, exec .build s.counted = .next s.counted.built ∧
      exec .gencodes s.counted.built = .next (s.counted.built.generated ct) ∧ PrefixFree ct ∧
      AllCoded ct s.inSymbols := by
  obtain ⟨ct, hbuild, hgen⟩ := State.exec_build_gencodes_counted hpos
  have hpresent : ∀ x ∈ s.inSymbols, s.counted.freqOf x ≠ 0#32 := fun x hx h0 => by
    simpa [h0] using (s.counted_pos_iff x).2 hx
  obtain ⟨b, c, v, hb, hc, -, -, hcomplete, -, hfree, -⟩ :=
    generatedTableLaws s.counted _ (hpresent _ (List.mem_map_of_mem (List.mem_range.2 hpos)))
  obtain rfl := Host.Outcome.next.inj (hbuild.symm.trans hb)
  obtain rfl := Host.Outcome.next.inj (hgen.symm.trans hc)
  exact ⟨ct, hbuild, hgen, hfree, fun x hx => CodeEntry.len_pos.1 ((hcomplete x).2 (hpresent x hx))⟩

/-- Where every input symbol has a code ENCODE can fail only for want of room in PAY (R111). -/
theorem exec_encode_of_coded_overflow {s : State} (hpos : 1 ≤ s.inLen.toNat) (hle : s.inLen.toNat ≤ s.params.inDepth)
    (hcoded : AllCoded s.ctab s.inSymbols) (hover : 8 * s.params.payDepth < (codeStream s.ctab s.inSymbols).length) :
    ∃ info, exec .encode s = .next (s.encodeFailed ⟨.capacityExceeded, info⟩) := by
  cases hloop : encodeLoop s.ctab (8 * s.params.payDepth) 0 s.inSymbols [] with
  | ok bits =>
    obtain ⟨henc, -⟩ := exec_encode_of_ok hpos hle hloop
    exact absurd henc.fits (Nat.not_le.2 hover)
  | error r =>
    obtain ⟨ys, x, zs, hsplit, -, ⟨hmissing, -⟩ | ⟨-, -, rfl⟩⟩ := encodeLoop_eq_error hloop
    · exact absurd hmissing (hcoded x (by simp [hsplit]))
    · exact ⟨_, exec_encode_of_error hpos hle hloop⟩

/-- `d` holds the depths, the table and the payload of `s`, the bytes of PAY up to PAY_BYTES. -/
structure SamePayload (s d : State) : Prop where
  params   : d.params = s.params
  codes    : ∀ x, d.codeOf x = s.codeOf x
  bitLen   : d.bitLen = s.bitLen
  payBytes : d.payBytes = s.payBytes
  bytes    : ∀ j, j < s.payBytes.toNat → d.payByte j = s.payByte j

section
variable {s d : State} (h : s.Encodable) (hwf : s.params.wf = true)
include h hwf

/-- The lengths of a packed stream pass the checks of R118. -/
theorem State.Encodable.lengthsOk_encoded : LengthsOk s.encoded := by
  have hfits : ceilDiv8 (codeStream s.ctab s.inSymbols).length ≤ s.params.payDepth := ceilDiv8_le.2 h.fits
  have hparams : s.encoded.params = s.params := rfl
  rw [LengthsOk, h.encoded_bitLen hwf, h.encoded_payBytes hwf, packBits_length, hparams]
  exact ⟨hfits, ceilDiv8_le.1 le_rfl, rfl⟩

/-- The bits of the packed stream are read back in their order (R107, R117). -/
theorem State.Encodable.payBits_encoded : s.encoded.payBits = codeStream s.ctab s.inSymbols := by
  apply List.ext_getElem
  · rw [State.payBits_length, h.encoded_bitLen hwf]
  · intro p _ hp
    have hbyte : p / 8 < (packBits (codeStream s.ctab s.inSymbols)).length :=
      (packBits_length _).symm ▸ lt_of_div_lt_ceilDiv8 hp
    have hm : p % 8 < 8 := Nat.mod_lt _ (by decide)
    simp only [State.payBits, List.getElem_map, List.getElem_range, State.payBit]
    rw [s.encoded_payByte_of_lt hbyte, List.getD_eq_getElem _ _ hbyte, packBits_getElem, packByte_getMsbD _ _ _ hm,
      Nat.div_add_mod, List.getD_eq_getElem _ _ hp]

/-- DECODE gives back what ENCODE packed, from every state with the same payload. -/
theorem State.Encodable.exec_decode (hfree : PrefixFree s.ctab) (hout : s.inLen.toNat ≤ s.params.outDepth)
    (hd : SamePayload s.encoded d) : ∃ e, exec .decode d = .next e ∧ e.errCode = 0#4 ∧ e.outLen = s.inLen ∧
      ∀ j, j < s.inLen.toNat → e.outByte j = s.inByte j := by
  have hctab : d.ctab = s.ctab := table_ext hd.codes
  have hparams : d.params = s.params := hd.params
  have hlen : LengthsOk s.encoded := h.lengthsOk_encoded hwf
  have hstream : d.payBits = s.encoded.payBits := by
    refine State.payBits_congr hd.bitLen fun p hp => ?_
    obtain ⟨-, -, hceil⟩ := hlen
    rw [State.payBit, State.payBit, hd.bytes _ (hceil ▸ lt_of_div_lt_ceilDiv8 hp)]
  have hexec : exec .decode d = .next (d.decoded s.inSymbols) := by
    refine exec_decode_of_codeStream ?_ (hctab ▸ hfree) (hctab ▸ h.coded) ?_ ?_
    · rwa [LengthsOk, hd.params, hd.bitLen, hd.payBytes]
    · rw [hstream, h.payBits_encoded hwf, hctab]
    · rwa [State.inSymbols_length, hparams]
  refine ⟨_, hexec, rfl, by simp [State.decoded], fun j hj => ?_⟩
  rw [d.decoded_outByte_of_lt (by simpa using hj)]
  simp [State.inSymbols, hj]

end

/-- Settles O56: the generated table is prefix-free and codes every input symbol, so ENCODE fails only where the stream
does not fit PAY, and DECODE reads the stream that ENCODE packed and inverts it. -/
theorem encodeThenDecodeGivesInputBack : Obligations.EncodeThenDecodeGivesInputBack := by
  unfold Obligations.EncodeThenDecodeGivesInputBack
  intro s hwf hpos hle
  obtain ⟨ct, hbuild, hgen, hfree, hcoded⟩ := State.exec_build_gencodes_codes hpos
  have hneed : s.params.payDepth < ((codeStream ct s.inSymbols).length + 7) / 8 ↔
      8 * s.params.payDepth < (codeStream ct s.inSymbols).length := by omega
  by_cases hfits : (codeStream ct s.inSymbols).length ≤ 8 * s.params.payDepth
  · have henc : (s.counted.built.generated ct).Encodable := ⟨hpos, hle, hcoded, hfits⟩
    exact ⟨_, _, _, _, exec_count_of_le hle, rfl, hbuild, rfl, hgen, rfl, henc.exec_encode, .inl rfl,
      iff_of_false (CmdError.code_ne_zero _).symm (mt hneed.1 (Nat.not_lt.2 hfits)),
      fun _ hout d hparams hcodes hbitLen hpayBytes hbytes =>
        henc.exec_decode hwf hfree hout ⟨hparams, hcodes, hbitLen, hpayBytes, hbytes⟩⟩
  · have hover := Nat.lt_of_not_le hfits
    obtain ⟨info, hexec⟩ := exec_encode_of_coded_overflow (s := s.counted.built.generated ct) hpos hle hcoded hover
    exact ⟨_, _, _, _, exec_count_of_le hle, rfl, hbuild, rfl, hgen, rfl, hexec, .inr rfl,
      iff_of_true rfl (hneed.2 hover), fun hok => absurd hok (CmdError.code_ne_zero .capacityExceeded)⟩

end Sys2Proof.Machine
end

section
/-! The interrupt pin (60_exceptions.md R131, R132). -/

namespace Sys2Proof.Machine

theorem State.irq_eq_true {s : State} : s.irq = true ↔ s.doneIe = true ∧ s.doneIp = true := Bool.and_eq_true_iff

theorem State.irq_eq_false_of_doneIp {s : State} (h : s.doneIp = false) : s.irq = false := by
  simp only [State.irq, h, Bool.and_false]

/-- A write to INT_EN in any phase (R33, R52). -/
theorem State.transact_write_intEn (s : State) (v : Word) : s.transact (.write 0x00030#20 v) =
    (.write .ok, { s with doneIe := v.getLsbD 0, draws := s.draws + 1 }) :=
  State.transact_write_reg (r := .intEn) (by decide) rfl

/-- Settles O24: irq is the conjunction of two stored bits, so it follows INT_EN and INT_STAT as they are written; a
completion only sets DONE_IP, and reset clears it. -/
theorem irqIsEnableAndPending : Obligations.IrqIsEnableAndPending := by
  unfold Obligations.IrqIsEnableAndPending
  refine ⟨fun s => ⟨State.irq_eq_true, fun v hset hpending => ?_, fun v hclear => ?_,
    fun w t hp _ => engineStep_sets_doneIp hp, State.irq_eq_false_of_doneIp s.applyReset_doneIp⟩,
    State.irq_eq_false_of_doneIp rfl⟩
  · rw [State.transact_write_intEn]
    exact State.irq_eq_true.2 ⟨hset, hpending⟩
  · rw [State.transact_write_intStat]
    refine State.irq_eq_false_of_doneIp ?_
    simp only [hclear, Bool.not_true, Bool.and_false]

end Sys2Proof.Machine
end

section
/-! Reset and INIT (70_reset_and_hazards.md R140 to R143). -/

namespace Sys2Proof.Machine

/-! ## Registers over cleared fields (R15, R19) -/

/-- With no error, no completion and no last command, STATUS is its bit BUSY. -/
theorem State.statusWord_of_cleared {s : State} (hdone : s.done = false) (hcode : s.errCode = 0#4)
    (hop : s.lastOp = 0#8) : s.statusWord = if s.busyBit then 0x00000001#32 else 0x00000000#32 := by
  apply BitVec.eq_of_toNat_eq
  rw [State.statusWord_toNat, State.errBit_eq_false.2 hcode, hdone, hcode, hop]
  cases s.busyBit <;> rfl

theorem State.intEnWord_of_cleared {s : State} (h : s.doneIe = false) : s.intEnWord = 0x00000000#32 := by
  rw [State.intEnWord, h]
  decide

theorem State.intStatWord_of_cleared {s : State} (h : s.doneIp = false) : s.intStatWord = 0x00000000#32 := by
  rw [State.intStatWord, h]
  decide

/-! ## The reset move (R140, R143) -/

theorem step_of_reset_listed {s : State} {es : List Event} (he : s.events = .reset :: es) :
    step s = .next (State.applyReset { s with events := es }) := by
  simp only [step, he]

theorem resetValues_applyReset (s : State) : ResetValues s.applyReset :=
  ⟨rfl, State.statusWord_of_cleared rfl rfl rfl, rfl, rfl, rfl, rfl, rfl, rfl, rfl, rfl,
    State.intEnWord_of_cleared rfl, State.intStatWord_of_cleared rfl, State.irq_eq_false_of_doneIp s.applyReset_doneIp⟩

theorem resetValues_reset : ResetValues State.reset := by
  rw [State.reset, State.powerOn_eq_applyReset]
  exact resetValues_applyReset _

/-! ## The end of INIT (R141) -/

@[simp] theorem State.finishInit_freqOf (s : State) (x : Byte) : s.finishInit.freqOf x = 0#32 :=
  tableGet_tableOf _ x

@[simp] theorem State.finishInit_codeOf (s : State) (x : Byte) : s.finishInit.codeOf x = CodeEntry.absent :=
  tableGet_tableOf _ x

@[simp] theorem CodeEntry.absent_len : CodeEntry.absent.len = 0#8 := rfl

@[simp] theorem CodeEntry.absent_bit (i : Nat) : CodeEntry.absent.bit i = false := BitVec.getMsbD_zero

theorem KeepsHostSide.finishInit (s : State) : KeepsHostSide s s.finishInit :=
  ⟨rfl, rfl, rfl, fun _ => rfl, rfl, rfl⟩

/-- The registers of R15 whose reset value is 0, once INIT ends (R140). -/
theorem State.finishInit_applyReset_readReg (s : State) {r : RegName}
    (hr : r ∈ [RegName.cmd, .inLen, .bitLen, .payBytes, .outLen, .nsym, .root, .nodeCount, .errInfo, .intEn, .intStat]) :
    s.applyReset.finishInit.readReg r = 0x00000000#32 := by
  cases r
  case id | version | status | inDepth | payDepth | outDepth => exact absurd hr (by decide)
  case intEn => exact State.intEnWord_of_cleared rfl
  case intStat => exact State.intStatWord_of_cleared rfl
  all_goals rfl

/-- Settles O7: the power-on state is itself a reset, and a reset followed by the end of INIT leaves the fields behind
every register as R15 lists them, over the depths and the two constants, which no move writes. -/
theorem resetGivesResetValues : Obligations.ResetGivesResetValues := by
  unfold Obligations.ResetGivesResetValues
  refine ⟨resetValues_reset, fun s es he => ?_⟩
  exact ⟨_, step_of_reset_listed he, resetValues_applyReset _, rfl, rfl, rfl, rfl, _, engineStep_init rfl,
    State.statusWord_of_cleared rfl rfl rfl, rfl, rfl, rfl, fun r => State.finishInit_applyReset_readReg _⟩

/-- Settles O8: the end of INIT writes the two tables and the phase alone, and until then the phase is not IDLE, so the
rules of R52 hold. -/
theorem initClearsTables : Obligations.InitClearsTables := by
  unfold Obligations.InitClearsTables
  intro s hp
  have hbusy : s.phase ≠ .idle := by rw [hp]; exact nofun
  refine ⟨⟨s.finishInit, engineStep_init hp, s.finishInit_freqOf, fun x => ?cleared, rfl, rfl, rfl, rfl, rfl, rfl, rfl,
      .finishInit s, .of_same rfl rfl rfl rfl, ⟨rfl, rfl⟩, .of_same rfl, .of_same rfl, rfl⟩,
    fun row hrow => s.transact_read_reg hrow,
    fun v => State.transact_write_reg_busy (off := 0x008) (r := .cmd) hbusy (by decide) (by decide) v,
    fun a => State.transact_window_busy hbusy⟩
  case cleared =>
    rw [s.finishInit_codeOf]
    exact ⟨CodeEntry.absent_len, CodeEntry.absent_bit⟩

/-! ## A pending command (R79, R143) -/

/-- The one write that changes the phase is CMD's, and it is accepted only while IDLE (R52, R78). -/
theorem State.writeLoc_phase {s t : State} {v : Word} {l : Loc} (hbusy : s.phase ≠ .idle)
    (h : s.writeLoc v l = .ok t) : t.phase = s.phase := by
  rcases State.writeLoc_eq_ok h with ⟨-, hidle, -⟩ | ⟨-, -, rfl⟩ | ⟨-, -, rfl⟩ | ⟨-, -, rfl⟩ | ⟨-, rfl⟩ | ⟨-, rfl⟩ |
    ⟨x, -, -, rfl⟩ | ⟨x, w, -, -, rfl⟩ | ⟨o, -, -, rfl⟩ | ⟨o, -, -, rfl⟩
  · exact absurd hidle hbusy
  all_goals rfl

/-- No host transaction ends INIT or cancels a command (R79). -/
theorem State.transact_phase {s : State} (hbusy : s.phase ≠ .idle) (x : Txn) : (s.transact x).2.phase = s.phase := by
  cases x with
  | read a => rw [State.transact_read]
  | write a v =>
    rcases State.transact_write s a v with h | ⟨l, t, -, hw, h⟩
    · rw [h]
    · rw [h]
      exact State.writeLoc_phase hbusy hw

/-- Settles O9: reset does not execute the pending word, so its results, DONE and DONE_IP are those of R140, and the
engine's event after it is the end of INIT; a transaction leaves the phase, and the pending word with it. -/
theorem resetAbandonsCommand : Obligations.ResetAbandonsCommand := by
  unfold Obligations.ResetAbandonsCommand
  refine ⟨fun s w es _ he => ?_, fun s w x hp => ?_⟩
  · refine ⟨_, _, step_of_reset_listed he, resetValues_applyReset _, rfl, rfl, .of_same rfl, .of_same rfl,
      (step_of_engine_listed rfl).trans (engineStep_init rfl), rfl, rfl, rfl, State.finishInit_freqOf _, fun x => ?_⟩
    rw [State.finishInit_codeOf]
    exact CodeEntry.absent_len
  · have hbusy : s.phase ≠ .idle := by rw [hp]; exact nofun
    exact (State.transact_phase hbusy x).trans hp

end Sys2Proof.Machine
end
